-- ==== Sys2Proof/Word.lean ====
section
/-! DEFINITION. The word types of the block: the widths `spec/00_scope.md` rules R7 and R9 and
`spec/10_state.md` section 2 give its registers. All are unsigned; arithmetic on them wraps (rule R10). -/

namespace Sys2Proof

/-- An amplitude sample, a threshold or a delta: 8 bits unsigned (R7 `SAMPLE_W`, R36). -/
abbrev Amp := BitVec 8

/-- A timestamp or a duration in milliseconds: 32 bits unsigned (R9 `TIME_W`, R7 `LAP_W`). -/
abbrev Millis := BitVec 32

/-- A frequency value in MHz, or a 16-bit register payload: 16 bits unsigned (R9 `FREQ_W`). -/
abbrev Word16 := BitVec 16

/-- An address of the receiver's register space: 4 bits (R7 `ADDR_BITS`). -/
abbrev RegAddr := BitVec 4

/-- A power-control option mask: 20 bits (R7 `MASK_BITS`). -/
abbrev PowerMask := BitVec 20

/-- The filter's estimate: unsigned fixed point, 8 integer and 16 fractional bits (R45). -/
abbrev Estimate := BitVec 24

/-- The filter's other registers: unsigned fixed point, 16 fractional bits (R39, R46). -/
abbrev Fixed32 := BitVec 32

/-- A request word of the command port: 69 bits (R92). -/
abbrev ReqWord := BitVec 69

/-- A frame of the serial bus: 25 cells, cell 0 (first in time) in the most significant bit (R80). -/
abbrev FrameWord := BitVec 25

end Sys2Proof
end

