-- ==== Sys2Proof/Config.lean ====
section
/-! DEFINITION. What an implementation fixes (`spec/00_scope.md` rules R7, R8, R9), the configuration
inputs a collaborator drives (`spec/10_state.md` rules R36 to R38), and the free values: the
environment's answers, the filter's numerics and the rescaled amplitude where the spec gives no law for them.

The parameters of rules R8 and R9 are a record that `State` carries and no step writes, so a statement
about every state is a statement about every value of every parameter. -/

namespace Sys2Proof.Config

/-- R7: the mask that powers the receiver down, all 20 bits set. -/
def powerMaskDown : PowerMask := 0xFFFFF#20

/-- R7 `FREQ_OFFSET`: the least frequency that has an encoding (R87). -/
def freqOffset : Nat := 479

/-- R87: the greatest frequency whose encoding fits the 16 payload bits. -/
def freqEncodableMax : Nat := 33246

/-- R7 `RSSI_SHIFT`. -/
def rssiShift : Nat := 3

/-- R9 `X0`: the estimate after `FLT.INIT`. -/
def x0 : Estimate := 0#24

/-- R9 `P0`: the uncertainty after `FLT.INIT`, 1.0 in 16 fractional bits. -/
def p0 : Fixed32 := 0x10000#32

/-- R7 `CAL_COUNT_MAX`: where a calibration sample count saturates. -/
def calCountMax : BitVec 16 := 65535#16

/-- R7 `T_BIT` in microseconds, the argument of every `hold` of a bit phase. No result depends on it
(R280). -/
def tBit : Nat := 300

/-- R113: which filter step the block has. `fixedPoint` is the default instance (R112, R114 to R118);
`open_` is a step of which only R110 (a) to (c) and the range of the rounded sample are known. -/
inductive Numerics where
  | fixedPoint
  | open_
deriving DecidableEq, Repr

/-- The implementation parameters of rules R8 and R9. -/
structure Params where
  /-- R8: address of the receiver's frequency register. -/
  freqRegAddr : RegAddr
  /-- R8: address of the receiver's power-control register. -/
  powerRegAddr : RegAddr
  /-- R8: value of the write-indicator bit. -/
  writeInd : Bool
  /-- R8: value of the read-indicator bit. -/
  readInd : Bool
  /-- R8: the mask of normal operation. -/
  powerMaskNormal : PowerMask
  /-- R8: the power-down sentinel. -/
  powerDownFreq : Word16
  /-- R8: lower end of the receiver's valid range. -/
  freqMin : Word16
  /-- R8: upper end of the receiver's valid range. -/
  freqMax : Word16
  /-- R8 `T_BUS_BUSY`. -/
  tBusBusy : Millis
  /-- R8 `T_TUNE_SETTLE`. -/
  tTuneSettle : Millis
  /-- R8 `T_WAKE_SETTLE`, the argument of the `hold` in `wake`; timing only. -/
  tWakeSettle : Nat
  /-- R8 `ADC_BITS`: the width of the analog channel's value. -/
  adcBits : Nat
  /-- R8 `RSSI_CLAMP_MAX`, R90: the upper end of the usable analog range, `ADC_BITS` wide: a greater value clamps
  nothing. -/
  rssiClampMax : Nat
  /-- R9 `PAYLOAD_MSB_FIRST`. -/
  payloadMsbFirst : Bool
  /-- R9 `VERIFY_WHEN_DOWN`. -/
  verifyWhenDown : Bool
  /-- R9 `STOP_CLEARS_CAL`. -/
  stopClearsCal : Bool
  /-- R113 `fltStep`. -/
  numerics : Numerics
deriving DecidableEq, Repr

/-- The test defaults of rule R8 and the values of rule R9 (log entry 2). -/
def testDefaults : Params where
  freqRegAddr := 0x1#4
  powerRegAddr := 0xA#4
  writeInd := true
  readInd := false
  powerMaskNormal := 0xD0DF3#20
  powerDownFreq := 1111#16
  freqMin := 5645#16
  freqMax := 5945#16
  tBusBusy := 30#32
  tTuneSettle := 35#32
  tWakeSettle := 0
  adcBits := 12
  rssiClampMax := 2047
  payloadMsbFirst := true
  verifyWhenDown := true
  stopClearsCal := true
  numerics := .fixedPoint

/-- R233 `BadConfig`: the parameter constraints, in the order of that rule's list. -/
inductive Violation where
  | equalRegAddr
  | equalIndicators
  | sentinelInRange
  | freqMinTooLow
  | freqMaxTooHigh
  | emptyRange
  | adcTooNarrow
  | sentinelNotEncodable
deriving DecidableEq, Repr

/-- The configuration inputs (R36, R38): ports the block never writes. -/
structure Inputs where
  /-- R36: the enter threshold. -/
  enterRssi : Amp
  /-- R36: the exit-RSSI threshold. -/
  exitRssi : Amp
  /-- R36: the minimum delta. -/
  minDelta : Amp
  /-- R36: the minimum lap time. -/
  minLapMs : Millis
  /-- R36: the calibration sample-count target; no rule reads it (R226). -/
  calTarget : BitVec 16
  /-- R37: the detection policy, `exitMode` in bit 0, `guardCapture` in bit 1, `guardConfirm` in bit 2,
  `waitSeparate` in bit 3. -/
  policy : BitVec 4
  /-- R38: the `WAITING` copy of the enter threshold. -/
  enterRssiWait : Amp
  /-- R38: the `WAITING` copy of the exit-RSSI threshold. -/
  exitRssiWait : Amp
  /-- R38: the `WAITING` copy of the minimum delta. -/
  minDeltaWait : Amp
deriving DecidableEq, Repr

/-- The level the environment answers to the n-th `sample(DATA)` that no scripted answer covers
(R12, R245: one bit under no law). Log entry 4. -/
opaque freeLevel : Nat → Bool

/-- The value the environment answers to the n-th `AdcRead()` that no scripted answer covers (R12, R246:
under no law). Log entry 4. -/
opaque freeAnalog : Nat → Nat

/-- The amplitude of a raw analog value under a given clamp, where the rescaled value does not fit 8 bits: R90 states
a result for a clamp of at most 2047. Log entry 21. -/
opaque freeRescale : Nat → Nat → Amp

/-- The filter step where `Params.numerics` is `open_`: a function of the two coefficients, the two
numbers of the state and the measurement, and of nothing else (R110 (b), R113). Log entry 5. -/
opaque freeFltStep : Fixed32 → Fixed32 → Estimate → Fixed32 → Amp → Estimate × Fixed32

end Sys2Proof.Config
end

