-- ==== Sys2Proof/Syntax.lean ====
section
/-! DEFINITION. The instructions of the block: one constructor for every row of
`spec/opcode_table.json`, the 19 operations of the command port (`spec/30_encoding.md` rule R93) and the
three frames of the serial bus (rule R80), with typed operands (rule R92). -/

namespace Sys2Proof

/-- An operation of the block. -/
inductive Instr where
  /-- `FLT.INIT(rawQ, rawR)` (R112). -/
  | fltInit (rawQ rawR : BitVec 16)
  /-- `FLT.STEP(m)` (R114). -/
  | fltStep (m : Amp)
  /-- `RX.INIT()` (R151). -/
  | rxInit
  /-- `RX.SETFREQ(now, F)` (R152). -/
  | rxSetfreq (now : Millis) (f : Word16)
  /-- `RX.HOUSEKEEP(now, F)` (R156). -/
  | rxHousekeep (now : Millis) (f : Word16)
  /-- `RX.READRSSI()` (R161). -/
  | rxReadrssi
  /-- `RX.VERIFY(now)` (R158). -/
  | rxVerify (now : Millis)
  /-- `LAP.START()` (R181). -/
  | lapStart
  /-- `LAP.STOP()` (R182). -/
  | lapStop
  /-- `LAP.TICK(now)` (R184). -/
  | lapTick (now : Millis)
  /-- `LAP.STEP(now, sample)` (R189). -/
  | lapStep (now : Millis) (sample : Amp)
  /-- `LAP.GETRSSI()` (R197). -/
  | lapGetrssi
  /-- `LAP.AVAIL()` (R198). -/
  | lapAvail
  /-- `LAP.GETTIME()` (R199). -/
  | lapGettime
  /-- `LAP.SETCB(en)` (R200). -/
  | lapSetcb (en : Bool)
  /-- `CAL.NSTART()` (R221). -/
  | calNstart
  /-- `CAL.NSTOP()` (R222). -/
  | calNstop
  /-- `CAL.XSTART()` (R223). -/
  | calXstart
  /-- `CAL.XSTOP()` (R224). -/
  | calXstop
  /-- `FRAME.WF(addr, value)` (R134). -/
  | frameWf (addr : RegAddr) (value : Word16)
  /-- `FRAME.WP(mask)` (R135). -/
  | frameWp (mask : PowerMask)
  /-- `FRAME.RD(addr)` (R136). -/
  | frameRd (addr : RegAddr)
deriving DecidableEq, Repr

/-- An encoded operation: a request word of the command port (format `CMD`), or a frame asked of the
transport directly (format `FRAME25`; R94: a frame has no command code). Log entry 7. -/
inductive PortWord where
  | cmd (w : ReqWord)
  | frame (w : FrameWord)
deriving DecidableEq, Repr

end Sys2Proof
end

