-- ==== Sys2Proof/Decode.lean ====
section
/-! DEFINITION. The decoder, total on every request word and every frame word, and the encoder
(`spec/30_encoding.md` rules R80 to R84, R92, R93, R95, R96). -/

namespace Sys2Proof

/-- Why a word is no operation. -/
inductive DecodeError where
  /-- R96: a reserved command code. -/
  | reservedCommand (cmd : BitVec 5)
  /-- R98: a frame written to another register than the power-control one whose four pad cells are not
  all 0; no frame kind of R80 has that form. -/
  | malformedFrame (w : FrameWord)
deriving DecidableEq, Repr

/-! ## Operand fields of a request word (R92) -/

/-- `req[68:64]`. -/
def cmdField (w : ReqWord) : BitVec 5 := w.extractLsb' 64 5

/-- `req[63:32]`. -/
def nowField (w : ReqWord) : Millis := w.extractLsb' 32 32

/-- `req[31:0]`. -/
def argField (w : ReqWord) : BitVec 32 := w.extractLsb' 0 32

/-- `F = arg[15:0]`, and `rawQ = arg[15:0]`. -/
def argLow16 (w : ReqWord) : Word16 := (argField w).extractLsb' 0 16

/-- `rawR = arg[31:16]`. -/
def argHigh16 (w : ReqWord) : Word16 := (argField w).extractLsb' 16 16

/-- `m = arg[7:0]`, and `sample = arg[7:0]`. -/
def argAmp (w : ReqWord) : Amp := (argField w).extractLsb' 0 8

/-- `en = arg[0]`. -/
def argEn (w : ReqWord) : Bool := (argField w).getLsbD 0

/-- The operation map of R93; every code it does not list is reserved (R96). -/
def decodeCmd (w : ReqWord) : Except DecodeError Instr :=
  match (cmdField w).toNat with
  | 0x01 => .ok (.fltInit (argLow16 w) (argHigh16 w))
  | 0x02 => .ok (.fltStep (argAmp w))
  | 0x04 => .ok .rxInit
  | 0x05 => .ok (.rxSetfreq (nowField w) (argLow16 w))
  | 0x06 => .ok (.rxHousekeep (nowField w) (argLow16 w))
  | 0x07 => .ok .rxReadrssi
  | 0x08 => .ok (.rxVerify (nowField w))
  | 0x10 => .ok .lapStart
  | 0x11 => .ok .lapStop
  | 0x12 => .ok (.lapTick (nowField w))
  | 0x13 => .ok (.lapStep (nowField w) (argAmp w))
  | 0x14 => .ok .lapGetrssi
  | 0x15 => .ok .lapAvail
  | 0x16 => .ok .lapGettime
  | 0x17 => .ok (.lapSetcb (argEn w))
  | 0x18 => .ok .calNstart
  | 0x19 => .ok .calNstop
  | 0x1A => .ok .calXstart
  | 0x1B => .ok .calXstop
  | _ => .error (.reservedCommand (cmdField w))

/-! ## Fields of a frame word

Cell k of a frame is bit `24 - k` of the word, so the word read as a binary numeral is the table's
wire-order string (R95). A field sent bit 0 first therefore stands reversed in the word. -/

/-- Cells 0 to 3: the address, bit 0 first. -/
def frameAddr (w : FrameWord) : RegAddr := (w.extractLsb' 21 4).reverse

/-- Cell 4: the indicator. -/
def frameInd (w : FrameWord) : Bool := w.getLsbD 20

/-- Cells 5 to 20 of a frequency write, in the order `PAYLOAD_MSB_FIRST` chooses (R82). -/
def framePayload (p : Config.Params) (w : FrameWord) : Word16 :=
  if p.payloadMsbFirst then w.extractLsb' 4 16 else (w.extractLsb' 4 16).reverse

/-- Cells 21 to 24 of a frequency write. -/
def framePad (w : FrameWord) : BitVec 4 := w.extractLsb' 0 4

/-- Cells 5 to 24 of a power-control write, bit 0 first (R84). -/
def frameMask (w : FrameWord) : PowerMask := (w.extractLsb' 0 20).reverse

/-- The three frame kinds of R80. The sampled cells of a read frame are the environment's, so they do not
take part. -/
def decodeFrame (p : Config.Params) (w : FrameWord) : Except DecodeError Instr :=
  if frameInd w = p.readInd then .ok (.frameRd (frameAddr w))
  else if frameAddr w = p.powerRegAddr then .ok (.frameWp (frameMask w))
  else if framePad w = 0#4 then .ok (.frameWf (frameAddr w) (framePayload p w))
  else .error (.malformedFrame w)

/-- The decoder. -/
def decode (p : Config.Params) : PortWord → Except DecodeError Instr
  | .cmd w => decodeCmd w
  | .frame w => decodeFrame p w

/-! ## The encoder -/

/-- R92: `req = cmd[4:0] ++ now[31:0] ++ arg[31:0]`. -/
def reqWord (cmd : BitVec 5) (now : Millis) (arg : BitVec 32) : ReqWord := cmd ++ now ++ arg

/-- R82: the cells of `FRAME.WF`. -/
def wfWord (p : Config.Params) (addr : RegAddr) (value : Word16) : FrameWord :=
  addr.reverse ++ BitVec.ofBool p.writeInd ++ (if p.payloadMsbFirst then value else value.reverse) ++ 0#4

/-- R84: the cells of `FRAME.WP`. -/
def wpWord (p : Config.Params) (mask : PowerMask) : FrameWord :=
  p.powerRegAddr.reverse ++ BitVec.ofBool p.writeInd ++ mask.reverse

/-- R83: the driven cells of `FRAME.RD`; the sampled cells stand as 0. -/
def rdWord (p : Config.Params) (addr : RegAddr) : FrameWord :=
  addr.reverse ++ BitVec.ofBool p.readInd ++ 0#20

/-- The word of an instruction; operand bits it does not use are 0. -/
def encode (p : Config.Params) : Instr → PortWord
  | .fltInit rawQ rawR => .cmd (reqWord 0x01#5 0#32 (rawR ++ rawQ))
  | .fltStep m => .cmd (reqWord 0x02#5 0#32 (m.setWidth 32))
  | .rxInit => .cmd (reqWord 0x04#5 0#32 0#32)
  | .rxSetfreq now f => .cmd (reqWord 0x05#5 now (f.setWidth 32))
  | .rxHousekeep now f => .cmd (reqWord 0x06#5 now (f.setWidth 32))
  | .rxReadrssi => .cmd (reqWord 0x07#5 0#32 0#32)
  | .rxVerify now => .cmd (reqWord 0x08#5 now 0#32)
  | .lapStart => .cmd (reqWord 0x10#5 0#32 0#32)
  | .lapStop => .cmd (reqWord 0x11#5 0#32 0#32)
  | .lapTick now => .cmd (reqWord 0x12#5 now 0#32)
  | .lapStep now sample => .cmd (reqWord 0x13#5 now (sample.setWidth 32))
  | .lapGetrssi => .cmd (reqWord 0x14#5 0#32 0#32)
  | .lapAvail => .cmd (reqWord 0x15#5 0#32 0#32)
  | .lapGettime => .cmd (reqWord 0x16#5 0#32 0#32)
  | .lapSetcb en => .cmd (reqWord 0x17#5 0#32 ((BitVec.ofBool en).setWidth 32))
  | .calNstart => .cmd (reqWord 0x18#5 0#32 0#32)
  | .calNstop => .cmd (reqWord 0x19#5 0#32 0#32)
  | .calXstart => .cmd (reqWord 0x1A#5 0#32 0#32)
  | .calXstop => .cmd (reqWord 0x1B#5 0#32 0#32)
  | .frameWf addr value => .frame (wfWord p addr value)
  | .frameWp mask => .frame (wpWord p mask)
  | .frameRd addr => .frame (rdWord p addr)

/-! ## Words numbered as the opcode table numbers them -/

/-- The word the table's number w stands for: a row of at most 32 bits is a `FRAME25` row, read as the
binary numeral of its wire-order string; a longer one is a `CMD` row (log entry 8). -/
def tableWord (nbits w : Nat) : PortWord :=
  if nbits ≤ 32 then .frame (BitVec.ofNat 25 w) else .cmd (BitVec.ofNat 69 w)

/-- The instruction the decoder reads from the table's number w, under the test defaults of R8. -/
def decodeTableWord (nbits w : Nat) : Option Instr :=
  match decode Config.testDefaults (tableWord nbits w) with
  | .ok i => some i
  | .error _ => none

end Sys2Proof
end

