-- ==== Sys2Proof/Machine/State.lean ====
section
/-! DEFINITION. The state of the block as plain data (`spec/10_state.md`), the reasons a step can stop, the
state after reset (rule R51), and one named update per part of the state. -/

namespace Sys2Proof.Machine

/-! ## Names -/

/-- R28: the timer state; code 3 has no meaning and no constructor. -/
inductive TimerState where
  | stopped
  | waiting
  | running
deriving DecidableEq, Repr

/-- R12: the three bus lines. -/
inductive Line where
  | data
  | clk
  | sel
deriving DecidableEq, Repr

/-- R48: the direction of the data line. -/
inductive DataDir where
  | out
  | inp
deriving DecidableEq, Repr

/-- R236: the two indicator channels. -/
inductive Channel where
  | a
  | b
deriving DecidableEq, Repr

/-- R236: the kinds of a notifier pulse. -/
inductive NotifyKind where
  | start
  | stop
  | lapStart
  | lapFinish
  | calOn
  | calOff
deriving DecidableEq, Repr

/-- R50: an entry of the output trace: a pin event `(L, v)`, the pin event `(DATA, Z)`, or an outgoing
event of R235 or R236. -/
inductive Event where
  | pin (line : Line) (level : Bool)
  | dataZ
  | notify (channel : Channel) (kind : NotifyKind)
  | lapCompleted (duration : Millis)
deriving DecidableEq, Repr

/-- R233: the component a `NotInitialised` refusal names. -/
inductive Component where
  | rx
  | flt
deriving DecidableEq, Repr

/-! ## Parts of the state -/

/-- A memory of elements w bits wide: (index, element) pairs, indices strictly rising, no element equal to
what an unlisted index reads as. With w = 8 it is a list of `Host.Cell`. -/
abbrev Memory (w : Nat) := List (Nat × BitVec w)

/-- R23: the crossing candidate. -/
structure Candidate where
  peak : Amp
  ts : Millis
deriving DecidableEq, Repr

/-- R25, R34: a calibration session. -/
structure Cal where
  active : Bool
  max : Amp
  count : BitVec 16
deriving DecidableEq, Repr

/-- The Lap Detection Engine's state (R21 to R25, R28, R31, R34, R35). -/
structure Engine where
  /-- R21, R60: the sample ring buffer, indices 0 to 99. -/
  samples : Memory 8
  /-- R21: its write cursor. -/
  sampleCursor : Fin 100
  /-- R22, R61: the lap ring buffer, indices 0 to 49. -/
  laps : Memory 32
  /-- R22: the slot the next finished lap goes to. -/
  lapCursor : Fin 50
  /-- R23. -/
  cand : Candidate
  /-- R24. -/
  lapStart : Millis
  /-- R28. -/
  timerState : TimerState
  /-- R31. -/
  lapAvailable : Bool
  /-- R35. -/
  cbRegistered : Bool
  /-- R25. -/
  noiseCal : Cal
  /-- R25. -/
  crossCal : Cal
deriving DecidableEq, Repr

/-- The Signal Filter's state (R35, R39, R45, R46). -/
structure Filter where
  x : Estimate
  p : Fixed32
  qc : Fixed32
  rc : Fixed32
  fltInit : Bool
deriving DecidableEq, Repr

/-- The Receiver Driver's tuned-frequency state (R26, R32, R33, R35). -/
structure Driver where
  curFreq : Word16
  lastWriteMs : Millis
  recentlyChanged : Bool
  poweredDown : Bool
  rxInit : Bool
deriving DecidableEq, Repr

/-- R48: the level last driven on each line, and the data line's direction. -/
structure Pins where
  sel : Bool
  clk : Bool
  data : Bool
  dataDir : DataDir
deriving DecidableEq, Repr

/-- What the environment will answer: the levels of the coming `sample(DATA)` and the values of the coming
`AdcRead()`, next first, and how many answers were drawn beyond these lists (log entry 4). -/
structure Env where
  data : List Bool
  adc : List Nat
  draws : Nat
deriving DecidableEq, Repr

/-- What arrives at the block, between two operations (R72, R77, R249, R262): a request of either caller,
new values of the configuration inputs, or the reset input. A request is marked early when it was made
while another operation had not completed (R233 `Reentrant`). -/
inductive Arrival where
  | request (w : PortWord) (early : Bool)
  | inputs (c : Config.Inputs)
  | reset
deriving DecidableEq, Repr

/-- The machine. `params` and `cfg` are the implementation parameters and the configuration inputs, `trace`
the output trace (R50), `env` and `arrivals` what the outside will do, `ret` the result port (R92). -/
structure State where
  params : Config.Params
  cfg : Config.Inputs
  engine : Engine
  filter : Filter
  driver : Driver
  pins : Pins
  trace : List Event
  env : Env
  arrivals : List Arrival
  ret : BitVec 32
deriving DecidableEq, Repr

/-! ## Reasons a step can stop -/

/-- Faults. There are none: R230, "There are no fatal error conditions inside the core". Nothing raises one,
and that is safe: no constructor exists to raise. -/
inductive Fault where
deriving DecidableEq, Repr

/-- Refusals (R233): requests the spec gives no meaning. The state is what it was; the run ends. Each is safe:
the model stops where the spec says that a model must not continue. -/
inductive Refusal where
  /-- An instruction without a meaning; raised by `exec` alone. Safe. -/
  | notModelled (mnemonic : String)
  /-- R96: raised by the decoder on a reserved command code. Safe. -/
  | reservedCommand (cmd : BitVec 5)
  /-- R80, R98: raised by the decoder on a frame word of none of the three kinds (log entry 7). Safe. -/
  | malformedFrame (w : FrameWord)
  /-- R97: raised at the port on a frame the block never sends: another register, a read of the power-control register,
  another mask, or a frequency value with bit 5 or 6 set (log entry 7). Safe. -/
  | frameNeverSent (i : Instr)
  /-- R233: raised by an operation that needs a component which has not been initialised. Safe. -/
  | notInitialised (c : Component)
  /-- R112: raised by `FLT.INIT` on a measurement-noise coefficient of 0. Safe. -/
  | badCoefficient (rawR : BitVec 16)
  /-- R99: raised by `RX.SETFREQ` and `RX.HOUSEKEEP`. Safe. -/
  | freqOutOfRange (f : Word16)
  /-- R158: raised by `RX.VERIFY` where the current frequency has no encoding. Safe. -/
  | noFrequency (curFreq : Word16)
  /-- R233, R241: raised on a request made while another operation had not completed. Safe. -/
  | reentrant
  /-- R233: raised before any operation where a parameter constraint is violated. Safe. -/
  | badConfig (v : Config.Violation)
deriving DecidableEq, Repr

/-! ## Reset -/

/-- R23: the candidate right after a reset of it. -/
def Candidate.empty : Candidate := ⟨0#8, 0#32⟩

/-- R51: a calibration session that is inactive and zero. -/
def Cal.cleared : Cal := ⟨false, 0#8, 0#16⟩

/-- R51: the engine after reset. -/
def Engine.reset : Engine where
  samples := []
  sampleCursor := 0
  laps := []
  lapCursor := 0
  cand := Candidate.empty
  lapStart := 0#32
  timerState := .stopped
  lapAvailable := false
  cbRegistered := false
  noiseCal := Cal.cleared
  crossCal := Cal.cleared

/-- R51: the filter after reset; the four numbers are unspecified there (log entry 10). -/
def Filter.reset : Filter where
  x := 0#24
  p := 0#32
  qc := 0#32
  rc := 0#32
  fltInit := false

/-- R51: the driver after reset. -/
def Driver.reset : Driver where
  curFreq := 0#16
  lastWriteMs := 0#32
  recentlyChanged := false
  poweredDown := false
  rxInit := false

/-- R51: the lines after reset, unspecified there; the rest levels of R48 are taken (log entry 9). -/
def Pins.reset : Pins where
  sel := true
  clk := false
  data := false
  dataDir := .out

/-- The configuration inputs of the reset state; what the collaborator drives is not the block's
(log entry 3). -/
def inputsAtReset : Config.Inputs where
  enterRssi := 0#8
  exitRssi := 0#8
  minDelta := 0#8
  minLapMs := 0#32
  calTarget := 0#16
  policy := 0#4
  enterRssiWait := 0#8
  exitRssiWait := 0#8
  minDeltaWait := 0#8

/-- R51, R260, R261: the machine right after reset, with nothing requested. -/
def State.reset : State where
  params := Config.testDefaults
  cfg := inputsAtReset
  engine := Engine.reset
  filter := Filter.reset
  driver := Driver.reset
  pins := Pins.reset
  trace := []
  env := ⟨[], [], 0⟩
  arrivals := []
  ret := 0#32

/-! ## Updates -/

/-- Replace the engine's state. -/
def State.setEngine (e : Engine) (s : State) : State := { s with engine := e }

/-- Replace the filter's state. -/
def State.setFilter (f : Filter) (s : State) : State := { s with filter := f }

/-- Replace the driver's tuned-frequency state. -/
def State.setDriver (d : Driver) (s : State) : State := { s with driver := d }

/-- Replace the pin state. -/
def State.setPins (p : Pins) (s : State) : State := { s with pins := p }

/-- Append an event to the output trace. -/
def State.emit (e : Event) (s : State) : State := { s with trace := s.trace ++ [e] }

/-- Replace the environment's coming answers. -/
def State.setEnv (v : Env) (s : State) : State := { s with env := v }

/-- Replace what has arrived and is not yet served. -/
def State.setArrivals (l : List Arrival) (s : State) : State := { s with arrivals := l }

/-- Replace the configuration inputs. -/
def State.setInputs (c : Config.Inputs) (s : State) : State := { s with cfg := c }

/-- Write the result port. -/
def State.setRet (v : BitVec 32) (s : State) : State := { s with ret := v }

end Sys2Proof.Machine
end

