-- ==== Sys2Proof/Machine/Operands.lean ====
section
/-! DEFINITION. Value assembly: the frequency encoding, the read-back, the amplitude rescale, the filter's
coefficients and the rounding to a sample (`spec/30_encoding.md` rules R87 to R91, R102;
`spec/40_signal_filter.md` rule R117), and the cells of the three frames (rules R82 to R84). -/

namespace Sys2Proof.Machine

/-! ## Frequency -/

/-- R87: the register value of a frequency; the rule defines it for 479 to 33246. -/
def encodeFreq (f : Word16) : Word16 :=
  let tf := (f.toNat - Config.freqOffset) / 2
  BitVec.ofNat 16 (((tf / 32) <<< 7) ||| (tf % 32))

/-- R88: the arithmetic inverse, used by no operation. -/
def decodeFreq (v : Word16) : Nat :=
  2 * (32 * (v.toNat >>> 7) + (v.toNat &&& 0x7F)) + Config.freqOffset

/-! ## Read-back and amplitude -/

/-- The number whose binary digits, least significant first, are the list. -/
def bitsToNat : List Bool → Nat
  | [] => 0
  | b :: bs => b.toNat + 2 * bitsToNat bs

/-- R64, R89: sample k of a read frame is bit k; samples 16 to 19 are dropped. -/
def readBack (samples : List Bool) : Word16 := BitVec.ofNat 16 (bitsToNat (samples.take 16))

/-- R90: the 8-bit amplitude of a raw analog value under a clamp; a free value where the shifted one does not fit
8 bits, which no clamp up to 2047 lets happen (log entry 21). -/
def rescale (clamp raw : Nat) : Amp :=
  let v := min raw clamp >>> Config.rssiShift
  if v ≤ 255 then BitVec.ofNat 8 v else Config.freeRescale clamp raw

/-! ## Filter -/

/-- R91: the process noise in 16 fractional bits. -/
def scaleQ (rawQ : BitVec 16) : Fixed32 := BitVec.ofNat 32 ((rawQ.toNat * 65536 + 5000) / 10000)

/-- R91: the measurement noise in 16 fractional bits. -/
def scaleR (rawR : BitVec 16) : Fixed32 := BitVec.ofNat 32 ((rawR.toNat * 65536 + 50) / 100)

/-- R117: the nearest integer amplitude, an exact half rounding up. -/
def roundEst (est : Estimate) : Amp := BitVec.ofNat 8 ((est.toNat + 0x8000) >>> 16)

/-! ## Frame cells -/

/-- Cells 0 to 3 of every frame: the address, bit 0 first (R80). -/
def addrCells (addr : RegAddr) : List Bool := (List.range 4).map fun i => addr.getLsbD i

/-- Cells 5 to 20 of a frequency write (R82, R134). -/
def payloadCells (p : Config.Params) (value : Word16) : List Bool :=
  (List.range 16).map fun j => if p.payloadMsbFirst then value.getLsbD (15 - j) else value.getLsbD j

/-- The 25 cells of `FRAME.WF` (R82, R134). -/
def wfCells (p : Config.Params) (addr : RegAddr) (value : Word16) : List Bool :=
  addrCells addr ++ [p.writeInd] ++ payloadCells p value ++ List.replicate 4 false

/-- The 25 cells of `FRAME.WP` (R84, R135). -/
def wpCells (p : Config.Params) (mask : PowerMask) : List Bool :=
  addrCells p.powerRegAddr ++ [p.writeInd] ++ (List.range 20).map fun j => mask.getLsbD j

/-- The five driven cells of `FRAME.RD` (R83, R136). -/
def rdCells (p : Config.Params) (addr : RegAddr) : List Bool := addrCells addr ++ [p.readInd]

end Sys2Proof.Machine
end

