-- ==== Sys2Proof/Machine/Flags.lean ====
section
/-! DEFINITION. Conditions: the parameter constraints (`spec/60_exceptions.md` rule R233), the driver's
interval tests and operand classes (`spec/42_receiver_tuning.md` rules R155, R156, `spec/30_encoding.md`
rules R97, R99), the detection policy (`spec/10_state.md` rule R37, `spec/43_lap_engine.md` rules R186 to R191),
and the numeric codes of the named values (rules R28, R236). The block has no condition codes (R35). -/

namespace Sys2Proof.Machine

open Config (Params Inputs Violation)

/-! ## Codes -/

/-- R28. -/
def TimerState.code : TimerState → BitVec 2
  | .stopped => 0#2
  | .waiting => 1#2
  | .running => 2#2

/-- R236. -/
def Channel.code : Channel → BitVec 1
  | .a => 0#1
  | .b => 1#1

/-- R236. -/
def NotifyKind.code : NotifyKind → BitVec 3
  | .start => 0#3
  | .stop => 1#3
  | .lapStart => 2#3
  | .lapFinish => 3#3
  | .calOn => 4#3
  | .calOff => 5#3

/-! ## Driver -/

/-- R87: a frequency that has an encoding. -/
def encodable (f : Word16) : Bool :=
  decide (Config.freqOffset ≤ f.toNat) && decide (f.toNat ≤ Config.freqEncodableMax)

/-- R99: a frequency in the receiver's valid range. -/
def inRange (p : Params) (f : Word16) : Bool := decide (p.freqMin ≤ f) && decide (f ≤ p.freqMax)

/-- R155: `(now - lastWriteMs) mod 2^32`. -/
def elapsed (d : Driver) (now : Millis) : Millis := now - d.lastWriteMs

/-- R156 step 1: the bus-busy interval has elapsed. -/
def busFree (p : Params) (d : Driver) (now : Millis) : Bool := decide (p.tBusBusy ≤ elapsed d now)

/-- R156 step 2: a verification attempt is due. -/
def verifyDue (p : Params) (d : Driver) (now : Millis) : Bool :=
  d.recentlyChanged && decide (p.tTuneSettle ≤ elapsed d now) && (!d.poweredDown || p.verifyWhenDown)

/-- R233 `BadConfig`: the first constraint, in that rule's order, that the parameters violate. -/
def paramsViolation (p : Params) : Option Violation :=
  if p.freqRegAddr = p.powerRegAddr then some .equalRegAddr
  else if p.readInd = p.writeInd then some .equalIndicators
  else if inRange p p.powerDownFreq then some .sentinelInRange
  else if p.freqMin.toNat < Config.freqOffset then some .freqMinTooLow
  else if Config.freqEncodableMax < p.freqMax.toNat then some .freqMaxTooHigh
  else if p.freqMax < p.freqMin then some .emptyRange
  else if p.adcBits < 11 then some .adcTooNarrow
  else if p.verifyWhenDown && !encodable p.powerDownFreq then some .sentinelNotEncodable
  else none

/-! ## Frames (R97) -/

/-- R41, R42, R97: a frame the block itself sends: a write or a read of the frequency register, the value with bits 5
and 6 clear, or one of the two masks. Every other instruction is a request of the command port. -/
def sentByBlock (p : Params) : Instr → Bool
  | .frameWf addr value => addr == p.freqRegAddr && !value.getLsbD 5 && !value.getLsbD 6
  | .frameWp mask => mask == Config.powerMaskDown || mask == p.powerMaskNormal
  | .frameRd addr => addr == p.freqRegAddr
  | .fltInit _ _ => true
  | .fltStep _ => true
  | .rxInit => true
  | .rxSetfreq _ _ => true
  | .rxHousekeep _ _ => true
  | .rxReadrssi => true
  | .rxVerify _ => true
  | .lapStart => true
  | .lapStop => true
  | .lapTick _ => true
  | .lapStep _ _ => true
  | .lapGetrssi => true
  | .lapAvail => true
  | .lapGettime => true
  | .lapSetcb _ => true
  | .calNstart => true
  | .calNstop => true
  | .calXstart => true
  | .calXstop => true

/-! ## Detection policy (log entry 17) -/

/-- R37 bit 0. -/
def exitMode (c : Inputs) : Bool := c.policy.getLsbD 0

/-- R37 bit 1. -/
def guardCapture (c : Inputs) : Bool := c.policy.getLsbD 1

/-- R37 bit 2. -/
def guardConfirm (c : Inputs) : Bool := c.policy.getLsbD 2

/-- R37 bit 3. -/
def waitSeparate (c : Inputs) : Bool := c.policy.getLsbD 3

/-- R188: the `WAITING` copies of the thresholds are in force. -/
def useWait (c : Inputs) (t : TimerState) : Bool := decide (t = .waiting) && waitSeparate c

/-- R188 `enter`. -/
def enterOf (c : Inputs) (t : TimerState) : Amp := if useWait c t then c.enterRssiWait else c.enterRssi

/-- R188 `exitC`. -/
def exitOf (c : Inputs) (t : TimerState) : Amp := if useWait c t then c.exitRssiWait else c.exitRssi

/-- R188 `delta`. -/
def deltaOf (c : Inputs) (t : TimerState) : Amp := if useWait c t then c.minDeltaWait else c.minDelta

/-- R191: a minimum-lap-time guard holds the tick back: it is on, the engine runs, and
`age = (now - lapStart) mod 2^32` is below the minimum lap time. -/
def heldBack (guardOn : Bool) (c : Inputs) (e : Engine) (now : Millis) : Bool :=
  guardOn && decide (e.timerState = .running) && decide (now - e.lapStart < c.minLapMs)

/-- R191 `captureEnabled`. -/
def captureEnabled (c : Inputs) (e : Engine) (now : Millis) : Bool := !heldBack (guardCapture c) c e now

/-- R191 `fall`. -/
def fall (c : Inputs) (e : Engine) (sample : Amp) : Bool :=
  if exitMode c then decide (sample < exitOf c e.timerState)
  else decide (deltaOf c e.timerState ≤ e.cand.peak - sample)

/-- R190, R191 `confirmCrossing`. -/
def confirmCrossing (c : Inputs) (e : Engine) (now : Millis) (sample : Amp) : Bool :=
  decide (sample < e.cand.peak) && fall c e sample && !heldBack (guardConfirm c) c e now

end Sys2Proof.Machine
end

