-- ==== Sys2Proof/Machine/Ops.lean ====
section
/-! DEFINITION. The named operations: element access to the two ring buffers (`spec/20_memory.md`), the bus,
environment and event primitives (`spec/00_scope.md` rule R12), refusals and results.

The block takes no exception and returns from none: it has no trap entry, saves no state and vectors nowhere
(`spec/60_exceptions.md` rules R230, R242, R243). What stands in their place, a refusal, ends the operation with
the state it began from (R233): the outcome `.refused`. -/

namespace Sys2Proof.Machine

/-! ## Memory -/

/-- What an index that is not listed reads as: R51, both buffers are all 0 after reset (log entry 15). -/
def Memory.unlisted (w : Nat) : BitVec w := 0#w

/-- One element (R60, R61: one element is the unit of access). -/
def Memory.read {w : Nat} : Memory w → Nat → BitVec w
  | [], _ => Memory.unlisted w
  | (k, v) :: m, a => if k = a then v else Memory.read m a

/-- Store one element, keeping the canonical form. -/
def Memory.write {w : Nat} : Memory w → Nat → BitVec w → Memory w
  | [], a, v => if v = Memory.unlisted w then [] else [(a, v)]
  | (k, u) :: m, a, v =>
    if a < k then (if v = Memory.unlisted w then (k, u) :: m else (a, v) :: (k, u) :: m)
    else if a = k then (if v = Memory.unlisted w then m else (a, v) :: m)
    else (k, u) :: Memory.write m a v

/-- Canonical from index lo on: indices rise strictly, stay below the capacity, and no element is what an
unlisted index reads as. -/
def Memory.wfFrom {w : Nat} (cap : Nat) : Nat → Memory w → Bool
  | _, [] => true
  | lo, (k, v) :: m => decide (lo ≤ k) && decide (k < cap) && (v != Memory.unlisted w) && Memory.wfFrom cap (k + 1) m

/-- The canonical form of a buffer with the given capacity. -/
def Memory.wf {w : Nat} (cap : Nat) (m : Memory w) : Bool := Memory.wfFrom cap 0 m

/-- `MemRead(SAMPLES, i)` (R11). -/
def readSample (e : Engine) (i : Fin 100) : Amp := Memory.read e.samples i.val

/-- `MemWrite(SAMPLES, i, v)` (R11). -/
def writeSample (i : Fin 100) (v : Amp) (e : Engine) : Engine :=
  { e with samples := Memory.write e.samples i.val v }

/-- `MemRead(LAPS, i)` (R11). -/
def readLap (e : Engine) (i : Fin 50) : Millis := Memory.read e.laps i.val

/-- `MemWrite(LAPS, i, v)` (R11). -/
def writeLap (i : Fin 50) (v : Millis) (e : Engine) : Engine :=
  { e with laps := Memory.write e.laps i.val v }

/-- R65: the sample cursor advanced with wraparound. -/
def nextSample (c : Fin 100) : Fin 100 := Fin.ofNat 100 (c.val + 1)

/-- R65: the slot behind the sample cursor. -/
def lastSample (c : Fin 100) : Fin 100 := Fin.ofNat 100 (c.val + 99)

/-- R65: the lap cursor advanced with wraparound. -/
def nextLap (c : Fin 50) : Fin 50 := Fin.ofNat 50 (c.val + 1)

/-- R65: the slot behind the lap cursor. -/
def lastLap (c : Fin 50) : Fin 50 := Fin.ofNat 50 (c.val + 49)

/-! ## Bus, environment and event primitives (R12) -/

/-- `hold(T)`: timing only (R280). -/
def hold (_t : Nat) (s : State) : State := s

/-- The pin state after a line was driven. -/
def Pins.drive (line : Line) (level : Bool) (p : Pins) : Pins :=
  match line with
  | .data => { p with data := level }
  | .clk => { p with clk := level }
  | .sel => { p with sel := level }

/-- `drive(L, v)`. -/
def drive (line : Line) (level : Bool) (s : State) : State :=
  (s.setPins (s.pins.drive line level)).emit (.pin line level)

/-- `dir(DATA, in)`. -/
def dirIn (s : State) : State := (s.setPins { s.pins with dataDir := .inp }).emit .dataZ

/-- `dir(DATA, out)`. -/
def dirOut (s : State) : State := s.setPins { s.pins with dataDir := .out }

/-- `sample(DATA)`: the next answer of the environment (log entry 4). -/
def sampleData (s : State) : Bool × State :=
  match s.env.data with
  | b :: bs => (b, s.setEnv { s.env with data := bs })
  | [] => (Config.freeLevel s.env.draws, s.setEnv { s.env with draws := s.env.draws + 1 })

/-- `AdcRead()`: the next answer of the environment, `ADC_BITS` wide (log entry 4). -/
def adcRead (s : State) : Nat × State :=
  match s.env.adc with
  | v :: vs => (v % 2 ^ s.params.adcBits, s.setEnv { s.env with adc := vs })
  | [] => (Config.freeAnalog s.env.draws % 2 ^ s.params.adcBits, s.setEnv { s.env with draws := s.env.draws + 1 })

/-- The macro `notify(kind)` of R236: both channels, A first. -/
def notify (kind : NotifyKind) (s : State) : State :=
  (s.emit (.notify .a kind)).emit (.notify .b kind)

/-! ## Results and refusals -/

/-- What an operation answers. -/
abbrev Answer := Host.Outcome State Fault Refusal

/-- Complete an operation with its result in `ret`, 0 where it has none (R92). -/
def complete (ret : BitVec 32) (s : State) : Answer := .next (s.setRet ret)

/-- Complete an operation that may have been refused; a refusal discards every write (R233). -/
def completeOr (r : Except Refusal (BitVec 32 × State)) : Answer :=
  match r with
  | .ok (ret, s) => complete ret s
  | .error e => .refused e

end Sys2Proof.Machine
end

