-- ==== Sys2Proof/Machine/Bus.lean ====
section
/-! DEFINITION. The bit-level bus protocol of the Receiver Driver (`spec/41_receiver_bus.md` rules R131 to R137):
the pin events each sub-operation and each of the three frames appends. -/

namespace Sys2Proof.Machine

/-- R131. -/
def sendBit (b : Bool) (s : State) : State :=
  s |> drive .data b |> hold Config.tBit |> drive .clk true |> hold Config.tBit |> drive .clk false |> hold Config.tBit

/-- R132: the sample is drawn after the data-settle phase, before the rising clock edge. -/
def recvBit (s : State) : Bool × State :=
  let r := sampleData (hold Config.tBit s)
  (r.1, r.2 |> drive .clk true |> hold Config.tBit |> drive .clk false |> hold Config.tBit)

/-- R133. -/
def frameBegin (s : State) : State :=
  s |> drive .sel true |> hold Config.tBit |> drive .sel false |> hold Config.tBit

/-- R133. -/
def frameEnd (s : State) : State := s |> drive .sel true |> hold Config.tBit

/-- The driven cells of a frame, first in time first. -/
def sendBits : List Bool → State → State
  | [], s => s
  | b :: bs, s => sendBits bs (sendBit b s)

/-- The sampled cells of a frame, first in time first. -/
def recvBits : Nat → State → List Bool × State
  | 0, s => ([], s)
  | n + 1, s =>
    let r := recvBit s
    let rs := recvBits n r.2
    (r.1 :: rs.1, rs.2)

/-- R134 `FRAME.WF(addr, value)`. -/
def sendWf (addr : RegAddr) (value : Word16) (s : State) : State :=
  s |> frameBegin |> sendBits (wfCells s.params addr value) |> frameEnd

/-- R135 `FRAME.WP(mask)`. -/
def sendWp (mask : PowerMask) (s : State) : State :=
  s |> frameBegin |> sendBits (wpCells s.params mask) |> frameEnd

/-- R136 `FRAME.RD(addr)`: the value read and the state after the frame. -/
def sendRd (addr : RegAddr) (s : State) : Word16 × State :=
  let r := s |> frameBegin |> sendBits (rdCells s.params addr) |> dirIn |> recvBits 20
  (readBack r.1, r.2 |> dirOut |> drive .data false |> frameEnd)

/-- R137: the bit sequence of a part of the trace: the level on `DATA` at each rising clock edge, a sampled cell shown as
the value sampled. The arguments are the level last driven (none while `DATA` is an input) and the samples still to
be shown. -/
def bitSequence : Option Bool → List Bool → List Event → List Bool
  | _, _, [] => []
  | _, samples, .pin .data v :: es => bitSequence (some v) samples es
  | _, samples, .dataZ :: es => bitSequence none samples es
  | some v, samples, .pin .clk true :: es => v :: bitSequence (some v) samples es
  | none, b :: samples, .pin .clk true :: es => b :: bitSequence none samples es
  | level, samples, _ :: es => bitSequence level samples es

/-- `FRAME.WF(addr, value)` asked of the transport (R134); it has no result. -/
def execFrameWf (addr : RegAddr) (value : Word16) (s : State) : Answer :=
  complete 0#32 (sendWf addr value s)

/-- `FRAME.WP(mask)` asked of the transport (R135); it has no result. -/
def execFrameWp (mask : PowerMask) (s : State) : Answer :=
  complete 0#32 (sendWp mask s)

/-- `FRAME.RD(addr)` asked of the transport (R136); its result is the read-back. -/
def execFrameRd (addr : RegAddr) (s : State) : Answer :=
  complete ((sendRd addr s).1.setWidth 32) (sendRd addr s).2

end Sys2Proof.Machine
end

