-- ==== Sys2Proof/Machine/Calibration.lean ====
section
/-! DEFINITION. The calibration sessions (`spec/44_calibration.md` rules R220 to R224). -/

namespace Sys2Proof.Machine

/-- R221, R223: a session just started, or restarted. -/
def Cal.started : Cal := ⟨true, 0#8, 0#16⟩

/-- R222, R224: a session after a stop; its maximum and count stay. -/
def Cal.ended (c : Cal) : Cal := { c with active := false }

/-- `CAL.NSTART()` (R221). -/
def execCalNstart (s : State) : Answer :=
  complete 0#32 (notify .calOn (s.setEngine { s.engine with noiseCal := Cal.started }))

/-- `CAL.NSTOP()` (R222). -/
def execCalNstop (s : State) : Answer :=
  complete (s.engine.noiseCal.max.setWidth 32)
    (notify .calOff (s.setEngine { s.engine with noiseCal := s.engine.noiseCal.ended }))

/-- `CAL.XSTART()` (R223). -/
def execCalXstart (s : State) : Answer :=
  complete 0#32 (notify .calOn (s.setEngine { s.engine with crossCal := Cal.started }))

/-- `CAL.XSTOP()` (R224). -/
def execCalXstop (s : State) : Answer :=
  complete (s.engine.crossCal.max.setWidth 32)
    (notify .calOff (s.setEngine { s.engine with crossCal := s.engine.crossCal.ended }))

end Sys2Proof.Machine
end

