-- ==== Sys2Proof/Machine/SignalFilter.lean ====
section
/-! DEFINITION. The Signal Filter (`spec/40_signal_filter.md` rules R110 to R117). -/

namespace Sys2Proof.Machine

/-! ## The default instance of the filter step (R114)

All intermediate values are exact integers; a quotient by 0 cannot arise once the filter has been
initialised (R112: `Rc ≥ 1`). -/

/-- `S`, the predicted uncertainty. -/
def predicted (qc p : Fixed32) : Nat := p.toNat + qc.toNat

/-- `K`, the gain, in 16 fractional bits, truncated. -/
def gain (qc rc p : Fixed32) : Nat := (predicted qc p) <<< 16 / (predicted qc p + rc.toNat)

/-- `P'`, truncated. -/
def nextUncertainty (qc rc p : Fixed32) : Nat := rc.toNat * predicted qc p / (predicted qc p + rc.toNat)

/-- `X'`: the arithmetic shift of the signed product is the floor of its quotient by 65536. -/
def nextEstimate (qc rc : Fixed32) (x : Estimate) (p : Fixed32) (m : Amp) : Int :=
  (x.toNat : Int) + Int.fdiv ((((m.toNat * 65536 : Nat) : Int) - (x.toNat : Int)) * (gain qc rc p : Int)) 65536

/-- R114. -/
def fixedStep (qc rc : Fixed32) (x : Estimate) (p : Fixed32) (m : Amp) : Estimate × Fixed32 :=
  (BitVec.ofInt 24 (nextEstimate qc rc x p m), BitVec.ofNat 32 (nextUncertainty qc rc p))

/-- R113: a step of which only R110 is assumed, its estimate held to what rounds to at most 255. -/
def openStep (qc rc : Fixed32) (x : Estimate) (p : Fixed32) (m : Amp) : Estimate × Fixed32 :=
  let r := Config.freeFltStep qc rc x p m
  (if r.1 < 0xFF8000#24 then r.1 else 0xFF7FFF#24, r.2)

/-- R113 `fltStep`: the step the parameters name. -/
def filterStep (n : Config.Numerics) (qc rc : Fixed32) (x : Estimate) (p : Fixed32) (m : Amp) : Estimate × Fixed32 :=
  match n with
  | .fixedPoint => fixedStep qc rc x p m
  | .open_ => openStep qc rc x p m

/-! ## Sub-operations -/

/-- The filter after `FLT.INIT` (R112). -/
def initialised (rawQ rawR : BitVec 16) : Filter where
  x := Config.x0
  p := Config.p0
  qc := scaleQ rawQ
  rc := scaleR rawR
  fltInit := true

/-- One filter update (R114): the new estimate and the state after it. -/
def filterUpdate (m : Amp) (s : State) : Except Refusal (Estimate × State) :=
  if s.filter.fltInit = false then .error (.notInitialised .flt)
  else
    let r := filterStep s.params.numerics s.filter.qc s.filter.rc s.filter.x s.filter.p m
    .ok (r.1, s.setFilter { s.filter with x := r.1, p := r.2 })

/-! ## Meanings -/

/-- `FLT.INIT(rawQ, rawR)` (R112). -/
def execFltInit (rawQ rawR : BitVec 16) (s : State) : Answer :=
  if rawR = 0#16 then .refused (.badCoefficient rawR)
  else complete 0#32 (s.setFilter (initialised rawQ rawR))

/-- `FLT.STEP(m)` (R114): the result is the unrounded estimate. -/
def execFltStep (m : Amp) (s : State) : Answer :=
  completeOr ((filterUpdate m s).map fun r => (r.1.setWidth 32, r.2))

end Sys2Proof.Machine
end

