-- ==== Sys2Proof/Machine/Tuning.lean ====
section
/-! DEFINITION. Frequency tuning, power control and the amplitude read of the Receiver Driver
(`spec/42_receiver_tuning.md` rules R150 to R161). -/

namespace Sys2Proof.Machine

/-! ## Sub-operations -/

/-- The lines brought to rest, the first line of R151. -/
def restLines (s : State) : State :=
  s |> drive .sel true |> drive .clk false |> dirOut |> drive .data false

/-- R152 (b): the power-down path. -/
def powerDownPath (now : Millis) (f : Word16) (s : State) : State :=
  let s1 := sendWp Config.powerMaskDown s
  s1.setDriver { s1.driver with poweredDown := true, curFreq := f, lastWriteMs := now }

/-- R154. -/
def wake (s : State) : State :=
  let s1 := s |> sendWp s.params.powerMaskNormal |> hold s.params.tWakeSettle
  s1.setDriver { s1.driver with poweredDown := false }

/-- R153. -/
def tuningPath (now : Millis) (f : Word16) (s : State) : State :=
  let s1 := if s.driver.poweredDown then wake s else s
  let s2 := sendWf s1.params.freqRegAddr (encodeFreq f) s1
  s2.setDriver { s2.driver with curFreq := f, recentlyChanged := true, lastWriteMs := now }

/-- R152: the dispatch of `RX.SETFREQ`, operand classes in the order of R99. -/
def setFreq (now : Millis) (f : Word16) (s : State) : Except Refusal State :=
  if s.driver.rxInit = false then .error (.notInitialised .rx)
  else if f = s.driver.curFreq then .ok s
  else if f = s.params.powerDownFreq then .ok (powerDownPath now f s)
  else if inRange s.params f = false then .error (.freqOutOfRange f)
  else .ok (tuningPath now f s)

/-- One attempt of R158, the current frequency having an encoding. -/
def verifyAttempt (now : Millis) (s : State) : Bool × State :=
  let r := sendRd s.params.freqRegAddr s
  let ok := decide (r.1 = encodeFreq s.driver.curFreq)
  (ok, r.2.setDriver
    { r.2.driver with
      lastWriteMs := now
      recentlyChanged := if ok then false else r.2.driver.recentlyChanged })

/-- R158. -/
def verify (now : Millis) (s : State) : Except Refusal (Bool × State) :=
  if s.driver.rxInit = false then .error (.notInitialised .rx)
  else if encodable s.driver.curFreq = false then .error (.noFrequency s.driver.curFreq)
  else .ok (verifyAttempt now s)

/-- Step 1 of R156. -/
def housekeepCommit (now : Millis) (f : Word16) (s : State) : Except Refusal State :=
  if f ≠ s.driver.curFreq ∧ busFree s.params s.driver now = true then setFreq now f s else .ok s

/-- Step 2 of R156, on the state step 1 left. -/
def housekeepVerify (now : Millis) (s : State) : Except Refusal State :=
  if verifyDue s.params s.driver now = true then (verify now s).map Prod.snd else .ok s

/-- R156. -/
def housekeep (now : Millis) (f : Word16) (s : State) : Except Refusal State :=
  if s.driver.rxInit = false then .error (.notInitialised .rx)
  else if f ≠ s.driver.curFreq ∧ f ≠ s.params.powerDownFreq ∧ inRange s.params f = false then
    .error (.freqOutOfRange f)
  else (housekeepCommit now f s).bind (housekeepVerify now)

/-- R161. -/
def readRssi (s : State) : Except Refusal (Amp × State) :=
  if s.driver.rxInit = false then .error (.notInitialised .rx)
  else if s.driver.recentlyChanged = true then .ok (0#8, s)
  else .ok (rescale s.params.rssiClampMax (adcRead s).1, (adcRead s).2)

/-! ## Meanings -/

/-- `RX.INIT()` (R151). -/
def execRxInit (s : State) : Answer :=
  let s1 := s |> restLines |> sendWp s.params.powerMaskNormal
  complete 0#32 (s1.setDriver ⟨0#16, 0#32, false, false, true⟩)

/-- `RX.SETFREQ(now, F)` (R152, R153). -/
def execRxSetfreq (now : Millis) (f : Word16) (s : State) : Answer :=
  completeOr ((setFreq now f s).map fun s1 => (0#32, s1))

/-- `RX.HOUSEKEEP(now, F)` (R156). -/
def execRxHousekeep (now : Millis) (f : Word16) (s : State) : Answer :=
  completeOr ((housekeep now f s).map fun s1 => (0#32, s1))

/-- `RX.READRSSI()` (R161). -/
def execRxReadrssi (s : State) : Answer :=
  completeOr ((readRssi s).map fun r => (r.1.setWidth 32, r.2))

/-- `RX.VERIFY(now)` (R158). -/
def execRxVerify (now : Millis) (s : State) : Answer :=
  completeOr ((verify now s).map fun r => (if r.1 then 1#32 else 0#32, r.2))

end Sys2Proof.Machine
end

