-- ==== Sys2Proof/Machine/LapEngine.lean ====
section
/-! DEFINITION. The Lap Detection Engine (`spec/43_lap_engine.md` rules R180 to R200). -/

namespace Sys2Proof.Machine

/-! ## Sub-operations -/

/-- R183. -/
def engineReset (e : Engine) : Engine :=
  { e with
    samples := []
    sampleCursor := 0
    laps := []
    lapCursor := 0
    lapAvailable := false
    cand := Candidate.empty
    lapStart := 0#32 }

/-- R185. -/
def calUpdate (sample : Amp) (c : Cal) : Cal :=
  { c with
    count := if c.count = Config.calCountMax then c.count else c.count + 1#16
    max := if c.max < sample then sample else c.max }

/-- Tick steps 2 and 3 (R189): each active session sees the sample. -/
def calSteps (sample : Amp) (e : Engine) : Engine :=
  { e with
    noiseCal := if e.noiseCal.active then calUpdate sample e.noiseCal else e.noiseCal
    crossCal := if e.crossCal.active then calUpdate sample e.crossCal else e.crossCal }

/-- R187, with the thresholds in force of R188. -/
def peakCapture (c : Config.Inputs) (now : Millis) (sample : Amp) (e : Engine) : Engine :=
  if enterOf c e.timerState ≤ sample ∧ e.cand.peak < sample then { e with cand := ⟨sample, now⟩ } else e

/-- R192. -/
def startLap (s : State) : State :=
  notify .lapStart (s.setEngine { s.engine with lapStart := s.engine.cand.ts, cand := Candidate.empty })

/-- R193: the duration of the lap that finishes. -/
def lapDuration (e : Engine) : Millis := e.cand.ts - e.lapStart

/-- R193: the state writes of a lap finish. -/
def recordLap (e : Engine) : Engine :=
  { writeLap e.lapCursor (lapDuration e) e with
    lapCursor := nextLap e.lapCursor
    lapAvailable := true }

/-- R193. -/
def finishLap (s : State) : State :=
  let d := lapDuration s.engine
  let s1 := notify .lapFinish (s.setEngine (recordLap s.engine))
  if s.engine.cbRegistered then s1.emit (.lapCompleted d) else s1

/-- R194. -/
def waitingStep (now : Millis) (sample : Amp) (s : State) : State :=
  let s1 := s.setEngine (peakCapture s.cfg now sample s.engine)
  if confirmCrossing s1.cfg s1.engine now sample then
    startLap (s1.setEngine { s1.engine with timerState := .running })
  else s1

/-- R195. -/
def runningStep (now : Millis) (sample : Amp) (s : State) : State :=
  let s1 :=
    if captureEnabled s.cfg s.engine now then s.setEngine (peakCapture s.cfg now sample s.engine) else s
  if confirmCrossing s1.cfg s1.engine now sample then startLap (finishLap s1) else s1

/-- Step 4 of R189; in `STOPPED` nothing is done (R196). -/
def dispatchStep (now : Millis) (sample : Amp) (s : State) : State :=
  match s.engine.timerState with
  | .stopped => s
  | .waiting => waitingStep now sample s
  | .running => runningStep now sample s

/-- Steps 1 to 3 of R189: the store and the calibration bookkeeping. -/
def storeSample (sample : Amp) (e : Engine) : Engine :=
  calSteps sample (writeSample e.sampleCursor sample e)

/-- Step 5 of R189. -/
def advanceCursor (e : Engine) : Engine := { e with sampleCursor := nextSample e.sampleCursor }

/-- R189: per-tick processing from the store on. -/
def lapStepOp (now : Millis) (sample : Amp) (s : State) : State :=
  let s1 := dispatchStep now sample (s.setEngine (storeSample sample s.engine))
  s1.setEngine (advanceCursor s1.engine)

/-- R184: the amplitude read, the filter, the rounding and the step, the components tested in that rule's
order. -/
def lapTickOp (now : Millis) (s : State) : Except Refusal State :=
  if s.driver.rxInit = false then .error (.notInitialised .rx)
  else if s.filter.fltInit = false then .error (.notInitialised .flt)
  else
    (readRssi s).bind fun r =>
      (filterUpdate r.1 r.2).map fun u => lapStepOp now (roundEst u.1) u.2

/-! ## Meanings -/

/-- `LAP.START()` (R181). -/
def execLapStart (s : State) : Answer :=
  complete 0#32 (notify .start (s.setEngine { engineReset s.engine with timerState := .waiting }))

/-- R182: the two sessions as `LAP.STOP` leaves them. -/
def discardCal (clears : Bool) (e : Engine) : Engine :=
  if clears then { e with noiseCal := Cal.cleared, crossCal := Cal.cleared } else e

/-- `LAP.STOP()` (R182). -/
def execLapStop (s : State) : Answer :=
  complete 0#32
    (notify .stop
      (s.setEngine { discardCal s.params.stopClearsCal (engineReset s.engine) with timerState := .stopped }))

/-- `LAP.TICK(now)` (R184). -/
def execLapTick (now : Millis) (s : State) : Answer :=
  completeOr ((lapTickOp now s).map fun s1 => (0#32, s1))

/-- `LAP.STEP(now, sample)` (R189). -/
def execLapStep (now : Millis) (sample : Amp) (s : State) : Answer :=
  complete 0#32 (lapStepOp now sample s)

/-- `LAP.GETRSSI()` (R197). -/
def execLapGetrssi (s : State) : Answer :=
  complete ((readSample s.engine (lastSample s.engine.sampleCursor)).setWidth 32) s

/-- `LAP.AVAIL()` (R198). -/
def execLapAvail (s : State) : Answer :=
  complete (if s.engine.lapAvailable then 1#32 else 0#32) s

/-- `LAP.GETTIME()` (R199). -/
def execLapGettime (s : State) : Answer :=
  complete (readLap s.engine (lastLap s.engine.lapCursor)) (s.setEngine { s.engine with lapAvailable := false })

/-- `LAP.SETCB(en)` (R200). -/
def execLapSetcb (en : Bool) (s : State) : Answer :=
  complete 0#32 (s.setEngine { s.engine with cbRegistered := en })

end Sys2Proof.Machine
end

