-- ==== Sys2Proof/Machine/Dispatch.lean ====
section
/-! DEFINITION. The meaning of every instruction: one arm per constructor (`spec/30_encoding.md` rules R80, R93). -/

namespace Sys2Proof.Machine

def exec (i : Instr) (s : State) : Host.Outcome State Fault Refusal :=
  match i with
  | .fltInit rawQ rawR => Sys2Proof.Machine.execFltInit rawQ rawR s
  | .fltStep m => Sys2Proof.Machine.execFltStep m s
  | .rxInit => Sys2Proof.Machine.execRxInit s
  | .rxSetfreq now f => Sys2Proof.Machine.execRxSetfreq now f s
  | .rxHousekeep now f => Sys2Proof.Machine.execRxHousekeep now f s
  | .rxReadrssi => Sys2Proof.Machine.execRxReadrssi s
  | .rxVerify now => Sys2Proof.Machine.execRxVerify now s
  | .lapStart => Sys2Proof.Machine.execLapStart s
  | .lapStop => Sys2Proof.Machine.execLapStop s
  | .lapTick now => Sys2Proof.Machine.execLapTick now s
  | .lapStep now sample => Sys2Proof.Machine.execLapStep now sample s
  | .lapGetrssi => Sys2Proof.Machine.execLapGetrssi s
  | .lapAvail => Sys2Proof.Machine.execLapAvail s
  | .lapGettime => Sys2Proof.Machine.execLapGettime s
  | .lapSetcb en => Sys2Proof.Machine.execLapSetcb en s
  | .calNstart => Sys2Proof.Machine.execCalNstart s
  | .calNstop => Sys2Proof.Machine.execCalNstop s
  | .calXstart => Sys2Proof.Machine.execCalXstart s
  | .calXstop => Sys2Proof.Machine.execCalXstop s
  | .frameWf addr value => Sys2Proof.Machine.execFrameWf addr value s
  | .frameWp mask => Sys2Proof.Machine.execFrameWp mask s
  | .frameRd addr => Sys2Proof.Machine.execFrameRd addr s

end Sys2Proof.Machine
end

