-- ==== Sys2Proof/Machine/Port.lean ====
section
/-! DEFINITION. What the block serves next (`spec/20_memory.md` rules R72, R77; `spec/60_exceptions.md` rules R233,
R234, R241; `spec/70_reset_and_hazards.md` rules R260 to R262). There is no instruction fetch (R28): operations
arrive on the port, in the one order in which the two callers' requests are serialised. -/

namespace Sys2Proof.Machine

/-- What a step finds at the port. -/
inductive Service where
  /-- R261: nothing is requested; the block is idle. -/
  | idle
  /-- The configuration inputs changed, or the reset input was taken: the state after it. -/
  | moved (s : State)
  /-- The request is refused before any operation begins. -/
  | turnedAway (r : Refusal)
  /-- The operation to run, and the state to run it in: the request taken off the port. -/
  | run (i : Instr) (s : State)

/-- R260 to R262: the reset input, taken between operations. The parameters, the configuration inputs, the
environment and what has arrived behind it are not the block's and stay (log entry 18). -/
def takeReset (rest : List Arrival) (s : State) : State :=
  { State.reset with params := s.params, cfg := s.cfg, env := s.env, arrivals := rest }

/-- The decoder's error as the refusal it raises (R96, R98). -/
def refusalOf : DecodeError → Refusal
  | .reservedCommand cmd => .reservedCommand cmd
  | .malformedFrame w => .malformedFrame w

/-- A request taken off the port, in the order of R234: the decoder's refusal and that of a frame the block never
sends before anything else (log entries 7, 16). -/
def serveRequest (w : PortWord) (early : Bool) (rest : List Arrival) (s : State) : Service :=
  match decode s.params w with
  | .error e => .turnedAway (refusalOf e)
  | .ok i =>
    if sentByBlock s.params i = false then .turnedAway (.frameNeverSent i)
    else if early then .turnedAway .reentrant
    else .run i (s.setArrivals rest)

/-- What the block serves next; a violated parameter constraint is refused before any operation (R233, log entry 16). -/
def service (s : State) : Service :=
  match paramsViolation s.params with
  | some v => .turnedAway (.badConfig v)
  | none =>
    match s.arrivals with
    | [] => .idle
    | .reset :: rest => .moved (takeReset rest s)
    | .inputs c :: rest => .moved ((s.setInputs c).setArrivals rest)
    | .request w early :: rest => serveRequest w early rest s

end Sys2Proof.Machine
end

