-- ==== Sys2Proof/Machine/Step.lean ====
section
/-! DEFINITION. One step: one whole operation, atomic (`spec/20_memory.md` rule R72), or one event of the outside
between two operations. -/

namespace Sys2Proof.Machine

/-- One step of the block (log entries 6 and 20). -/
def step (s : State) : Host.Outcome State Fault Refusal :=
  match service s with
  | .idle => .next s
  | .moved s1 => .next s1
  | .turnedAway r => .refused r
  | .run i s1 => exec i s1

/-- The state with one more request, ahead of all that has arrived: the next step serves it (log entry 6). -/
def State.withFetchWord (s : State) (nbits w : Nat) : State :=
  s.setArrivals (.request (tableWord nbits w) false :: s.arrivals)

end Sys2Proof.Machine
end

