-- ==== Sys2Proof/WellFormed.lean ====
section
/-! DEFINITION. Which instructions have an encoding of their own. Operand widths are in the types; the
one further check concerns the two write frames, which differ on the wire by their address alone
(`spec/30_encoding.md` rules R82, R84). -/

namespace Sys2Proof

/-- A `FRAME.WF` addressed to the power-control register is, cell for cell, a `FRAME.WP`; every other
instruction has an encoding of its own. -/
def Instr.wellFormed (p : Config.Params) : Instr → Bool
  | .fltInit _ _ => true
  | .fltStep _ => true
  | .rxInit => true
  | .rxSetfreq _ _ => true
  | .rxHousekeep _ _ => true
  | .rxReadrssi => true
  | .rxVerify _ => true
  | .lapStart => true
  | .lapStop => true
  | .lapTick _ => true
  | .lapStep _ _ => true
  | .lapGetrssi => true
  | .lapAvail => true
  | .lapGettime => true
  | .lapSetcb _ => true
  | .calNstart => true
  | .calNstop => true
  | .calXstart => true
  | .calXstop => true
  | .frameWf addr _ => addr != p.powerRegAddr
  | .frameWp _ => true
  | .frameRd _ => true

end Sys2Proof
end

