-- ==== Sys2Proof/Laws/PerInstr.lean ====
section
/-! SUPPORT. Decoding what the encoder writes gives the instruction back: one lemma per instruction. -/

namespace Sys2Proof.Laws

/-! ## Fields of a concatenation -/

/-- A field above the low part is a field of the high part. -/
theorem extract_above {m n : Nat} (x : BitVec m) (y : BitVec n) (k l : Nat) :
    (x ++ y).extractLsb' (n + k) l = x.extractLsb' k l := by
  apply BitVec.eq_of_getLsbD_eq
  intro i hi
  have h1 : ¬ n + k + i < n := by omega
  have h2 : n + k + i - n = k + i := by omega
  simp [BitVec.getLsbD_append, h1, h2]

/-- The low part of a concatenation. -/
theorem extract_low {m n : Nat} (x : BitVec m) (y : BitVec n) : (x ++ y).extractLsb' 0 n = y := by
  apply BitVec.eq_of_getLsbD_eq
  intro i hi
  simp [BitVec.getLsbD_append, hi]

/-- The whole of a vector as a field of it. -/
theorem extract_all {n : Nat} (x : BitVec n) : x.extractLsb' 0 n = x := by
  apply BitVec.eq_of_getLsbD_eq
  intro i hi
  simp [hi]

/-- The low part of a vector widened with zeros. -/
theorem extract_setWidth {n w : Nat} (h : n ≤ w) (x : BitVec n) : (x.setWidth w).extractLsb' 0 n = x := by
  apply BitVec.eq_of_getLsbD_eq
  intro i hi
  have : i < w := by omega
  simp [hi, this]

/-! ## The fields of an assembled request word -/

theorem cmdField_reqWord (c : BitVec 5) (now : Millis) (arg : BitVec 32) : cmdField (reqWord c now arg) = c :=
  ((extract_above (c ++ now) arg 32 5).trans (extract_above c now 0 5)).trans (extract_all c)

theorem nowField_reqWord (c : BitVec 5) (now : Millis) (arg : BitVec 32) : nowField (reqWord c now arg) = now :=
  (extract_above (c ++ now) arg 0 32).trans (extract_low c now)

theorem argField_reqWord (c : BitVec 5) (now : Millis) (arg : BitVec 32) : argField (reqWord c now arg) = arg :=
  extract_low (c ++ now) arg

theorem argLow16_reqWord (c : BitVec 5) (now : Millis) (f : Word16) :
    argLow16 (reqWord c now (f.setWidth 32)) = f := by
  rw [argLow16, argField_reqWord, extract_setWidth (by decide)]

theorem argAmp_reqWord (c : BitVec 5) (now : Millis) (m : Amp) : argAmp (reqWord c now (m.setWidth 32)) = m := by
  rw [argAmp, argField_reqWord, extract_setWidth (by decide)]

theorem argLow16_append (c : BitVec 5) (now : Millis) (q r : BitVec 16) :
    argLow16 (reqWord c now (r ++ q)) = q := by
  rw [argLow16, argField_reqWord]
  exact extract_low r q

theorem argHigh16_append (c : BitVec 5) (now : Millis) (q r : BitVec 16) :
    argHigh16 (reqWord c now (r ++ q)) = r := by
  rw [argHigh16, argField_reqWord]
  exact (extract_above r q 0 16).trans (extract_all r)

theorem argEn_reqWord (c : BitVec 5) (now : Millis) (en : Bool) :
    argEn (reqWord c now ((BitVec.ofBool en).setWidth 32)) = en := by
  rw [argEn, argField_reqWord]
  cases en <;> rfl

/-! ## The fields of an assembled frame word -/

variable (a : BitVec 4) (b : Bool)

theorem frameAddr_append (body : BitVec 20) :
    frameAddr (a.reverse ++ BitVec.ofBool b ++ body : BitVec (4 + 1 + 20)) = a := by
  have h : (a.reverse ++ BitVec.ofBool b ++ body : BitVec (4 + 1 + 20)).extractLsb' 21 4 = a.reverse :=
    ((extract_above (a.reverse ++ BitVec.ofBool b) body 1 4).trans
      (extract_above a.reverse (BitVec.ofBool b) 0 4)).trans (extract_all _)
  exact (congrArg BitVec.reverse h).trans (BitVec.reverse_reverse_eq)

theorem frameInd_append (body : BitVec 20) :
    frameInd (a.reverse ++ BitVec.ofBool b ++ body : BitVec (4 + 1 + 20)) = b := by
  have h : (a.reverse ++ BitVec.ofBool b ++ body : BitVec (4 + 1 + 20)).getLsbD 20 = b := by
    rw [BitVec.getLsbD_append, BitVec.getLsbD_append]
    cases b <;> rfl
  exact h

theorem body_append (body : BitVec 20) :
    (a.reverse ++ BitVec.ofBool b ++ body : BitVec (4 + 1 + 20)).extractLsb' 0 20 = body :=
  extract_low (a.reverse ++ BitVec.ofBool b) body

theorem payload_append (pre : BitVec 5) (v : BitVec 16) :
    (pre ++ v ++ 0#4 : BitVec (5 + 16 + 4)).extractLsb' 4 16 = v :=
  (extract_above (pre ++ v) 0#4 0 16).trans (extract_low pre v)

theorem pad_append (pre : BitVec 5) (v : BitVec 16) :
    (pre ++ v ++ 0#4 : BitVec (5 + 16 + 4)).extractLsb' 0 4 = 0#4 :=
  extract_low (pre ++ v) 0#4

/-- The cells of a frequency write as a header and 20 body cells. -/
theorem wfWord_split (pre : BitVec 5) (v : BitVec 16) :
    (pre ++ v ++ 0#4 : BitVec (5 + 16 + 4)) = (pre ++ (v ++ 0#4 : BitVec (16 + 4)) : BitVec (5 + (16 + 4))) := by
  apply BitVec.eq_of_getLsbD_eq
  intro i hi
  simp only [BitVec.getLsbD_append]
  by_cases h1 : i < 4
  · have h2 : i < 16 + 4 := by omega
    simp [h1, h2]
  · by_cases h2 : i < 16 + 4
    · have h3 : i - 4 < 16 := by omega
      simp [h1, h2, h3]
    · have h3 : ¬ i - 4 < 16 := by omega
      have h4 : i - 4 - 16 = i - (16 + 4) := by omega
      simp [h1, h2, h3, h4]

/-! ## The family -/

/-- Decoding the encoding of i gives i, under every parameter set whose indicator bits differ. -/
def DecodeEncode.Statement (i : Instr) : Prop :=
  ∀ p : Config.Params, p.readInd ≠ p.writeInd → i.wellFormed p = true → decode p (encode p i) = .ok i

namespace DecodeEncode

theorem fltInit (rawQ rawR : BitVec 16) : Statement (.fltInit rawQ rawR) := by
  intro p _ _
  simp [decode, encode, decodeCmd, cmdField_reqWord, argLow16_append, argHigh16_append]

theorem fltStep (m : Amp) : Statement (.fltStep m) := by
  intro p _ _
  simp [decode, encode, decodeCmd, cmdField_reqWord, argAmp_reqWord]

theorem rxInit : Statement .rxInit := by
  intro p _ _
  simp [decode, encode, decodeCmd, cmdField_reqWord]

theorem rxSetfreq (now : Millis) (f : Word16) : Statement (.rxSetfreq now f) := by
  intro p _ _
  simp [decode, encode, decodeCmd, cmdField_reqWord, nowField_reqWord, argLow16_reqWord]

theorem rxHousekeep (now : Millis) (f : Word16) : Statement (.rxHousekeep now f) := by
  intro p _ _
  simp [decode, encode, decodeCmd, cmdField_reqWord, nowField_reqWord, argLow16_reqWord]

theorem rxReadrssi : Statement .rxReadrssi := by
  intro p _ _
  simp [decode, encode, decodeCmd, cmdField_reqWord]

theorem rxVerify (now : Millis) : Statement (.rxVerify now) := by
  intro p _ _
  simp [decode, encode, decodeCmd, cmdField_reqWord, nowField_reqWord]

theorem lapStart : Statement .lapStart := by
  intro p _ _
  simp [decode, encode, decodeCmd, cmdField_reqWord]

theorem lapStop : Statement .lapStop := by
  intro p _ _
  simp [decode, encode, decodeCmd, cmdField_reqWord]

theorem lapTick (now : Millis) : Statement (.lapTick now) := by
  intro p _ _
  simp [decode, encode, decodeCmd, cmdField_reqWord, nowField_reqWord]

theorem lapStep (now : Millis) (sample : Amp) : Statement (.lapStep now sample) := by
  intro p _ _
  simp [decode, encode, decodeCmd, cmdField_reqWord, nowField_reqWord, argAmp_reqWord]

theorem lapGetrssi : Statement .lapGetrssi := by
  intro p _ _
  simp [decode, encode, decodeCmd, cmdField_reqWord]

theorem lapAvail : Statement .lapAvail := by
  intro p _ _
  simp [decode, encode, decodeCmd, cmdField_reqWord]

theorem lapGettime : Statement .lapGettime := by
  intro p _ _
  simp [decode, encode, decodeCmd, cmdField_reqWord]

theorem lapSetcb (en : Bool) : Statement (.lapSetcb en) := by
  intro p _ _
  simp [decode, encode, decodeCmd, cmdField_reqWord, argEn_reqWord]

theorem calNstart : Statement .calNstart := by
  intro p _ _
  simp [decode, encode, decodeCmd, cmdField_reqWord]

theorem calNstop : Statement .calNstop := by
  intro p _ _
  simp [decode, encode, decodeCmd, cmdField_reqWord]

theorem calXstart : Statement .calXstart := by
  intro p _ _
  simp [decode, encode, decodeCmd, cmdField_reqWord]

theorem calXstop : Statement .calXstop := by
  intro p _ _
  simp [decode, encode, decodeCmd, cmdField_reqWord]

theorem frameWf (addr : RegAddr) (value : Word16) : Statement (.frameWf addr value) := by
  intro p hp hw
  have ha : addr ≠ p.powerRegAddr := by simpa [Instr.wellFormed] using hw
  have hi : p.writeInd ≠ p.readInd := Ne.symm hp
  simp only [decode, encode, decodeFrame]
  have e1 : frameInd (wfWord p addr value) = p.writeInd := by
    rw [wfWord, wfWord_split]; exact frameInd_append addr p.writeInd _
  have e2 : frameAddr (wfWord p addr value) = addr := by
    rw [wfWord, wfWord_split]; exact frameAddr_append addr p.writeInd _
  have e3 : framePad (wfWord p addr value) = 0#4 := pad_append _ _
  have e4 : framePayload p (wfWord p addr value) = value := by
    have : (wfWord p addr value).extractLsb' 4 16 = if p.payloadMsbFirst then value else value.reverse :=
      payload_append _ _
    rw [framePayload, this]
    cases p.payloadMsbFirst <;> simp
  rw [e1, e2, e3, e4, if_neg hi, if_neg ha, if_pos rfl]

theorem frameWp (mask : PowerMask) : Statement (.frameWp mask) := by
  intro p hp _
  have hi : p.writeInd ≠ p.readInd := Ne.symm hp
  simp only [decode, encode, decodeFrame]
  have e1 : frameInd (wpWord p mask) = p.writeInd := frameInd_append p.powerRegAddr p.writeInd _
  have e2 : frameAddr (wpWord p mask) = p.powerRegAddr := frameAddr_append p.powerRegAddr p.writeInd _
  have e3 : frameMask (wpWord p mask) = mask := by
    rw [frameMask]
    exact (congrArg BitVec.reverse (body_append p.powerRegAddr p.writeInd mask.reverse)).trans (BitVec.reverse_reverse_eq)
  rw [e1, e2, e3, if_neg hi, if_pos rfl]

theorem frameRd (addr : RegAddr) : Statement (.frameRd addr) := by
  intro p _ _
  simp only [decode, encode, decodeFrame]
  have e1 : frameInd (rdWord p addr) = p.readInd := frameInd_append addr p.readInd _
  have e2 : frameAddr (rdWord p addr) = addr := frameAddr_append addr p.readInd _
  rw [e1, e2, if_pos rfl]

end DecodeEncode

end Sys2Proof.Laws
end

