-- ==== Sys2Proof/Machine/RxRef.lean ====
section
/-! DEFINITION. The reference receiver `RxRef` and its variant `RxRef(fail = n)` (`spec/41_receiver_bus.md` rules
R140, R141): an environment for simulation and claims, not part of the block (log entry 14). It observes pin events and
answers the samples of a read frame as the frame goes on. -/

namespace Sys2Proof.Machine

/-- The reference receiver: its registers, how many read frames it will still answer wrongly, the levels it
last saw, whether the block has let go of `DATA`, and the cells shifted in since the select line fell, first in
time first. -/
structure RxRef where
  regs : Memory 20
  fail : Nat
  sel : Bool
  clk : Bool
  data : Bool
  input : Bool
  cells : List Bool
deriving DecidableEq, Repr

/-- The address in cells 0 to 3, bit 0 first. -/
def cellsAddr (cells : List Bool) : Nat := bitsToNat (cells.take 4)

/-- R140: the data bits D0 to D19 that cells 5 to 24 of a write frame carry. A frequency payload sent most
significant bit first arrives as D15 down to D0; every other field arrives in order. -/
def cellsData (p : Config.Params) (cells : List Bool) : List Bool :=
  let body := cells.drop 5
  if p.payloadMsbFirst && cellsAddr cells != p.powerRegAddr.toNat then (body.take 16).reverse ++ body.drop 16 else body

/-- R140, R141: the level it puts on `DATA`: in cell 5 + k of a read frame, data bit k of the register that cells 0
to 3 address, complemented while failures remain. Elsewhere it gives none. -/
def RxRef.answer (p : Config.Params) (r : RxRef) : Option Bool :=
  if r.sel = false ∧ 5 ≤ r.cells.length ∧ r.cells.length < 25 ∧ r.cells[4]? = some p.readInd then
    some ((Memory.read r.regs (cellsAddr r.cells)).getLsbD (r.cells.length - 5) != decide (0 < r.fail))
  else none

/-- The level `DATA` has: what the block drives, or what the receiver answers once the block has let go. -/
def RxRef.level (p : Config.Params) (r : RxRef) : Bool := if r.input then (r.answer p).getD r.data else r.data

/-- The frame that ends when the select line rises: a write is stored, a read uses up one failure. -/
def RxRef.endFrame (p : Config.Params) (r : RxRef) : RxRef :=
  if r.cells.length = 25 then
    if r.cells[4]? = some p.writeInd then
      { r with
        regs := Memory.write r.regs (cellsAddr r.cells) (BitVec.ofNat 20 (bitsToNat (cellsData p r.cells)))
        cells := [] }
    else { r with fail := r.fail - 1, cells := [] }
  else { r with cells := [] }

/-- R140: one event of the output trace seen by the receiver; the `DATA` level is shifted in at each rising
`CLK` edge while `SEL` is low. -/
def RxRef.observe (p : Config.Params) (r : RxRef) : Event → RxRef
  | .pin .data level => { r with data := level, input := false }
  | .pin .clk level =>
    if level && !r.clk && !r.sel then { r with clk := level, cells := r.cells ++ [r.level p] }
    else { r with clk := level }
  | .pin .sel level =>
    if level && !r.sel then { r.endFrame p with sel := true }
    else if !level && r.sel then { r with sel := false, cells := [] }
    else r
  | .dataZ => { r with input := true }
  | .notify _ _ => r
  | .lapCompleted _ => r

/-- The receiver after a part of the trace. -/
def RxRef.observeAll (p : Config.Params) : List Event → RxRef → RxRef
  | [], r => r
  | e :: es, r => RxRef.observeAll p es (r.observe p e)

/-- What the samples in a part of the trace give, each drawn just before the rising clock edge of its cell (R132): the
receiver's answer, or the environment's next one where the receiver gives none; and the state after these draws. -/
def RxRef.answersOver (p : Config.Params) : List Event → RxRef → State → List Bool × State
  | [], _, s => ([], s)
  | e :: es, r, s =>
    if e = .pin .clk true ∧ r.input = true then
      match r.answer p with
      | some b => (b :: (answersOver p es (r.observe p e) s).1, (answersOver p es (r.observe p e) s).2)
      | none =>
        ((sampleData s).1 :: (answersOver p es (r.observe p e) (sampleData s).2).1,
          (answersOver p es (r.observe p e) (sampleData s).2).2)
    else answersOver p es (r.observe p e) s

/-- The events an operation appends to the output trace. -/
def appended (i : Instr) (s : State) : List Event :=
  match exec i s with
  | .next t => t.trace.drop s.trace.length
  | .fault _ => []
  | .refused _ => []

/-- The state whose environment answers the samples of the next operation as the receiver does. The operation's pin
events do not depend on the answers, so they can be taken from the operation itself. -/
def State.withReceiver (r : RxRef) (i : Instr) (s : State) : State :=
  s.setEnv
    { (r.answersOver s.params (appended i s) s).2.env with
      data := (r.answersOver s.params (appended i s) s).1 ++ (r.answersOver s.params (appended i s) s).2.env.data }

/-- The receiver after the next operation. -/
def RxRef.next (r : RxRef) (i : Instr) (s : State) : RxRef := r.observeAll s.params (appended i s)

end Sys2Proof.Machine
end

