-- ==== Sys2Proof/Safety.lean ====
section
/-! DEFINITION. The terms claims about the block are stated in: the pin events of a frame, the pulses of an
occasion, the crossing policy as conditions, the invariant of `spec/10_state.md` rule R52, frames, and runs of
operations. -/

namespace Sys2Proof.Machine

open Config (Inputs Params)

/-! ## Parts of the output trace -/

/-- R131: the events of a driven cell. -/
def cellEvents (b : Bool) : List Event := [.pin .data b, .pin .clk true, .pin .clk false]

/-- R132: the events of a sampled cell. -/
def clockEvents : List Event := [.pin .clk true, .pin .clk false]

/-- R134, R135: the events of a write frame with the given cells. -/
def writeFrameEvents (cells : List Bool) : List Event :=
  [.pin .sel true, .pin .sel false] ++ cells.flatMap cellEvents ++ [.pin .sel true]

/-- R136: the events of a read frame with the given driven cells. -/
def readFrameEvents (driven : List Bool) : List Event :=
  [.pin .sel true, .pin .sel false] ++ driven.flatMap cellEvents ++ [.dataZ]
    ++ (List.replicate 20 clockEvents).flatten ++ [.pin .data false, .pin .sel true]

/-- R41, R42, R97: the events of a frame the block may send. -/
def SentFrame (p : Params) (es : List Event) : Prop :=
  (∃ value, value.getLsbD 5 = false ∧ value.getLsbD 6 = false ∧ es = writeFrameEvents (wfCells p p.freqRegAddr value)) ∨
    es = writeFrameEvents (wpCells p 0xFFFFF#20) ∨ es = writeFrameEvents (wpCells p p.powerMaskNormal) ∨
    es = readFrameEvents (rdCells p p.freqRegAddr)

/-- R236: the events of `notify(kind)`. -/
def pulses (kind : NotifyKind) : List Event := [.notify .a kind, .notify .b kind]

/-- R80: the cells of a frame word, cell 0 first. -/
def cellsOf (w : FrameWord) : List Bool := (List.range 25).map fun k => w.getMsbD k

/-- An event of the serial bus. -/
def Event.isPin : Event → Bool
  | .pin _ _ => true
  | .dataZ => true
  | .notify _ _ => false
  | .lapCompleted _ => false

/-- A `LapCompleted` event (R235). -/
def Event.isLap : Event → Bool
  | .pin _ _ => false
  | .dataZ => false
  | .notify _ _ => false
  | .lapCompleted _ => true

/-- A pulse of a calibration toggle (R236). -/
def Event.isCalPulse : Event → Bool
  | .pin _ _ => false
  | .dataZ => false
  | .notify _ .start => false
  | .notify _ .stop => false
  | .notify _ .lapStart => false
  | .notify _ .lapFinish => false
  | .notify _ .calOn => true
  | .notify _ .calOff => true
  | .lapCompleted _ => false

/-! ## What the environment answers -/

/-- The answers to the next n `sample(DATA)`, and the environment after them. -/
def dataAnswers : Nat → Env → List Bool × Env
  | 0, v => ([], v)
  | n + 1, v =>
    match v.data with
    | b :: bs =>
      let r := dataAnswers n { v with data := bs }
      (b :: r.1, r.2)
    | [] =>
      let r := dataAnswers n { v with draws := v.draws + 1 }
      (Config.freeLevel v.draws :: r.1, r.2)

/-! ## The driver's tests as conditions -/

/-- R87: a frequency with an encoding. -/
abbrev HasEncoding (f : Word16) : Prop := 479 ≤ f.toNat ∧ f.toNat ≤ 33246

/-- R99: a frequency in the receiver's valid range. -/
abbrev InRange (p : Params) (f : Word16) : Prop := p.freqMin ≤ f ∧ f ≤ p.freqMax

/-- R41, R42, R97: what may be asked of the block: any operation of the command port, and of the frames those that it
sends itself. -/
def BlockSends (p : Params) : Instr → Prop
  | .frameWf addr value => addr = p.freqRegAddr ∧ value.getLsbD 5 = false ∧ value.getLsbD 6 = false
  | .frameWp mask => mask = 0xFFFFF#20 ∨ mask = p.powerMaskNormal
  | .frameRd addr => addr = p.freqRegAddr
  | .fltInit _ _ | .fltStep _ | .rxInit | .rxSetfreq _ _ | .rxHousekeep _ _ | .rxReadrssi | .rxVerify _ | .lapStart
  | .lapStop | .lapTick _ | .lapStep _ _ | .lapGetrssi | .lapAvail | .lapGettime | .lapSetcb _ | .calNstart
  | .calNstop | .calXstart | .calXstop => True

/-- R99: an operand of `RX.SETFREQ` or `RX.HOUSEKEEP` that is not refused. -/
abbrev Acceptable (s : State) (f : Word16) : Prop :=
  f = s.driver.curFreq ∨ f = s.params.powerDownFreq ∨ InRange s.params f

/-- R156 step 2: a verification attempt is due at `now`. -/
abbrev AttemptDue (p : Params) (d : Driver) (now : Millis) : Prop :=
  d.recentlyChanged = true ∧ p.tTuneSettle ≤ now - d.lastWriteMs ∧ (d.poweredDown = false ∨ p.verifyWhenDown = true)

/-- R233 `BadConfig`: the parameter constraints. -/
structure Constraints (p : Params) : Prop where
  addresses : p.freqRegAddr ≠ p.powerRegAddr
  indicators : p.readInd ≠ p.writeInd
  sentinelOutside : ¬ InRange p p.powerDownFreq
  minEncodable : 479 ≤ p.freqMin.toNat
  maxEncodable : p.freqMax.toNat ≤ 33246
  ordered : p.freqMin ≤ p.freqMax
  adcWide : 11 ≤ p.adcBits
  sentinelEncodable : p.verifyWhenDown = true → HasEncoding p.powerDownFreq

/-! ## The detection policy as conditions (R37, R187, R188, R191) -/

/-- R188: the threshold in force, from its normal and its `WAITING` input. -/
def inForce (c : Inputs) (t : TimerState) (normal waiting : Amp) : Amp :=
  if t = .waiting ∧ c.policy.getLsbD 3 = true then waiting else normal

/-- R187: the candidate after peak capture. -/
def captured (c : Inputs) (t : TimerState) (now : Millis) (sample : Amp) (k : Candidate) : Candidate :=
  if inForce c t c.enterRssi c.enterRssiWait ≤ sample ∧ k.peak < sample then ⟨sample, now⟩ else k

/-- R191: the minimum lap time has passed since the lap started. -/
abbrev OldEnough (c : Inputs) (lapStart now : Millis) : Prop := c.minLapMs ≤ now - lapStart

/-- R191 `fall`. -/
def Falls (c : Inputs) (t : TimerState) (sample : Amp) (k : Candidate) : Prop :=
  if c.policy.getLsbD 0 = true then sample < inForce c t c.exitRssi c.exitRssiWait
  else (inForce c t c.minDelta c.minDeltaWait).toNat + sample.toNat ≤ k.peak.toNat

/-- R190, R191 `confirmCrossing`. -/
def Crosses (c : Inputs) (t : TimerState) (lapStart now : Millis) (sample : Amp) (k : Candidate) : Prop :=
  sample < k.peak ∧ Falls c t sample k ∧ (c.policy.getLsbD 2 = true → t = .running → OldEnough c lapStart now)

/-- R191 `captureEnabled` in `RUNNING`. -/
def CaptureOpen (c : Inputs) (lapStart now : Millis) : Prop :=
  c.policy.getLsbD 1 = true → OldEnough c lapStart now

/-- R185: a session after a sample, whether or not it is active. -/
def calAfter (sample : Amp) (c : Cal) : Cal :=
  if c.active then ⟨true, if sample ≤ c.max then c.max else sample, BitVec.ofNat 16 (min (c.count.toNat + 1) 65535)⟩ else c

/-! ## Invariant -/

/-- What every step keeps: the canonical form of both buffers, `spec/10_state.md` rule R52 (3), (4), (7), the
ranges of `spec/40_signal_filter.md` rule R115 and the rest levels of R48 once the component is initialised, and
`spec/42_receiver_tuning.md` rule R163 (2). -/
structure State.Inv (s : State) : Prop where
  samplesCanonical : Memory.wf 100 s.engine.samples = true
  lapsCanonical : Memory.wf 50 s.engine.laps = true
  downAtSentinel : s.driver.poweredDown = true → s.driver.curFreq = s.params.powerDownFreq
  unsettledTuned :
    s.driver.recentlyChanged = true → s.driver.poweredDown = true ∨ InRange s.params s.driver.curFreq
  stoppedEmpty :
    s.engine.timerState = .stopped →
      s.engine.cand = ⟨0#8, 0#32⟩ ∧ s.engine.lapAvailable = false ∧ s.engine.lapCursor = 0 ∧
        ∀ i, readLap s.engine i = 0#32
  restPins : s.driver.rxInit = true → s.pins.sel = true ∧ s.pins.clk = false ∧ s.pins.dataDir = .out
  coefficients :
    s.filter.fltInit = true → s.filter.qc.toNat ≤ 429490 ∧ 655 ≤ s.filter.rc.toNat ∧ s.filter.rc.toNat ≤ 42949018
  estimateRange :
    s.filter.fltInit = true → s.params.numerics = .fixedPoint → s.filter.x.toNat ≤ 0xFF0000
  uncertaintyRange :
    s.filter.fltInit = true → s.params.numerics = .fixedPoint → s.filter.p.toNat < 2 ^ 26

/-! ## Frames -/

/-- Every element of both buffers reads as before. -/
def SameMemory (s t : State) : Prop :=
  (∀ i, readSample t.engine i = readSample s.engine i) ∧ (∀ i, readLap t.engine i = readLap s.engine i)

/-- Every element of both buffers reads as before, and every register of the engine is as before. -/
def SameEngine (s t : State) : Prop :=
  SameMemory s t ∧ t.engine.sampleCursor = s.engine.sampleCursor ∧ t.engine.lapCursor = s.engine.lapCursor ∧
    t.engine.cand = s.engine.cand ∧ t.engine.lapStart = s.engine.lapStart ∧
    t.engine.timerState = s.engine.timerState ∧ t.engine.lapAvailable = s.engine.lapAvailable ∧
    t.engine.cbRegistered = s.engine.cbRegistered ∧ t.engine.noiseCal = s.engine.noiseCal ∧
    t.engine.crossCal = s.engine.crossCal

/-- Parameters, configuration inputs and what has arrived are as before. -/
def SameOutside (s t : State) : Prop :=
  t.params = s.params ∧ t.cfg = s.cfg ∧ t.arrivals = s.arrivals

/-- Filter, driver, pins and environment are as before: what an operation of the engine leaves. -/
def OnlyEngine (s t : State) : Prop :=
  SameOutside s t ∧ t.filter = s.filter ∧ t.driver = s.driver ∧ t.pins = s.pins ∧ t.env = s.env

/-- Engine and filter are as before: what an operation of the driver leaves. -/
def OnlyDriver (s t : State) : Prop := SameOutside s t ∧ SameEngine s t ∧ t.filter = s.filter

/-! ## Runs and views -/

/-- The operations of a list run one after another, ending at the first refusal. -/
def runOps : List Instr → State → Host.Outcome State Fault Refusal
  | [], s => .next s
  | i :: is, s =>
    match exec i s with
    | .next t => runOps is t
    | .fault r => .fault r
    | .refused r => .refused r

/-- The four operations of `spec/44_calibration.md`. -/
def isCal : Instr → Bool
  | .calNstart => true
  | .calNstop => true
  | .calXstart => true
  | .calXstop => true
  | .fltInit _ _ => false
  | .fltStep _ => false
  | .rxInit => false
  | .rxSetfreq _ _ => false
  | .rxHousekeep _ _ => false
  | .rxReadrssi => false
  | .rxVerify _ => false
  | .lapStart => false
  | .lapStop => false
  | .lapTick _ => false
  | .lapStep _ _ => false
  | .lapGetrssi => false
  | .lapAvail => false
  | .lapGettime => false
  | .lapSetcb _ => false
  | .frameWf _ _ => false
  | .frameWp _ => false
  | .frameRd _ => false

/-- R225 (2): everything of a state but the two sessions, the calibration pulses of the trace, and the result
port. -/
def detectionView (s : State) : State :=
  { s with
    engine := { s.engine with noiseCal := Cal.cleared, crossCal := Cal.cleared }
    trace := s.trace.filter fun e => !e.isCalPulse
    ret := 0#32 }

end Sys2Proof.Machine
end

