-- ==== Sys2Proof/Certificates/Slice0/Obligations.lean ====
section
/-! DEFINITION. Statements about the block, from the numbered rules of `spec/`. Where a rule carries the spec's own
mark [decision] or [derived], or a log entry's choice enters, the docstring says so. -/

open Sys2Proof Sys2Proof.Machine Host

/-! ## Encodings (30_encoding.md) -/

/-- R82 to R84, R92, R93: for every instruction and all parameters with distinct indicator bits, decoding its encoding gives it back. Frame words as instructions are the model's choice (log entry 7). -/
def Obligations.DecodeInvertsEncode : Prop :=
  ∀ i : Instr, Sys2Proof.Laws.DecodeEncode.Statement i

/-- A few words written out from the encodings: requests of `spec/95_test_vectors.md` E5 and frames of B1, B4, B5. Numbering a frame by its wire-order string is the model's choice (log entry 8). -/
def Obligations.WordsOfTheSpecDecode : Prop :=
  decodeTableWord 72 0x0100000000002807D0 = some (.fltInit 2000#16 40#16) ∧
  decodeTableWord 72 0x06000003E8000016A8 = some (.rxHousekeep 1000#32 5800#16) ∧
  decodeTableWord 72 0x1300000014FFFFFF82 = some (.lapStep 20#32 130#8) ∧
  decodeTableWord 72 0x1A0000000000000000 = some .calXstart ∧
  decodeTableWord 72 0 = none ∧
  decodeTableWord 32 0b1000100101001100001000000 = some (.frameWf 0x1#4 0x2984#16) ∧
  decodeTableWord 32 0b0101111001111101100001011 = some (.frameWp 0xD0DF3#20) ∧
  decodeTableWord 32 0b1000000100001100101000000 = some (.frameRd 0x1#4)

/-- R92, R93: every command code with its operand fields, for every value of `now` and `arg`. The port is the spec's own decision D30. -/
def Obligations.CommandCodesAndOperandFields : Prop :=
  ∀ (p : Config.Params) (now : Millis) (arg : BitVec 32),
    decode p (.cmd (0x01#5 ++ now ++ arg)) = .ok (.fltInit (arg.extractLsb' 0 16) (arg.extractLsb' 16 16)) ∧
    decode p (.cmd (0x02#5 ++ now ++ arg)) = .ok (.fltStep (arg.extractLsb' 0 8)) ∧
    decode p (.cmd (0x04#5 ++ now ++ arg)) = .ok .rxInit ∧
    decode p (.cmd (0x05#5 ++ now ++ arg)) = .ok (.rxSetfreq now (arg.extractLsb' 0 16)) ∧
    decode p (.cmd (0x06#5 ++ now ++ arg)) = .ok (.rxHousekeep now (arg.extractLsb' 0 16)) ∧
    decode p (.cmd (0x07#5 ++ now ++ arg)) = .ok .rxReadrssi ∧
    decode p (.cmd (0x08#5 ++ now ++ arg)) = .ok (.rxVerify now) ∧
    decode p (.cmd (0x10#5 ++ now ++ arg)) = .ok .lapStart ∧
    decode p (.cmd (0x11#5 ++ now ++ arg)) = .ok .lapStop ∧
    decode p (.cmd (0x12#5 ++ now ++ arg)) = .ok (.lapTick now) ∧
    decode p (.cmd (0x13#5 ++ now ++ arg)) = .ok (.lapStep now (arg.extractLsb' 0 8)) ∧
    decode p (.cmd (0x14#5 ++ now ++ arg)) = .ok .lapGetrssi ∧
    decode p (.cmd (0x15#5 ++ now ++ arg)) = .ok .lapAvail ∧
    decode p (.cmd (0x16#5 ++ now ++ arg)) = .ok .lapGettime ∧
    decode p (.cmd (0x17#5 ++ now ++ arg)) = .ok (.lapSetcb (arg.getLsbD 0)) ∧
    decode p (.cmd (0x18#5 ++ now ++ arg)) = .ok .calNstart ∧
    decode p (.cmd (0x19#5 ++ now ++ arg)) = .ok .calNstop ∧
    decode p (.cmd (0x1A#5 ++ now ++ arg)) = .ok .calXstart ∧
    decode p (.cmd (0x1B#5 ++ now ++ arg)) = .ok .calXstop

/-- R96, R234: a request with a reserved code is refused by name, before anything else that could be wrong with it; every other code is an operation. Decision D30; the port as a list is the model's choice (log entry 6). -/
def Obligations.ReservedCodesAreRefused : Prop :=
  (∀ (s : State) (w : ReqWord) (early : Bool) (rest : List Arrival),
    Constraints s.params → s.arrivals = .request (.cmd w) early :: rest →
    (w.extractLsb' 64 5).toNat ∈ [0x00, 0x03, 0x09, 0x0A, 0x0B, 0x0C, 0x0D, 0x0E, 0x0F, 0x1C, 0x1D, 0x1E, 0x1F] →
    step s = .refused (.reservedCommand (w.extractLsb' 64 5))) ∧
  (∀ (p : Config.Params) (w : ReqWord),
    (w.extractLsb' 64 5).toNat ∉ [0x00, 0x03, 0x09, 0x0A, 0x0B, 0x0C, 0x0D, 0x0E, 0x0F, 0x1C, 0x1D, 0x1E, 0x1F] →
    ∃ i, decode p (.cmd w) = .ok i)

/-- R87: the frequency encoding on its whole domain: the register value, that it fits 16 bits, that bits 6 and 5 are 0, and when two frequencies share a value. -/
def Obligations.FrequencyEncodingValue : Prop :=
  ∀ f : Word16, HasEncoding f →
    (encodeFreq f).toNat = (f.toNat - 479) / 2 / 32 * 2 ^ 7 + (f.toNat - 479) / 2 % 32 ∧
    (encodeFreq f).getLsbD 6 = false ∧ (encodeFreq f).getLsbD 5 = false ∧
    ∀ g : Word16, HasEncoding g → (encodeFreq f = encodeFreq g ↔ (f.toNat - 479) / 2 = (g.toNat - 479) / 2)

/-- R88: re-encoding is stable, and decoding loses exactly the parity of F - 479. The inverse is the spec's decision D45. -/
def Obligations.FrequencyCodecIsStable : Prop :=
  ∀ f : Word16, HasEncoding f →
    decodeFreq (encodeFreq f) = f.toNat - (f.toNat - 479) % 2 ∧
    encodeFreq (BitVec.ofNat 16 (decodeFreq (encodeFreq f))) = encodeFreq f

/-- R89: the read-back of 20 samples is the sum of the first 16 weighted by their powers of two; bit k is sample k, and the last four change nothing. -/
def Obligations.ReadBackAssembly : Prop :=
  ∀ samples : List Bool, samples.length = 20 →
    (∀ k, k < 16 → (readBack samples).getLsbD k = samples.getD k false) ∧
    (readBack samples).toNat = ((List.range 16).map fun k => (samples.getD k false).toNat * 2 ^ k).sum

/-- R82 to R84, R137: the bit sequence of a write frame, the levels on `DATA` at its rising clock edges, is the 25 cells of its encoded word; that of a read frame is the first five cells of its word and then the 20 sampled values. That a frame has an encoded word (log entry 7), and that cell k is bit 24 - k of it (log entry 8), are the model's choices (DESIGN CHOICE). -/
def Obligations.FramesCarryTheirEncodedWord : Prop :=
  ∀ (p : Config.Params) (addr : RegAddr) (value : Word16) (mask : PowerMask) (d : Option Bool)
    (samples : List Bool), samples.length = 20 →
    (∃ w, encode p (.frameWf addr value) = .frame w ∧
      bitSequence d samples (writeFrameEvents (wfCells p addr value)) = cellsOf w) ∧
    (∃ w, encode p (.frameWp mask) = .frame w ∧
      bitSequence d samples (writeFrameEvents (wpCells p mask)) = cellsOf w) ∧
    (∃ w, encode p (.frameRd addr) = .frame w ∧
      bitSequence d samples (readFrameEvents (rdCells p addr)) = (cellsOf w).take 5 ++ samples)

/-! ## One step (20_memory.md, 60_exceptions.md, 70_reset_and_hazards.md) -/

/-- R72, R97: when the request at the head of the port decodes to an instruction, the step is that instruction's meaning in the state with the request taken off the port, nothing else; but a bare frame of the kinds the block never sends is refused by name. The port as a list and bare frames on it are the model's choices (log entries 6, 7). -/
def Obligations.StepRunsDecodedRequest : Prop :=
  ∀ (s : State) (w : PortWord) (rest : List Arrival) (i : Instr),
    Constraints s.params → s.arrivals = .request w false :: rest → decode s.params w = .ok i →
    (BlockSends s.params i → step s = exec i (s.setArrivals rest)) ∧
    (¬ BlockSends s.params i → step s = .refused (.frameNeverSent i))

/-- R233, R241: a request made while another operation had not completed is refused, whatever operation it names, also where the operation's own test would refuse it. Marking such a request (log entry 6) and the place of `Reentrant` in the order of the tests, which R234 does not give (log entry 16), are the model's choices (DESIGN CHOICE); so is that a bare frame can be asked for (log entry 7). -/
def Obligations.EarlyRequestIsReentrant : Prop :=
  ∀ (s : State) (w : PortWord) (rest : List Arrival) (i : Instr),
    Constraints s.params → s.arrivals = .request w true :: rest → decode s.params w = .ok i → BlockSends s.params i →
    step s = .refused .reentrant

/-- R233 `BadConfig`: a step is refused for its parameters exactly when a parameter constraint is violated. Decisions D6 and D15. The rule raises it at model construction; that every step of such a machine raises it is the model's (log entry 16). -/
def Obligations.BadConfigExactly : Prop :=
  ∀ s : State, (∃ v, step s = .refused (.badConfig v)) ↔ ¬ Constraints s.params

/-- R77, R261, R262: with nothing requested the block stays as it is; new configuration inputs change the inputs alone; the reset input leaves the reset state, and the inputs, the parameters, the environment and what follows as they were. Arrivals as a list (log entry 6), that later arrivals stay at a reset (log entry 18), and the reset values of the pins, the filter's numbers and `ret`, which R51 leaves unspecified or does not list (log entries 9, 10, 11), are the model's choices (DESIGN CHOICE). -/
def Obligations.IdleInputsAndReset : Prop :=
  ∀ (s : State) (rest : List Arrival), Constraints s.params →
    (s.arrivals = [] → step s = .next s) ∧
    (∀ c, s.arrivals = .inputs c :: rest → step s = .next { s with cfg := c, arrivals := rest }) ∧
    (s.arrivals = .reset :: rest →
      step s = .next { State.reset with params := s.params, cfg := s.cfg, env := s.env, arrivals := rest })

/-- R51, R260: what reset leaves, the values the table states (decision D33; not the pins nor the filter's numbers, which it leaves unspecified). -/
def Obligations.ResetTable : Prop :=
  State.reset.engine.timerState = .stopped ∧
  (∀ i, readSample State.reset.engine i = 0#8) ∧ State.reset.engine.sampleCursor = 0 ∧
  (∀ i, readLap State.reset.engine i = 0#32) ∧ State.reset.engine.lapCursor = 0 ∧
  State.reset.engine.lapAvailable = false ∧ State.reset.engine.cand = ⟨0#8, 0#32⟩ ∧
  State.reset.engine.lapStart = 0#32 ∧ State.reset.engine.cbRegistered = false ∧
  State.reset.engine.noiseCal = ⟨false, 0#8, 0#16⟩ ∧ State.reset.engine.crossCal = ⟨false, 0#8, 0#16⟩ ∧
  State.reset.driver = ⟨0#16, 0#32, false, false, false⟩ ∧ State.reset.filter.fltInit = false ∧
  State.reset.trace = []

/-! ## Frames on the bus (41_receiver_bus.md) -/

/-- R134: `FRAME.WF` completes in every state; it appends its 78 pin events, leaves the lines as the rule says, and changes nothing else. The result 0 on `ret` is the model's choice (log entry 7). -/
def Obligations.FrameWfEffect : Prop :=
  ∀ (s : State) (a : RegAddr) (v : Word16),
    exec (.frameWf a v) s =
      .next { s with
        ret := 0#32
        pins := { s.pins with sel := true, clk := false, data := false }
        trace := s.trace ++ [.pin .sel true, .pin .sel false]
          ++ ([a.getLsbD 0, a.getLsbD 1, a.getLsbD 2, a.getLsbD 3, s.params.writeInd]
              ++ (if s.params.payloadMsbFirst then
                    [v.getLsbD 15, v.getLsbD 14, v.getLsbD 13, v.getLsbD 12, v.getLsbD 11, v.getLsbD 10, v.getLsbD 9,
                      v.getLsbD 8, v.getLsbD 7, v.getLsbD 6, v.getLsbD 5, v.getLsbD 4, v.getLsbD 3, v.getLsbD 2,
                      v.getLsbD 1, v.getLsbD 0]
                  else
                    [v.getLsbD 0, v.getLsbD 1, v.getLsbD 2, v.getLsbD 3, v.getLsbD 4, v.getLsbD 5, v.getLsbD 6,
                      v.getLsbD 7, v.getLsbD 8, v.getLsbD 9, v.getLsbD 10, v.getLsbD 11, v.getLsbD 12, v.getLsbD 13,
                      v.getLsbD 14, v.getLsbD 15])
              ++ [false, false, false, false]).flatMap cellEvents
          ++ [.pin .sel true] } ∧
    (writeFrameEvents (wfCells s.params a v)).length = 78

/-- R135: `FRAME.WP` completes in every state; it appends its 78 pin events, leaves the lines as the rule says, and changes nothing else. The result 0 on `ret` is the model's choice (log entry 7). -/
def Obligations.FrameWpEffect : Prop :=
  ∀ (s : State) (m : PowerMask),
    exec (.frameWp m) s =
      .next { s with
        ret := 0#32
        pins := { s.pins with sel := true, clk := false, data := m.getLsbD 19 }
        trace := s.trace ++ [.pin .sel true, .pin .sel false]
          ++ ([s.params.powerRegAddr.getLsbD 0, s.params.powerRegAddr.getLsbD 1, s.params.powerRegAddr.getLsbD 2,
                s.params.powerRegAddr.getLsbD 3, s.params.writeInd,
                m.getLsbD 0, m.getLsbD 1, m.getLsbD 2, m.getLsbD 3, m.getLsbD 4, m.getLsbD 5, m.getLsbD 6,
                m.getLsbD 7, m.getLsbD 8, m.getLsbD 9, m.getLsbD 10, m.getLsbD 11, m.getLsbD 12, m.getLsbD 13,
                m.getLsbD 14, m.getLsbD 15, m.getLsbD 16, m.getLsbD 17, m.getLsbD 18, m.getLsbD 19]).flatMap cellEvents
          ++ [.pin .sel true] } ∧
    (writeFrameEvents (wpCells s.params m)).length = 78

/-- R136: `FRAME.RD` completes in every state, for every receiver: it takes exactly 20 answers, the scripted ones and then the free ones, appends its 60 pin events, leaves the lines at rest, gives the read-back of the 20 answers and changes nothing else. `ret` as the place of the value (log entry 7) and answers as a list followed by free values (log entry 4) are the model's choices. -/
def Obligations.FrameRdEffect : Prop :=
  ∀ (s : State) (a : RegAddr),
    exec (.frameRd a) s =
      .next { s with
        ret := (readBack (dataAnswers 20 s.env).1).setWidth 32
        pins := ⟨true, false, false, .out⟩
        trace := s.trace
          ++ readFrameEvents [a.getLsbD 0, a.getLsbD 1, a.getLsbD 2, a.getLsbD 3, s.params.readInd]
        env := (dataAnswers 20 s.env).2 } ∧
    (readFrameEvents (rdCells s.params a)).length = 60 ∧
    (dataAnswers 20 s.env).1 =
      s.env.data.take 20
        ++ ((List.range (20 - s.env.data.length)).map fun k => Config.freeLevel (s.env.draws + k)) ∧
    (dataAnswers 20 s.env).2 =
      { s.env with data := s.env.data.drop 20, draws := s.env.draws + (20 - s.env.data.length) } ∧
    (∀ bits rest, s.env.data = bits ++ rest → bits.length = 20 →
      exec (.frameRd a) s =
        .next { s with
          ret := (readBack bits).setWidth 32
          pins := ⟨true, false, false, .out⟩
          trace := s.trace ++ readFrameEvents (rdCells s.params a)
          env := { s.env with data := rest } })

/-! ## Tuning, power and amplitude (42_receiver_tuning.md) -/

/-- R151: `RX.INIT` completes in every state: the lines at rest, the normal mask written, the driver's state cleared; nothing else changes. Decision D33. -/
def Obligations.RxInitEffect : Prop :=
  ∀ s : State, ∃ t, exec .rxInit s = .next t ∧
    t.driver = ⟨0#16, 0#32, false, false, true⟩ ∧
    t.trace = s.trace ++ [.pin .sel true, .pin .clk false, .pin .data false]
      ++ writeFrameEvents (wpCells s.params s.params.powerMaskNormal) ∧
    t.pins = ⟨true, false, s.params.powerMaskNormal.getLsbD 19, .out⟩ ∧
    t.ret = 0#32 ∧ OnlyDriver s t ∧ t.env = s.env

/-- R152, R153, R154, R99: `RX.SETFREQ` by the class of its operand, in the rule's order. Decisions D13, D14, D16, D19. -/
def Obligations.SetFreqByOperandClass : Prop :=
  ∀ (s : State) (now : Millis) (f : Word16),
    if s.driver.rxInit = false then exec (.rxSetfreq now f) s = .refused (.notInitialised .rx)
    else if f = s.driver.curFreq then exec (.rxSetfreq now f) s = .next { s with ret := 0#32 }
    else if f = s.params.powerDownFreq then
      ∃ t, exec (.rxSetfreq now f) s = .next t ∧
        t.driver = { s.driver with curFreq := f, poweredDown := true, lastWriteMs := now } ∧
        t.trace = s.trace ++ writeFrameEvents (wpCells s.params 0xFFFFF#20) ∧
        t.pins = { s.pins with sel := true, clk := false, data := true } ∧
        t.ret = 0#32 ∧ OnlyDriver s t ∧ t.env = s.env
    else if InRange s.params f then
      ∃ t, exec (.rxSetfreq now f) s = .next t ∧
        t.driver =
          { s.driver with curFreq := f, recentlyChanged := true, poweredDown := false, lastWriteMs := now } ∧
        t.trace = s.trace
          ++ (if s.driver.poweredDown then writeFrameEvents (wpCells s.params s.params.powerMaskNormal) else [])
          ++ writeFrameEvents (wfCells s.params s.params.freqRegAddr (encodeFreq f)) ∧
        t.pins = { s.pins with sel := true, clk := false, data := false } ∧
        t.ret = 0#32 ∧ OnlyDriver s t ∧ t.env = s.env
    else exec (.rxSetfreq now f) s = .refused (.freqOutOfRange f)

/-- R158: a verification attempt, for every receiver, on the 20 samples the environment answers: the time is recorded in both cases, the flag is cleared on a match of all 16 bits and left on a mismatch; before initialisation and without an encodable frequency it is refused. Decision D13; answers as a list followed by free values are the model's choice (log entry 4). -/
def Obligations.VerifyEffect : Prop :=
  ∀ (s : State) (now : Millis),
    if s.driver.rxInit = false then exec (.rxVerify now) s = .refused (.notInitialised .rx)
    else if ¬ HasEncoding s.driver.curFreq then exec (.rxVerify now) s = .refused (.noFrequency s.driver.curFreq)
    else
      ∃ t, exec (.rxVerify now) s = .next t ∧
        t.driver =
          { s.driver with
            lastWriteMs := now
            recentlyChanged :=
              if readBack (dataAnswers 20 s.env).1 = encodeFreq s.driver.curFreq then false
              else s.driver.recentlyChanged } ∧
        t.ret = (if readBack (dataAnswers 20 s.env).1 = encodeFreq s.driver.curFreq then 1#32 else 0#32) ∧
        t.trace = s.trace ++ readFrameEvents (rdCells s.params s.params.freqRegAddr) ∧
        t.pins = ⟨true, false, false, .out⟩ ∧ OnlyDriver s t ∧ t.env = (dataAnswers 20 s.env).2

/-- R158, R159, R232 (1): for every receiver, an attempt completes once the driver is initialised and has an encodable frequency, and leaves everything but the flag, the time, the lines, the trace and the environment. -/
def Obligations.VerifyCompletesForEveryReceiver : Prop :=
  ∀ (s : State) (now : Millis), s.driver.rxInit = true → HasEncoding s.driver.curFreq →
    ∃ t, exec (.rxVerify now) s = .next t ∧ t.driver.lastWriteMs = now ∧
      t.driver.curFreq = s.driver.curFreq ∧ t.driver.poweredDown = s.driver.poweredDown ∧
      t.driver.rxInit = true ∧
      (t.ret = 1#32 ∧ t.driver.recentlyChanged = false ∨
        t.ret = 0#32 ∧ t.driver.recentlyChanged = s.driver.recentlyChanged) ∧
      OnlyDriver s t ∧ t.env.adc = s.env.adc

/-- R156: the two steps of housekeeping, each the operation the rule names, the second on the state the first left; a call that is not refused has no result. Decisions D16, D18. -/
def Obligations.HousekeepIsCommitThenVerify : Prop :=
  ∀ (s : State) (now : Millis) (f : Word16),
    (s.driver.rxInit = false → exec (.rxHousekeep now f) s = .refused (.notInitialised .rx)) ∧
    (s.driver.rxInit = true → ¬ Acceptable s f → exec (.rxHousekeep now f) s = .refused (.freqOutOfRange f)) ∧
    (s.driver.rxInit = true → Acceptable s f → ∀ s1,
      (if f ≠ s.driver.curFreq ∧ s.params.tBusBusy ≤ now - s.driver.lastWriteMs then
        exec (.rxSetfreq now f) s = .next s1 else s1 = s) →
      (¬ AttemptDue s1.params s1.driver now → exec (.rxHousekeep now f) s = .next { s1 with ret := 0#32 }) ∧
      (AttemptDue s1.params s1.driver now → ∀ s2, exec (.rxVerify now) s1 = .next s2 →
        exec (.rxHousekeep now f) s = .next { s2 with ret := 0#32 }) ∧
      (AttemptDue s1.params s1.driver now → ∀ r, exec (.rxVerify now) s1 = .refused r →
        exec (.rxHousekeep now f) s = .refused r))

/-- R156, R163 (4), R233: under the parameter constraints and the invariant, an acceptable request completes whatever the receiver answers (so the nested refusal is unreachable), and then the frequency is the requested one or the bus was busy at entry. -/
def Obligations.HousekeepCompletes : Prop :=
  ∀ (s : State) (now : Millis) (f : Word16),
    Constraints s.params → s.Inv → s.driver.rxInit = true → Acceptable s f →
    ∃ t, exec (.rxHousekeep now f) s = .next t ∧
      (t.driver.curFreq = f ∨ t.driver.curFreq = s.driver.curFreq ∧ now - s.driver.lastWriteMs < s.params.tBusBusy) ∧
      t.ret = 0#32 ∧ OnlyDriver s t ∧ t.env.adc = s.env.adc

/-- R163 (3): what one housekeeping call sends: nothing, the power-down mask, the normal mask and a frequency write, or a frequency write alone; then at most one read frame. -/
def Obligations.HousekeepSendsAtMostThreeFrames : Prop :=
  ∀ (s t : State) (now : Millis) (f : Word16), exec (.rxHousekeep now f) s = .next t →
    ∃ writes reads : List Event, t.trace = s.trace ++ writes ++ reads ∧
      (writes = [] ∨ writes = writeFrameEvents (wpCells s.params 0xFFFFF#20) ∨
        writes = writeFrameEvents (wpCells s.params s.params.powerMaskNormal)
          ++ writeFrameEvents (wfCells s.params s.params.freqRegAddr (encodeFreq f)) ∨
        writes = writeFrameEvents (wfCells s.params s.params.freqRegAddr (encodeFreq f))) ∧
      (reads = [] ∨ reads = readFrameEvents (rdCells s.params s.params.freqRegAddr))

/-- R161, R90: `RX.READRSSI` gives 0 and takes no draw while the flag is set, whatever the analog value; otherwise it takes one draw, clamps it to `RSSI_CLAMP_MAX` and drops its three low bits, wherever the outcome fits 8 bits; otherwise the amplitude is a free value (log entry 21). No state of the block changes. Decision D12; scripted answers are the model's choice (log entry 4). -/
def Obligations.ReadRssiEffect : Prop :=
  ∀ s : State,
    (s.driver.rxInit = false → exec .rxReadrssi s = .refused (.notInitialised .rx)) ∧
    (s.driver.rxInit = true → s.driver.recentlyChanged = true → exec .rxReadrssi s = .next { s with ret := 0#32 }) ∧
    (s.driver.rxInit = true → s.driver.recentlyChanged = false →
      ∃ t, exec .rxReadrssi s = .next t ∧ t.ret.toNat ≤ 255 ∧ OnlyDriver s t ∧ t.driver = s.driver ∧
        t.pins = s.pins ∧ t.trace = s.trace ∧ t.env.data = s.env.data ∧
        ∀ raw rest, s.env.adc = raw :: rest →
          (min (raw % 2 ^ s.params.adcBits) s.params.rssiClampMax / 8 ≤ 255 →
            t.ret.toNat = min (raw % 2 ^ s.params.adcBits) s.params.rssiClampMax / 8) ∧
          t.env = { s.env with adc := rest })

/-- R150, R32: in one step, whatever it serves, the flag goes from set to clear only by the reset input, by `RX.INIT`, or by a verification whose 16 bits read back equal the encoding of the frequency the step leaves. Answers as a list followed by free values and the port as a list are the model's choices (log entries 4, 6). -/
def Obligations.FlagClearedOnlyByAMatch : Prop :=
  ∀ s t : State, step s = .next t → s.driver.recentlyChanged = true → t.driver.recentlyChanged = false →
    (∃ rest, s.arrivals = .reset :: rest) ∨
    ∃ w rest i, s.arrivals = .request w false :: rest ∧ decode s.params w = .ok i ∧
      (i = .rxInit ∨
        ((∃ now, i = .rxVerify now) ∨ ∃ now f, i = .rxHousekeep now f) ∧
          readBack (dataAnswers 20 s.env).1 = encodeFreq t.driver.curFreq)

/-- R155 for `lastWriteMs`, R26 for `curFreq` (writers R151, R152, R153, R158): both change only by the driver's tuning operations; where a time is written it is the operation's `now`, and `RX.INIT` writes 0 to both. -/
def Obligations.LastWriteTimeWriters : Prop :=
  ∀ (i : Instr) (s t : State), exec i s = .next t →
    t.driver.lastWriteMs = s.driver.lastWriteMs ∧ t.driver.curFreq = s.driver.curFreq ∨
    i = .rxInit ∧ t.driver.lastWriteMs = 0#32 ∧ t.driver.curFreq = 0#16 ∨
    (∃ now f, (i = .rxSetfreq now f ∨ i = .rxHousekeep now f) ∧ t.driver.lastWriteMs = now ∧
      (t.driver.curFreq = f ∨ t.driver.curFreq = s.driver.curFreq)) ∨
    (∃ now, i = .rxVerify now ∧ t.driver.lastWriteMs = now ∧ t.driver.curFreq = s.driver.curFreq)

/-- R140, R153, R158: against the reference receiver, at rest and with no failure left, a frequency just set is verified by the next attempt, under either payload order. The receiver is the spec's own (D46); how it observes and answers is the model's choice (log entry 14). -/
def Obligations.ReferenceReceiverVerifies : Prop :=
  ∀ (s t : State) (r : RxRef) (now later : Millis) (f : Word16) (es : List Event),
    Constraints s.params → s.driver.rxInit = true → InRange s.params f → f ≠ s.driver.curFreq →
    r.sel = true → r.clk = false → r.fail = 0 → Memory.wf 16 r.regs = true →
    exec (.rxSetfreq now f) s = .next t → t.trace = s.trace ++ es →
    ∃ u, exec (.rxVerify later) (t.withReceiver (r.observeAll s.params es) (.rxVerify later)) = .next u ∧
      u.driver.recentlyChanged = false ∧ u.driver.curFreq = f ∧ u.ret = 1#32

/-- R141, R159: against the receiver that still fails, the same attempt is a mismatch: the flag stays set, the time is recorded, and the block goes on. The receiver is the spec's own (D46); how it observes and answers is the model's choice (log entry 14). -/
def Obligations.FailingReceiverLeavesTheFlag : Prop :=
  ∀ (s t : State) (r : RxRef) (now later : Millis) (f : Word16) (es : List Event),
    Constraints s.params → s.driver.rxInit = true → InRange s.params f → f ≠ s.driver.curFreq →
    r.sel = true → r.clk = false → 0 < r.fail → Memory.wf 16 r.regs = true →
    exec (.rxSetfreq now f) s = .next t → t.trace = s.trace ++ es →
    ∃ u, exec (.rxVerify later) (t.withReceiver (r.observeAll s.params es) (.rxVerify later)) = .next u ∧
      u.driver.recentlyChanged = true ∧ u.driver.lastWriteMs = later ∧ u.ret = 0#32

/-! ## Signal Filter (40_signal_filter.md) -/

/-- R112, R91: `FLT.INIT`: the coefficients scaled and rounded to the nearest unit, the state cleared; a coefficient of 0 is refused. Decisions D4, D5, D34. -/
def Obligations.FltInitEffect : Prop :=
  ∀ (s : State) (rawQ rawR : BitVec 16),
    (rawR = 0#16 → exec (.fltInit rawQ rawR) s = .refused (.badCoefficient rawR)) ∧
    (rawR ≠ 0#16 →
      ∃ t, exec (.fltInit rawQ rawR) s = .next t ∧
        t.filter.x = 0#24 ∧ t.filter.p = 0x10000#32 ∧ t.filter.fltInit = true ∧
        t.filter.qc.toNat = (rawQ.toNat * 65536 + 5000) / 10000 ∧
        t.filter.rc.toNat = (rawR.toNat * 65536 + 50) / 100 ∧
        t.ret = 0#32 ∧ t.trace = s.trace ∧ t.env = s.env ∧ t.driver = s.driver ∧ t.pins = s.pins ∧
        SameOutside s t ∧ SameEngine s t)

/-- R114: `FLT.STEP` of the default instance, each quotient and the arithmetic shift given by the inequalities of a truncating division and a floor; nothing else changes. Decision D4. -/
def Obligations.FltStepFixedPoint : Prop :=
  ∀ (s : State) (m : Amp), s.filter.fltInit = true → s.params.numerics = .fixedPoint → 1 ≤ s.filter.rc.toNat →
    ∃ t k, exec (.fltStep m) s = .next t ∧
      k * (s.filter.p.toNat + s.filter.qc.toNat + s.filter.rc.toNat)
        ≤ (s.filter.p.toNat + s.filter.qc.toNat) * 65536 ∧
      (s.filter.p.toNat + s.filter.qc.toNat) * 65536
        < (k + 1) * (s.filter.p.toNat + s.filter.qc.toNat + s.filter.rc.toNat) ∧
      t.filter.p.toNat * (s.filter.p.toNat + s.filter.qc.toNat + s.filter.rc.toNat)
        ≤ s.filter.rc.toNat * (s.filter.p.toNat + s.filter.qc.toNat) ∧
      s.filter.rc.toNat * (s.filter.p.toNat + s.filter.qc.toNat)
        < (t.filter.p.toNat + 1) * (s.filter.p.toNat + s.filter.qc.toNat + s.filter.rc.toNat) ∧
      ((t.filter.x.toNat : Int) - s.filter.x.toNat) * 65536
        ≤ ((m.toNat : Int) * 65536 - s.filter.x.toNat) * k ∧
      ((m.toNat : Int) * 65536 - s.filter.x.toNat) * k
        < ((t.filter.x.toNat : Int) - s.filter.x.toNat + 1) * 65536 ∧
      t.ret.toNat = t.filter.x.toNat ∧ t.filter.qc = s.filter.qc ∧ t.filter.rc = s.filter.rc ∧
      t.filter.fltInit = true ∧ t.trace = s.trace ∧ t.env = s.env ∧ t.driver = s.driver ∧ t.pins = s.pins ∧
      SameOutside s t ∧ SameEngine s t

/-- R116: the estimate moves toward the measurement and never past it. -/
def Obligations.EstimateStaysBetween : Prop :=
  ∀ (s t : State) (m : Amp), s.params.numerics = .fixedPoint → exec (.fltStep m) s = .next t →
    (s.filter.x.toNat ≤ m.toNat * 65536 → s.filter.x.toNat ≤ t.filter.x.toNat ∧ t.filter.x.toNat ≤ m.toNat * 65536) ∧
    (m.toNat * 65536 ≤ s.filter.x.toNat → m.toNat * 65536 ≤ t.filter.x.toNat ∧ t.filter.x.toNat ≤ s.filter.x.toNat)

/-- R110 (a) to (c), R113: under every numerics the parameters name, an initialised step completes, its estimate rounds to at most 255, it changes the two numbers alone, and it depends on the filter and the measurement alone. The open instance is a free value (log entry 5). -/
def Obligations.FltStepUnderEveryNumerics : Prop :=
  ∀ (s : State) (m : Amp),
    (s.filter.fltInit = false → exec (.fltStep m) s = .refused (.notInitialised .flt)) ∧
    (s.filter.fltInit = true → (s.params.numerics = .fixedPoint → s.filter.x.toNat ≤ 0xFF0000) →
      ∃ t, exec (.fltStep m) s = .next t ∧ (t.filter.x.toNat + 0x8000) / 65536 ≤ 255 ∧
        t.filter.qc = s.filter.qc ∧ t.filter.rc = s.filter.rc ∧ t.filter.fltInit = true ∧
        t.trace = s.trace ∧ t.env = s.env ∧ t.driver = s.driver ∧ t.pins = s.pins ∧ SameOutside s t ∧ SameEngine s t ∧
        ∀ s2, s2.filter = s.filter → s2.params.numerics = s.params.numerics →
          ∃ t2, exec (.fltStep m) s2 = .next t2 ∧ t2.filter = t.filter ∧ t2.ret = t.ret)

/-- R117: the sample is the nearest integer to the estimate, an exact half rounding up. Decision D35 for the tie. -/
def Obligations.RoundingIsNearest : Prop :=
  ∀ est : Estimate, est.toNat < 0xFF8000 →
    (roundEst est).toNat * 65536 ≤ est.toNat + 32768 ∧ est.toNat < (roundEst est).toNat * 65536 + 32768

/-! ## Lap Detection Engine (43_lap_engine.md) -/

/-- R181, R183: `LAP.START` from any state. Decisions D23, D29, D44. -/
def Obligations.LapStartEffect : Prop :=
  ∀ s : State, ∃ t, exec .lapStart s = .next t ∧
    t.engine.timerState = .waiting ∧ (∀ i, readSample t.engine i = 0#8) ∧ (∀ i, readLap t.engine i = 0#32) ∧
    t.engine.sampleCursor = 0 ∧ t.engine.lapCursor = 0 ∧ t.engine.lapAvailable = false ∧
    t.engine.cand = ⟨0#8, 0#32⟩ ∧ t.engine.lapStart = 0#32 ∧
    t.engine.cbRegistered = s.engine.cbRegistered ∧ t.engine.noiseCal = s.engine.noiseCal ∧
    t.engine.crossCal = s.engine.crossCal ∧
    t.trace = s.trace ++ pulses .start ∧ t.ret = 0#32 ∧ OnlyEngine s t

/-- R182, R183: `LAP.STOP` from any state, under both values of `STOP_CLEARS_CAL`. Decisions D23, D24, D29. -/
def Obligations.LapStopEffect : Prop :=
  ∀ s : State, ∃ t, exec .lapStop s = .next t ∧
    t.engine.timerState = .stopped ∧ (∀ i, readSample t.engine i = 0#8) ∧ (∀ i, readLap t.engine i = 0#32) ∧
    t.engine.sampleCursor = 0 ∧ t.engine.lapCursor = 0 ∧ t.engine.lapAvailable = false ∧
    t.engine.cand = ⟨0#8, 0#32⟩ ∧ t.engine.lapStart = 0#32 ∧
    t.engine.cbRegistered = s.engine.cbRegistered ∧
    t.engine.noiseCal = (if s.params.stopClearsCal then ⟨false, 0#8, 0#16⟩ else s.engine.noiseCal) ∧
    t.engine.crossCal = (if s.params.stopClearsCal then ⟨false, 0#8, 0#16⟩ else s.engine.crossCal) ∧
    t.trace = s.trace ++ pulses .stop ∧ t.ret = 0#32 ∧ OnlyEngine s t

/-- R189 steps 1, 2, 3 and 5, R65, R185: in every timer state the sample is stored at the cursor and nowhere else, each active session sees it, and the cursor advances with wraparound. The buffer's canonical form is a premise. -/
def Obligations.LapStepStoresAndAdvances : Prop :=
  ∀ (s : State) (now : Millis) (sample : Amp), Memory.wf 100 s.engine.samples = true →
    ∃ t, exec (.lapStep now sample) s = .next t ∧
      readSample t.engine s.engine.sampleCursor = sample ∧
      (∀ i, i ≠ s.engine.sampleCursor → readSample t.engine i = readSample s.engine i) ∧
      t.engine.sampleCursor.val = (s.engine.sampleCursor.val + 1) % 100 ∧
      t.engine.noiseCal = calAfter sample s.engine.noiseCal ∧
      t.engine.crossCal = calAfter sample s.engine.crossCal ∧
      t.engine.cbRegistered = s.engine.cbRegistered ∧ t.ret = 0#32 ∧ OnlyEngine s t

/-- R196: in `STOPPED` a step of the engine takes no further action: no capture, no crossing, no lap, no event. -/
def Obligations.StoppedStepDetectsNothing : Prop :=
  ∀ (s : State) (now : Millis) (sample : Amp), s.engine.timerState = .stopped →
    ∃ t, exec (.lapStep now sample) s = .next t ∧ t.trace = s.trace ∧ t.engine.timerState = .stopped ∧
      t.engine.cand = s.engine.cand ∧ t.engine.lapStart = s.engine.lapStart ∧
      t.engine.lapCursor = s.engine.lapCursor ∧ t.engine.lapAvailable = s.engine.lapAvailable ∧
      (∀ i, readLap t.engine i = readLap s.engine i) ∧ OnlyEngine s t

/-- R194 with R187, R188, R190, R191, R192: a step of the engine in `WAITING`. Decisions D22 (the strict fall), D23 (the candidate left at 0), D29 (the pulses), D40 (the `WAITING` thresholds). -/
def Obligations.WaitingStep : Prop :=
  ∀ (s : State) (now : Millis) (sample : Amp), s.engine.timerState = .waiting →
    ∃ t, exec (.lapStep now sample) s = .next t ∧
      t.engine.lapCursor = s.engine.lapCursor ∧ t.engine.lapAvailable = s.engine.lapAvailable ∧
      (∀ i, readLap t.engine i = readLap s.engine i) ∧ OnlyEngine s t ∧
      (Crosses s.cfg .waiting s.engine.lapStart now sample (captured s.cfg .waiting now sample s.engine.cand) →
        t.engine.timerState = .running ∧
        t.engine.lapStart = (captured s.cfg .waiting now sample s.engine.cand).ts ∧
        t.engine.cand = ⟨0#8, 0#32⟩ ∧ t.trace = s.trace ++ pulses .lapStart) ∧
      (¬ Crosses s.cfg .waiting s.engine.lapStart now sample (captured s.cfg .waiting now sample s.engine.cand) →
        t.engine.timerState = .waiting ∧ t.engine.lapStart = s.engine.lapStart ∧
        t.engine.cand = captured s.cfg .waiting now sample s.engine.cand ∧ t.trace = s.trace)

/-- R195 with R187, R190, R191, R192, R193: a step of the engine in `RUNNING` where the capture guard lets the sample through, k being the candidate after capture, or where it does not, k being the candidate as it was. Decisions D36, D41. The buffer's canonical form is a premise. -/
def Obligations.RunningStep : Prop :=
  ∀ (s : State) (now : Millis) (sample : Amp) (k : Candidate),
    s.engine.timerState = .running → Memory.wf 50 s.engine.laps = true →
    (CaptureOpen s.cfg s.engine.lapStart now ∧ k = captured s.cfg .running now sample s.engine.cand ∨
      ¬ CaptureOpen s.cfg s.engine.lapStart now ∧ k = s.engine.cand) →
    ∃ t, exec (.lapStep now sample) s = .next t ∧ t.engine.timerState = .running ∧ OnlyEngine s t ∧
      (Crosses s.cfg .running s.engine.lapStart now sample k →
        readLap t.engine s.engine.lapCursor = k.ts - s.engine.lapStart ∧
        (∀ i, i ≠ s.engine.lapCursor → readLap t.engine i = readLap s.engine i) ∧
        t.engine.lapCursor.val = (s.engine.lapCursor.val + 1) % 50 ∧ t.engine.lapAvailable = true ∧
        t.engine.lapStart = k.ts ∧ t.engine.cand = ⟨0#8, 0#32⟩ ∧
        t.trace = s.trace ++ pulses .lapFinish
          ++ (if s.engine.cbRegistered then [.lapCompleted (k.ts - s.engine.lapStart)] else [])
          ++ pulses .lapStart) ∧
      (¬ Crosses s.cfg .running s.engine.lapStart now sample k →
        (∀ i, readLap t.engine i = readLap s.engine i) ∧ t.engine.lapCursor = s.engine.lapCursor ∧
        t.engine.lapAvailable = s.engine.lapAvailable ∧ t.engine.lapStart = s.engine.lapStart ∧
        t.engine.cand = k ∧ t.trace = s.trace)

/-- R184, R101: a tick is the amplitude read, the filter step on it and the engine's step on the rounded estimate, one after another, as one operation; with both components initialised it completes. -/
def Obligations.TickIsReadFilterStep : Prop :=
  ∀ (s : State) (now : Millis), s.driver.rxInit = true → s.filter.fltInit = true →
    ∃ s1 s2 t, exec .rxReadrssi s = .next s1 ∧ exec (.fltStep (s1.ret.extractLsb' 0 8)) s1 = .next s2 ∧
      exec (.lapStep now (roundEst (s2.ret.extractLsb' 0 24))) s2 = .next t ∧
      exec (.lapTick now) s = .next t

/-- R184, R234: a tick is refused for the driver first, then for the filter. Decisions D33, D43. -/
def Obligations.TickRefusals : Prop :=
  ∀ (s : State) (now : Millis),
    (s.driver.rxInit = false → exec (.lapTick now) s = .refused (.notInitialised .rx)) ∧
    (s.driver.rxInit = true → s.filter.fltInit = false → exec (.lapTick now) s = .refused (.notInitialised .flt))

/-- R73, R161: while the frequency is unsettled, a tick filters a measurement of 0 and takes no analog draw. -/
def Obligations.UnsettledTickFiltersZero : Prop :=
  ∀ (s t : State) (now : Millis), s.driver.recentlyChanged = true → exec (.lapTick now) s = .next t →
    t.env = s.env ∧ t.driver = s.driver ∧
    ∃ u, exec (.fltStep 0#8) s = .next u ∧ t.filter = u.filter ∧
      (Memory.wf 100 s.engine.samples = true → readSample t.engine s.engine.sampleCursor = roundEst u.filter.x)

/-- R198: `LAP.AVAIL` returns the flag, has no side effect, and returns 0 after `LAP.START`. -/
def Obligations.LapAvailEffect : Prop :=
  (∀ s : State, exec .lapAvail s = .next { s with ret := if s.engine.lapAvailable then 1#32 else 0#32 }) ∧
  ∀ s t : State, exec .lapStart s = .next t → ∃ u, exec .lapAvail t = .next u ∧ u.ret = 0#32

/-- R197: `LAP.GETRSSI` returns the slot behind the cursor without a side effect; right after a step of the engine that is the sample of the step; right after `LAP.START` it is 0. Decision D25. -/
def Obligations.GetRssiReturnsLastSample : Prop :=
  (∀ s : State, ∃ i : Fin 100, i.val = (s.engine.sampleCursor.val + 99) % 100 ∧
    exec .lapGetrssi s = .next { s with ret := (readSample s.engine i).setWidth 32 }) ∧
  (∀ (s t : State) (now : Millis) (sample : Amp), Memory.wf 100 s.engine.samples = true →
    exec (.lapStep now sample) s = .next t →
    ∃ u, exec .lapGetrssi t = .next u ∧ u.ret = sample.setWidth 32) ∧
  ∀ s t : State, exec .lapStart s = .next t → ∃ u, exec .lapGetrssi t = .next u ∧ u.ret = 0#32

/-- R199, R67: `LAP.GETTIME` returns the slot behind the lap cursor, clears the flag and nothing else; a second call gives the same value with the flag still clear. Decision D26. -/
def Obligations.GetTimeClearsAvailability : Prop :=
  ∀ s : State, ∃ (i : Fin 50) (t u : State), i.val = (s.engine.lapCursor.val + 49) % 50 ∧
    exec .lapGettime s = .next t ∧ t.ret = readLap s.engine i ∧
    t = { s with ret := t.ret, engine := { s.engine with lapAvailable := false } } ∧
    exec .lapGettime t = .next u ∧ u.ret = t.ret ∧ u.engine.lapAvailable = false

/-- R200: `LAP.SETCB` writes the registration and nothing else, and it survives `LAP.START` and `LAP.STOP`. Decision D29. -/
def Obligations.SetCbEffect : Prop :=
  ∀ (s : State) (en : Bool), ∃ t u v,
    exec (.lapSetcb en) s = .next t ∧ t = { s with ret := 0#32, engine := { s.engine with cbRegistered := en } } ∧
    exec .lapStop t = .next u ∧ u.engine.cbRegistered = en ∧
    exec .lapStart u = .next v ∧ v.engine.cbRegistered = en

/-- R180, R256 (4): in one operation the timer state changes only as the table says: into `WAITING` by `LAP.START`, into `STOPPED` by `LAP.STOP`, from `WAITING` to `RUNNING` by a tick. -/
def Obligations.TimerStateTransitions : Prop :=
  ∀ (i : Instr) (s t : State), exec i s = .next t →
    t.engine.timerState = s.engine.timerState ∨
    i = .lapStart ∧ t.engine.timerState = .waiting ∨
    i = .lapStop ∧ t.engine.timerState = .stopped ∨
    ((∃ now, i = .lapTick now) ∨ ∃ now sample, i = .lapStep now sample) ∧
      s.engine.timerState = .waiting ∧ t.engine.timerState = .running

/-- R52 (5), R187: the candidate's peak never decreases in a step of the engine that does not reset the candidate, and an unmoved peak keeps its time. -/
def Obligations.CandidateIsMonotone : Prop :=
  ∀ (s t : State) (now : Millis) (sample : Amp), exec (.lapStep now sample) s = .next t →
    t.engine.cand = ⟨0#8, 0#32⟩ ∨ t.engine.cand = s.engine.cand ∨
    s.engine.cand.peak < t.engine.cand.peak ∧ t.engine.cand = ⟨sample, now⟩

/-- R202 (2), R190: in `WAITING` under the baseline policy, a candidate of peak P is kept through every sample at most P whose drop is under the minimum delta, and the first sample with a drop of at least the delta confirms the crossing, with the lap starting at the peak's time. This is the half about `WAITING` under the baseline policy; `RUNNING` is left to `RunningStep`. -/
def Obligations.CrossingConfirmedAtTheFall : Prop :=
  ∀ (s : State) (before : List (Millis × Amp)) (now : Millis) (sample : Amp),
    s.engine.timerState = .waiting → s.cfg.policy = 0#4 →
    (∀ x ∈ before, x.2 ≤ s.engine.cand.peak ∧
      (x.2 = s.engine.cand.peak ∨ s.engine.cand.peak.toNat - x.2.toNat < s.cfg.minDelta.toNat)) →
    sample < s.engine.cand.peak → s.cfg.minDelta.toNat ≤ s.engine.cand.peak.toNat - sample.toNat →
    ∃ t u, runOps (before.map fun x => .lapStep x.1 x.2) s = .next t ∧
      t.engine.timerState = .waiting ∧ t.engine.cand = s.engine.cand ∧ t.trace = s.trace ∧
      exec (.lapStep now sample) t = .next u ∧
      u.engine.timerState = .running ∧ u.engine.lapStart = s.engine.cand.ts ∧ u.engine.cand = ⟨0#8, 0#32⟩ ∧
      u.trace = s.trace ++ pulses .lapStart

/-- R256 (3), R202 (4), R65: after `LAP.START` and any number n of engine steps, the sample buffer holds the last min(n, 100) samples, each at its number modulo 100, and zeros elsewhere, and the cursor is n modulo 100. This is R256 (3) for the sample buffer; its half about the lap buffer is left out. -/
def Obligations.SampleHistory : Prop :=
  ∀ (s : State) (xs : List (Millis × Amp)),
    ∃ t, runOps (.lapStart :: xs.map fun x => .lapStep x.1 x.2) s = .next t ∧
      t.engine.sampleCursor.val = xs.length % 100 ∧
      (∀ k (i : Fin 100), k < xs.length → xs.length ≤ k + 100 → i.val = k % 100 →
        some (readSample t.engine i) = (xs[k]?).map Prod.snd) ∧
      (∀ i : Fin 100, xs.length ≤ i.val → readSample t.engine i = 0#8)

/-! ## Calibration sessions (44_calibration.md) -/

/-- R221, R223: a start, or restart, of either session. Decisions D27, D29. -/
def Obligations.CalStartEffect : Prop :=
  ∀ s : State,
    exec .calNstart s =
      .next { s with ret := 0#32, engine := { s.engine with noiseCal := ⟨true, 0#8, 0#16⟩ },
                     trace := s.trace ++ pulses .calOn } ∧
    exec .calXstart s =
      .next { s with ret := 0#32, engine := { s.engine with crossCal := ⟨true, 0#8, 0#16⟩ },
                     trace := s.trace ++ pulses .calOn }

/-- R222, R224: a stop of either session, active or not, returns its maximum and keeps maximum and count. Decisions D27, D29. -/
def Obligations.CalStopEffect : Prop :=
  ∀ s : State,
    exec .calNstop s =
      .next { s with ret := s.engine.noiseCal.max.setWidth 32,
                     engine := { s.engine with noiseCal := { s.engine.noiseCal with active := false } },
                     trace := s.trace ++ pulses .calOff } ∧
    exec .calXstop s =
      .next { s with ret := s.engine.crossCal.max.setWidth 32,
                     engine := { s.engine with crossCal := { s.engine.crossCal with active := false } },
                     trace := s.trace ++ pulses .calOff }

/-- R185: `calUpdate`: the count saturates at 65535, the maximum rises where the sample exceeds it, the flag stays; a step of the engine applies it to each active session and leaves an inactive one. -/
def Obligations.CalUpdateRule : Prop :=
  (∀ (c : Cal) (sample : Amp),
    (calUpdate sample c).count.toNat = min (c.count.toNat + 1) 65535 ∧
    (c.max < sample → (calUpdate sample c).max = sample) ∧
    (¬ c.max < sample → (calUpdate sample c).max = c.max) ∧
    (calUpdate sample c).active = c.active) ∧
  ∀ (s : State) (now : Millis) (sample : Amp), ∃ t, exec (.lapStep now sample) s = .next t ∧
    t.engine.noiseCal =
      (if s.engine.noiseCal.active then calUpdate sample s.engine.noiseCal else s.engine.noiseCal) ∧
    t.engine.crossCal =
      (if s.engine.crossCal.active then calUpdate sample s.engine.crossCal else s.engine.crossCal)

/-- R225 (4): over a session of n engine steps, of the noise or of the crossing calibration, the maximum is the greatest sample (0 if none) and the count is min(n, 65535), and the session is still active. -/
def Obligations.SessionMaximumAndCount : Prop :=
  ∀ (s : State) (xs : List (Millis × Amp)),
    (∃ t, runOps (.calNstart :: xs.map fun x => .lapStep x.1 x.2) s = .next t ∧
      t.engine.noiseCal.active = true ∧
      t.engine.noiseCal.count.toNat = min xs.length 65535 ∧
      t.engine.noiseCal.max.toNat = (xs.map fun x => x.2.toNat).foldl max 0) ∧
    ∃ t, runOps (.calXstart :: xs.map fun x => .lapStep x.1 x.2) s = .next t ∧
      t.engine.crossCal.active = true ∧
      t.engine.crossCal.count.toNat = min xs.length 65535 ∧
      t.engine.crossCal.max.toNat = (xs.map fun x => x.2.toNat).foldl max 0

/-- R225 (1), (2): leaving the calibration operations out of a run changes nothing but the two sessions, the calibration pulses and the last result: same timer state, buffers, candidate, driver, filter, pins and all other events. -/
def Obligations.CalibrationIsObservational : Prop :=
  ∀ (ops : List Instr) (s t : State), runOps ops s = .next t →
    ∃ u, runOps (ops.filter fun i => !isCal i) s = .next u ∧ detectionView t = detectionView u

/-! ## The whole machine -/

/-- R52, R44, R115, R163 (2): every step keeps the invariant. The reset values the invariant needs of the pins and the filter's numbers are none: those clauses wait for initialisation (log entries 9, 10). -/
def Obligations.StepKeepsInvariant : Prop :=
  ∀ s t : State, Constraints s.params → s.Inv → step s = .next t → t.Inv ∧ t.params = s.params

/-- R52: the invariant holds after reset, and the parameters of the reset state, the test defaults the model takes (log entry 2), meet the constraints. -/
def Obligations.ResetMeetsInvariant : Prop := State.reset.Inv ∧ Constraints State.reset.params

/-- R238, R239, R50: the trace is only appended to, with at most one completed lap; a driver operation or a frame appends pin events alone; `LAP.START`, `LAP.STOP` and the calibration operations append their pulses; the engine's step and the tick append no pin event; every other operation appends nothing. R97, R41, R42: what a step appends is events without a rising clock edge, then whole frames, each a write of the frequency register with bits 5 and 6 of the value clear, a write of one of the two masks, or a read of the frequency register; a reset empties the trace (log entry 18). -/
def Obligations.EventsPerOperation : Prop :=
  (∀ (i : Instr) (s t : State), exec i s = .next t →
    ∃ es, t.trace = s.trace ++ es ∧ (es.filter Event.isLap).length ≤ 1 ∧
      match i with
      | .rxInit | .rxSetfreq _ _ | .rxHousekeep _ _ | .rxVerify _ | .frameWf _ _ | .frameWp _ | .frameRd _ =>
        ∀ e ∈ es, e.isPin = true
      | .lapStart => es = pulses .start
      | .lapStop => es = pulses .stop
      | .calNstart | .calXstart => es = pulses .calOn
      | .calNstop | .calXstop => es = pulses .calOff
      | .lapTick _ | .lapStep _ _ => ∀ e ∈ es, e.isPin = false
      | .fltInit _ _ | .fltStep _ | .rxReadrssi | .lapGetrssi | .lapAvail | .lapGettime | .lapSetcb _ => es = []) ∧
  ∀ s t : State, step s = .next t →
    (∃ rest, s.arrivals = .reset :: rest ∧ t.trace = []) ∨
    ∃ (before : List Event) (frames : List (List Event)), t.trace = s.trace ++ before ++ frames.flatten ∧
      (∀ e ∈ before, e ≠ .pin .clk true) ∧ ∀ f ∈ frames, SentFrame s.params f

/-- R232 (2): no environment can produce a refusal: whether an operation is refused, and how, is the same for all answers the environment may give. -/
def Obligations.EnvironmentCannotRefuse : Prop :=
  ∀ (i : Instr) (s : State) (v : Env) (r : Refusal),
    exec i s = .refused r → exec i { s with env := v } = .refused r

/-- R27, R73, R225 (1): an operation of the driver or a frame leaves engine and filter, an operation of the filter leaves engine, driver and pins, and an operation of the engine other than the tick leaves filter, driver and pins; the tick leaves driver and pins. -/
def Obligations.OwnershipOfState : Prop :=
  ∀ (i : Instr) (s t : State), exec i s = .next t → SameOutside s t ∧
    match i with
    | .fltInit _ _ | .fltStep _ => SameEngine s t ∧ t.driver = s.driver ∧ t.pins = s.pins ∧ t.env = s.env
    | .rxInit | .rxSetfreq _ _ | .rxHousekeep _ _ | .rxReadrssi | .rxVerify _ | .frameWf _ _ | .frameWp _
    | .frameRd _ => SameEngine s t ∧ t.filter = s.filter
    | .lapTick _ => t.driver = s.driver ∧ t.pins = s.pins
    | .lapStart | .lapStop | .lapStep _ _ | .lapGetrssi | .lapAvail | .lapGettime | .lapSetcb _ | .calNstart
    | .calNstop | .calXstart | .calXstop => t.filter = s.filter ∧ t.driver = s.driver ∧ t.pins = s.pins ∧ t.env = s.env
end

