-- ==== Sys2Proof/Laws/State.lean ====
section
/-! SUPPORT. What each named update of the state leaves in each field: one lemma per field per update, and the
same for the update of one line of the pin state. -/

namespace Sys2Proof.Machine

section
variable (e : Engine) (s : State)

@[simp] theorem setEngine_params : (s.setEngine e).params = s.params := rfl
@[simp] theorem setEngine_cfg : (s.setEngine e).cfg = s.cfg := rfl
@[simp] theorem setEngine_engine : (s.setEngine e).engine = e := rfl
@[simp] theorem setEngine_filter : (s.setEngine e).filter = s.filter := rfl
@[simp] theorem setEngine_driver : (s.setEngine e).driver = s.driver := rfl
@[simp] theorem setEngine_pins : (s.setEngine e).pins = s.pins := rfl
@[simp] theorem setEngine_trace : (s.setEngine e).trace = s.trace := rfl
@[simp] theorem setEngine_env : (s.setEngine e).env = s.env := rfl
@[simp] theorem setEngine_arrivals : (s.setEngine e).arrivals = s.arrivals := rfl
@[simp] theorem setEngine_ret : (s.setEngine e).ret = s.ret := rfl

end

section
variable (f : Filter) (s : State)

@[simp] theorem setFilter_params : (s.setFilter f).params = s.params := rfl
@[simp] theorem setFilter_cfg : (s.setFilter f).cfg = s.cfg := rfl
@[simp] theorem setFilter_engine : (s.setFilter f).engine = s.engine := rfl
@[simp] theorem setFilter_filter : (s.setFilter f).filter = f := rfl
@[simp] theorem setFilter_driver : (s.setFilter f).driver = s.driver := rfl
@[simp] theorem setFilter_pins : (s.setFilter f).pins = s.pins := rfl
@[simp] theorem setFilter_trace : (s.setFilter f).trace = s.trace := rfl
@[simp] theorem setFilter_env : (s.setFilter f).env = s.env := rfl
@[simp] theorem setFilter_arrivals : (s.setFilter f).arrivals = s.arrivals := rfl
@[simp] theorem setFilter_ret : (s.setFilter f).ret = s.ret := rfl

end

section
variable (d : Driver) (s : State)

@[simp] theorem setDriver_params : (s.setDriver d).params = s.params := rfl
@[simp] theorem setDriver_cfg : (s.setDriver d).cfg = s.cfg := rfl
@[simp] theorem setDriver_engine : (s.setDriver d).engine = s.engine := rfl
@[simp] theorem setDriver_filter : (s.setDriver d).filter = s.filter := rfl
@[simp] theorem setDriver_driver : (s.setDriver d).driver = d := rfl
@[simp] theorem setDriver_pins : (s.setDriver d).pins = s.pins := rfl
@[simp] theorem setDriver_trace : (s.setDriver d).trace = s.trace := rfl
@[simp] theorem setDriver_env : (s.setDriver d).env = s.env := rfl
@[simp] theorem setDriver_arrivals : (s.setDriver d).arrivals = s.arrivals := rfl
@[simp] theorem setDriver_ret : (s.setDriver d).ret = s.ret := rfl

end

section
variable (p : Pins) (s : State)

@[simp] theorem setPins_params : (s.setPins p).params = s.params := rfl
@[simp] theorem setPins_cfg : (s.setPins p).cfg = s.cfg := rfl
@[simp] theorem setPins_engine : (s.setPins p).engine = s.engine := rfl
@[simp] theorem setPins_filter : (s.setPins p).filter = s.filter := rfl
@[simp] theorem setPins_driver : (s.setPins p).driver = s.driver := rfl
@[simp] theorem setPins_pins : (s.setPins p).pins = p := rfl
@[simp] theorem setPins_trace : (s.setPins p).trace = s.trace := rfl
@[simp] theorem setPins_env : (s.setPins p).env = s.env := rfl
@[simp] theorem setPins_arrivals : (s.setPins p).arrivals = s.arrivals := rfl
@[simp] theorem setPins_ret : (s.setPins p).ret = s.ret := rfl

end

section
variable (e : Event) (s : State)

@[simp] theorem emit_params : (s.emit e).params = s.params := rfl
@[simp] theorem emit_cfg : (s.emit e).cfg = s.cfg := rfl
@[simp] theorem emit_engine : (s.emit e).engine = s.engine := rfl
@[simp] theorem emit_filter : (s.emit e).filter = s.filter := rfl
@[simp] theorem emit_driver : (s.emit e).driver = s.driver := rfl
@[simp] theorem emit_pins : (s.emit e).pins = s.pins := rfl
@[simp] theorem emit_trace : (s.emit e).trace = s.trace ++ [e] := rfl
@[simp] theorem emit_env : (s.emit e).env = s.env := rfl
@[simp] theorem emit_arrivals : (s.emit e).arrivals = s.arrivals := rfl
@[simp] theorem emit_ret : (s.emit e).ret = s.ret := rfl

end

section
variable (v : Env) (s : State)

@[simp] theorem setEnv_params : (s.setEnv v).params = s.params := rfl
@[simp] theorem setEnv_cfg : (s.setEnv v).cfg = s.cfg := rfl
@[simp] theorem setEnv_engine : (s.setEnv v).engine = s.engine := rfl
@[simp] theorem setEnv_filter : (s.setEnv v).filter = s.filter := rfl
@[simp] theorem setEnv_driver : (s.setEnv v).driver = s.driver := rfl
@[simp] theorem setEnv_pins : (s.setEnv v).pins = s.pins := rfl
@[simp] theorem setEnv_trace : (s.setEnv v).trace = s.trace := rfl
@[simp] theorem setEnv_env : (s.setEnv v).env = v := rfl
@[simp] theorem setEnv_arrivals : (s.setEnv v).arrivals = s.arrivals := rfl
@[simp] theorem setEnv_ret : (s.setEnv v).ret = s.ret := rfl

end

section
variable (l : List Arrival) (s : State)

@[simp] theorem setArrivals_params : (s.setArrivals l).params = s.params := rfl
@[simp] theorem setArrivals_cfg : (s.setArrivals l).cfg = s.cfg := rfl
@[simp] theorem setArrivals_engine : (s.setArrivals l).engine = s.engine := rfl
@[simp] theorem setArrivals_filter : (s.setArrivals l).filter = s.filter := rfl
@[simp] theorem setArrivals_driver : (s.setArrivals l).driver = s.driver := rfl
@[simp] theorem setArrivals_pins : (s.setArrivals l).pins = s.pins := rfl
@[simp] theorem setArrivals_trace : (s.setArrivals l).trace = s.trace := rfl
@[simp] theorem setArrivals_env : (s.setArrivals l).env = s.env := rfl
@[simp] theorem setArrivals_arrivals : (s.setArrivals l).arrivals = l := rfl
@[simp] theorem setArrivals_ret : (s.setArrivals l).ret = s.ret := rfl

end

section
variable (c : Config.Inputs) (s : State)

@[simp] theorem setInputs_params : (s.setInputs c).params = s.params := rfl
@[simp] theorem setInputs_cfg : (s.setInputs c).cfg = c := rfl
@[simp] theorem setInputs_engine : (s.setInputs c).engine = s.engine := rfl
@[simp] theorem setInputs_filter : (s.setInputs c).filter = s.filter := rfl
@[simp] theorem setInputs_driver : (s.setInputs c).driver = s.driver := rfl
@[simp] theorem setInputs_pins : (s.setInputs c).pins = s.pins := rfl
@[simp] theorem setInputs_trace : (s.setInputs c).trace = s.trace := rfl
@[simp] theorem setInputs_env : (s.setInputs c).env = s.env := rfl
@[simp] theorem setInputs_arrivals : (s.setInputs c).arrivals = s.arrivals := rfl
@[simp] theorem setInputs_ret : (s.setInputs c).ret = s.ret := rfl

end

section
variable (v : BitVec 32) (s : State)

@[simp] theorem setRet_params : (s.setRet v).params = s.params := rfl
@[simp] theorem setRet_cfg : (s.setRet v).cfg = s.cfg := rfl
@[simp] theorem setRet_engine : (s.setRet v).engine = s.engine := rfl
@[simp] theorem setRet_filter : (s.setRet v).filter = s.filter := rfl
@[simp] theorem setRet_driver : (s.setRet v).driver = s.driver := rfl
@[simp] theorem setRet_pins : (s.setRet v).pins = s.pins := rfl
@[simp] theorem setRet_trace : (s.setRet v).trace = s.trace := rfl
@[simp] theorem setRet_env : (s.setRet v).env = s.env := rfl
@[simp] theorem setRet_arrivals : (s.setRet v).arrivals = s.arrivals := rfl
@[simp] theorem setRet_ret : (s.setRet v).ret = v := rfl

end

section
variable (b : Bool) (p : Pins)

@[simp] theorem driveSel_sel : (p.drive .sel b).sel = b := rfl
@[simp] theorem driveSel_clk : (p.drive .sel b).clk = p.clk := rfl
@[simp] theorem driveSel_data : (p.drive .sel b).data = p.data := rfl
@[simp] theorem driveSel_dataDir : (p.drive .sel b).dataDir = p.dataDir := rfl
@[simp] theorem driveClk_sel : (p.drive .clk b).sel = p.sel := rfl
@[simp] theorem driveClk_clk : (p.drive .clk b).clk = b := rfl
@[simp] theorem driveClk_data : (p.drive .clk b).data = p.data := rfl
@[simp] theorem driveClk_dataDir : (p.drive .clk b).dataDir = p.dataDir := rfl
@[simp] theorem driveData_sel : (p.drive .data b).sel = p.sel := rfl
@[simp] theorem driveData_clk : (p.drive .data b).clk = p.clk := rfl
@[simp] theorem driveData_data : (p.drive .data b).data = b := rfl
@[simp] theorem driveData_dataDir : (p.drive .data b).dataDir = p.dataDir := rfl

end

@[simp] theorem hold_eq (t : Nat) (s : State) : hold t s = s := rfl

/-- Two states with the same fields are the same state. -/
theorem State.eq_of_fields {s t : State} (hp : s.params = t.params) (hc : s.cfg = t.cfg) (he : s.engine = t.engine)
    (hf : s.filter = t.filter) (hd : s.driver = t.driver) (hn : s.pins = t.pins) (ht : s.trace = t.trace)
    (hv : s.env = t.env) (ha : s.arrivals = t.arrivals) (hr : s.ret = t.ret) : s = t := by
  cases s
  cases t
  simp_all

end Sys2Proof.Machine
end

