-- ==== Sys2Proof/Laws/Bus.lean ====
section
/-! SUPPORT. What the bus operations do, said once: each frame as one equation on the whole state. -/

namespace Sys2Proof.Machine

/-! ## Cells -/

theorem sendBit_eq (b : Bool) (s : State) :
    sendBit b s =
      { s with pins := { s.pins with data := b, clk := false }, trace := s.trace ++ cellEvents b } := by
  simp [sendBit, drive, State.setPins, State.emit, Pins.drive, cellEvents]

/-- Driving a non-empty run of cells. -/
theorem sendBits_eq (bs : List Bool) (b : Bool) :
    ∀ s : State, sendBits (bs ++ [b]) s =
      { s with
        pins := { s.pins with data := b, clk := false }
        trace := s.trace ++ (bs ++ [b]).flatMap cellEvents } := by
  induction bs with
  | nil => intro s; simp [sendBits, sendBit_eq]
  | cons c cs ih => intro s; simp [sendBits, sendBit_eq, ih]

/-- One answer of the environment. -/
theorem sampleData_eq (s : State) :
    sampleData s =
      ((dataAnswers 1 s.env).1.headD false, { s with env := (dataAnswers 1 s.env).2 }) := by
  rcases h : s.env.data with _ | ⟨b, bs⟩ <;> simp [sampleData, dataAnswers, h, State.setEnv]

theorem dataAnswers_succ (n : Nat) (v : Env) :
    dataAnswers (n + 1) v =
      ((dataAnswers 1 v).1.headD false :: (dataAnswers n (dataAnswers 1 v).2).1,
        (dataAnswers n (dataAnswers 1 v).2).2) := by
  rcases h : v.data with _ | ⟨b, bs⟩ <;> simp [dataAnswers, h]

theorem recvBit_eq (s : State) :
    recvBit s =
      ((dataAnswers 1 s.env).1.headD false,
        { s with
          pins := { s.pins with clk := false }
          trace := s.trace ++ clockEvents
          env := (dataAnswers 1 s.env).2 }) := by
  simp [recvBit, sampleData_eq, drive, State.setPins, State.emit, Pins.drive, clockEvents]

/-- Sampling a non-empty run of cells. -/
theorem recvBits_eq (n : Nat) :
    ∀ s : State, recvBits (n + 1) s =
      ((dataAnswers (n + 1) s.env).1,
        { s with
          pins := { s.pins with clk := false }
          trace := s.trace ++ (List.replicate (n + 1) clockEvents).flatten
          env := (dataAnswers (n + 1) s.env).2 }) := by
  induction n with
  | zero =>
    intro s
    rw [dataAnswers_succ]
    simp [recvBits, recvBit_eq, dataAnswers]
  | succ n ih =>
    intro s
    rw [dataAnswers_succ, recvBits]
    simp [recvBit_eq, ih, List.replicate_succ]

/-- The scripted answers, where there are enough of them. -/
theorem dataAnswers_of_append (bits rest : List Bool) (v : Env) (h : v.data = bits ++ rest) :
    dataAnswers bits.length v = (bits, { v with data := rest }) := by
  induction bits generalizing v with
  | nil =>
    simp only [List.nil_append] at h
    simp [dataAnswers, ← h]
  | cons b bs ih =>
    simp only [List.cons_append] at h
    simp only [List.length_cons, dataAnswers, h]
    rw [ih { v with data := bs ++ rest } rfl]

/-- What n draws answer: the scripted answers, then the free ones; and the environment they leave. -/
theorem dataAnswers_eq (n : Nat) : ∀ v : Env, dataAnswers n v =
    (v.data.take n ++ (List.range (n - v.data.length)).map fun k => Config.freeLevel (v.draws + k),
      { v with data := v.data.drop n, draws := v.draws + (n - v.data.length) }) := by
  induction n with
  | zero => intro v; simp [dataAnswers]
  | succ n ih =>
    intro v
    rcases h : v.data with _ | ⟨b, bs⟩
    · simp [dataAnswers, h, ih, List.range_succ_eq_map, Nat.add_assoc, Nat.add_comm 1, Function.comp_def]
    · simp [dataAnswers, h, ih]

theorem dataAnswers_length (n : Nat) : ∀ v : Env, (dataAnswers n v).1.length = n := by
  induction n with
  | zero => intro v; rfl
  | succ n ih => intro v; rw [dataAnswers_succ]; simp [ih]

/-- Sampling the data line leaves the analog answers alone. -/
theorem dataAnswers_adc (n : Nat) : ∀ v : Env, (dataAnswers n v).2.adc = v.adc := by
  induction n with
  | zero => intro v; rfl
  | succ n ih =>
    intro v
    rcases h : v.data with _ | ⟨b, bs⟩ <;> simp [dataAnswers, h, ih]

/-! ## Bit sequences (R137) -/

/-- The driven cells of a frame. -/
theorem bitSequence_cells (cells : List Bool) : ∀ (d : Option Bool) (samples : List Bool) (es : List Event),
    bitSequence d samples (cells.flatMap cellEvents ++ es)
      = cells ++ bitSequence (cells.foldl (fun _ b => some b) d) samples es := by
  induction cells with
  | nil => intro d samples es; rfl
  | cons b bs ih => intro d samples es; simp [cellEvents, bitSequence, ih]

/-- The sampled cells of a frame. -/
theorem bitSequence_sampled (samples : List Bool) : ∀ es : List Event,
    bitSequence none samples ((List.replicate samples.length clockEvents).flatten ++ es)
      = samples ++ bitSequence none [] es := by
  induction samples with
  | nil => intro es; rfl
  | cons b bs ih => intro es; simp [List.replicate_succ, clockEvents, bitSequence] at ih ⊢; exact ih es

/-- A write frame. -/
theorem bitSequence_write (d : Option Bool) (samples cells : List Bool) :
    bitSequence d samples (writeFrameEvents cells) = cells := by
  simp only [writeFrameEvents, List.cons_append, List.nil_append]
  cases d <;> simp [bitSequence, bitSequence_cells]

/-- A read frame: the driven cells, then the samples. -/
theorem bitSequence_read (d : Option Bool) (samples driven : List Bool) (h : samples.length = 20) :
    bitSequence d samples (readFrameEvents driven) = driven ++ samples := by
  simp only [readFrameEvents, List.append_assoc, List.cons_append, List.nil_append, ← h]
  cases d <;> simp [bitSequence, bitSequence_cells, bitSequence_sampled]

/-! ## Frames -/

/-- R134: all that a frequency write does. -/
theorem sendWf_eq (addr : RegAddr) (value : Word16) (s : State) :
    sendWf addr value s =
      { s with
        pins := { s.pins with sel := true, clk := false, data := false }
        trace := s.trace ++ writeFrameEvents (wfCells s.params addr value) } := by
  have hc : wfCells s.params addr value =
      (addrCells addr ++ [s.params.writeInd] ++ payloadCells s.params value ++ List.replicate 3 false) ++ [false] := by
    simp [wfCells, List.replicate]
  simp only [sendWf, frameBegin, frameEnd, hold_eq, hc, sendBits_eq]
  simp [drive, State.setPins, State.emit, Pins.drive, writeFrameEvents]

/-- R135: all that a power-control write does. -/
theorem sendWp_eq (mask : PowerMask) (s : State) :
    sendWp mask s =
      { s with
        pins := { s.pins with sel := true, clk := false, data := mask.getLsbD 19 }
        trace := s.trace ++ writeFrameEvents (wpCells s.params mask) } := by
  have hc : wpCells s.params mask =
      (addrCells s.params.powerRegAddr ++ [s.params.writeInd] ++ (List.range 19).map fun j => mask.getLsbD j)
        ++ [mask.getLsbD 19] := by
    simp [wpCells, List.range_succ]
  simp only [sendWp, frameBegin, frameEnd, hold_eq, hc, sendBits_eq]
  simp [drive, State.setPins, State.emit, Pins.drive, writeFrameEvents]

/-- R136: all that a read frame does. -/
theorem sendRd_eq (addr : RegAddr) (s : State) :
    sendRd addr s =
      (readBack (dataAnswers 20 s.env).1,
        { s with
          pins := ⟨true, false, false, .out⟩
          trace := s.trace ++ readFrameEvents (rdCells s.params addr)
          env := (dataAnswers 20 s.env).2 }) := by
  simp only [sendRd, frameBegin, frameEnd, hold_eq, rdCells, sendBits_eq, dirIn, dirOut, recvBits_eq]
  simp [drive, State.setPins, State.emit, Pins.drive, readFrameEvents]

end Sys2Proof.Machine
end

