-- ==== Sys2Proof/Laws/Memory.lean ====
section
/-! SUPPORT. The two ring buffers: read after write, the canonical form is kept, and equal reads of canonical
buffers are equal data. -/

namespace Sys2Proof.Machine

variable {w : Nat}

@[simp] theorem Memory.read_nil (a : Nat) : Memory.read ([] : Memory w) a = 0#w := rfl

theorem Memory.wfFrom_cons {cap lo k : Nat} {v : BitVec w} {m : Memory w} :
    Memory.wfFrom cap lo ((k, v) :: m) = true ↔
      lo ≤ k ∧ k < cap ∧ v ≠ 0#w ∧ Memory.wfFrom cap (k + 1) m = true := by
  simp [Memory.wfFrom, Memory.unlisted, and_assoc]

theorem Memory.wfFrom_mono {cap lo hi : Nat} (h : lo ≤ hi) :
    ∀ {m : Memory w}, Memory.wfFrom cap hi m = true → Memory.wfFrom cap lo m = true
  | [], _ => rfl
  | (k, v) :: m, hm => by
    rw [Memory.wfFrom_cons] at hm ⊢
    exact ⟨by omega, hm.2⟩

/-- Below its first index a canonical buffer lists nothing. -/
theorem Memory.read_below {cap lo a : Nat} (ha : a < lo) :
    ∀ {m : Memory w}, Memory.wfFrom cap lo m = true → Memory.read m a = 0#w
  | [], _ => rfl
  | (k, v) :: m, hm => by
    rw [Memory.wfFrom_cons] at hm
    have hk : k ≠ a := by omega
    simp only [Memory.read, hk, if_false]
    exact Memory.read_below (lo := k + 1) (by omega) hm.2.2.2

/-- Reading back the element just written. -/
theorem Memory.read_write_same {cap : Nat} (a : Nat) (v : BitVec w) :
    ∀ {lo : Nat} {m : Memory w}, Memory.wfFrom cap lo m = true → Memory.read (Memory.write m a v) a = v
  | _, [], _ => by
    by_cases hv : v = 0#w <;> simp [Memory.write, Memory.read, Memory.unlisted, hv]
  | _, (k, u) :: m, hm => by
    rw [Memory.wfFrom_cons] at hm
    have below : a < k + 1 → Memory.read m a = 0#w := fun h => Memory.read_below h hm.2.2.2
    by_cases h1 : a < k
    · by_cases hv : v = 0#w
      · simp [Memory.write, Memory.read, Memory.unlisted, h1, hv, Nat.ne_of_gt h1, below (by omega)]
      · simp [Memory.write, Memory.read, Memory.unlisted, h1, hv]
    · by_cases h2 : a = k
      · subst h2
        by_cases hv : v = 0#w
        · simp [Memory.write, Memory.unlisted, hv, below (by omega)]
        · simp [Memory.write, Memory.read, Memory.unlisted, hv]
      · simp only [Memory.write, h1, h2, if_false, Memory.read, Ne.symm h2]
        exact Memory.read_write_same a v hm.2.2.2

/-- A write leaves every other element alone. -/
theorem Memory.read_write_other {a b : Nat} (hab : b ≠ a) (v : BitVec w) :
    ∀ {m : Memory w}, Memory.read (Memory.write m a v) b = Memory.read m b
  | [] => by
    by_cases hv : v = 0#w <;> simp [Memory.write, Memory.read, Memory.unlisted, hv, Ne.symm hab]
  | (k, u) :: m => by
    have ih := Memory.read_write_other hab v (m := m)
    by_cases h1 : a < k
    · by_cases hv : v = 0#w <;> simp [Memory.write, Memory.read, Memory.unlisted, h1, hv, Ne.symm hab]
    · by_cases h2 : a = k
      · subst h2
        by_cases hv : v = 0#w <;> simp [Memory.write, Memory.read, Memory.unlisted, hv, Ne.symm hab]
      · simp [Memory.write, Memory.read, h1, h2, ih]

/-- A write keeps the canonical form. -/
theorem Memory.wfFrom_write {cap a : Nat} (v : BitVec w) (ha : a < cap) :
    ∀ {lo : Nat} {m : Memory w}, lo ≤ a → Memory.wfFrom cap lo m = true →
      Memory.wfFrom cap lo (Memory.write m a v) = true
  | lo, [], hlo, _ => by
    by_cases hv : v = 0#w
    · simp [Memory.write, Memory.unlisted, hv, Memory.wfFrom]
    · simp [Memory.write, Memory.unlisted, hv, Memory.wfFrom, hlo, ha]
  | lo, (k, u) :: m, hlo, hm => by
    have hm' := Memory.wfFrom_cons.mp hm
    by_cases h1 : a < k
    · by_cases hv : v = 0#w
      · simpa [Memory.write, Memory.unlisted, h1, hv] using hm
      · simp only [Memory.write, Memory.unlisted, h1, hv, if_true, if_false]
        exact Memory.wfFrom_cons.mpr ⟨hlo, ha, hv, Memory.wfFrom_cons.mpr ⟨h1, hm'.2⟩⟩
    · by_cases h2 : a = k
      · subst h2
        by_cases hv : v = 0#w
        · simp only [Memory.write, Memory.unlisted, hv, lt_irrefl, if_true, if_false]
          exact Memory.wfFrom_mono (by omega) hm'.2.2.2
        · simp only [Memory.write, Memory.unlisted, hv, lt_irrefl, if_true, if_false]
          exact Memory.wfFrom_cons.mpr ⟨hlo, ha, hv, hm'.2.2.2⟩
      · simp only [Memory.write, h1, h2, if_false]
        exact Memory.wfFrom_cons.mpr
          ⟨hm'.1, hm'.2.1, hm'.2.2.1, Memory.wfFrom_write v ha (by omega) hm'.2.2.2⟩

/-- A write keeps the canonical form of a whole buffer. -/
theorem Memory.wf_write {cap a : Nat} {m : Memory w} (v : BitVec w) (ha : a < cap) (hm : Memory.wf cap m = true) :
    Memory.wf cap (Memory.write m a v) = true :=
  Memory.wfFrom_write v ha (Nat.zero_le a) hm

/-- The empty buffer is canonical. -/
@[simp] theorem Memory.wf_nil (cap : Nat) : Memory.wf cap ([] : Memory w) = true := rfl

/-- Canonical buffers that read the same are the same data. -/
theorem Memory.eq_of_read {cap : Nat} :
    ∀ {lo : Nat} {m n : Memory w}, Memory.wfFrom cap lo m = true → Memory.wfFrom cap lo n = true →
      (∀ a, Memory.read m a = Memory.read n a) → m = n
  | _, [], [], _, _, _ => rfl
  | _, [], (k, v) :: n, _, hn, h => by
    have := h k
    simp [Memory.read] at this
    exact absurd this.symm (Memory.wfFrom_cons.mp hn).2.2.1
  | _, (k, v) :: m, [], hm, _, h => by
    have := h k
    simp [Memory.read] at this
    exact absurd this (Memory.wfFrom_cons.mp hm).2.2.1
  | lo, (k, u) :: m, (l, v) :: n, hm, hn, h => by
    have hm' := Memory.wfFrom_cons.mp hm
    have hn' := Memory.wfFrom_cons.mp hn
    have hkl : k = l := by
      rcases Nat.lt_trichotomy k l with hlt | heq | hgt
      · have := h k
        simp only [Memory.read, if_true, Nat.ne_of_gt hlt, if_false] at this
        rw [Memory.read_below (lo := l + 1) (by omega) hn'.2.2.2] at this
        exact absurd this hm'.2.2.1
      · exact heq
      · have := h l
        simp only [Memory.read, if_true, Nat.ne_of_gt hgt, if_false] at this
        rw [Memory.read_below (lo := k + 1) (by omega) hm'.2.2.2] at this
        exact absurd this.symm hn'.2.2.1
    subst hkl
    have huv : u = v := by simpa [Memory.read] using h k
    subst huv
    refine congrArg _ (Memory.eq_of_read hm'.2.2.2 hn'.2.2.2 fun a => ?_)
    by_cases ha : k = a
    · subst ha
      rw [Memory.read_below (Nat.lt_succ_self k) hm'.2.2.2, Memory.read_below (Nat.lt_succ_self k) hn'.2.2.2]
    · simpa [Memory.read, ha] using h a

/-! ## The engine's element access -/

/-- Reading back the sample just written. -/
theorem readSample_writeSample_same {e : Engine} (i : Fin 100) (v : Amp) (h : Memory.wf 100 e.samples = true) :
    readSample (writeSample i v e) i = v :=
  Memory.read_write_same i.val v h

/-- A sample write leaves every other sample alone. -/
theorem readSample_writeSample_other {e : Engine} {i j : Fin 100} (h : j ≠ i) (v : Amp) :
    readSample (writeSample i v e) j = readSample e j :=
  Memory.read_write_other (fun hv => h (Fin.ext hv)) v

/-- Reading back the lap record just written. -/
theorem readLap_writeLap_same {e : Engine} (i : Fin 50) (v : Millis) (h : Memory.wf 50 e.laps = true) :
    readLap (writeLap i v e) i = v :=
  Memory.read_write_same i.val v h

/-- A lap write leaves every other record alone. -/
theorem readLap_writeLap_other {e : Engine} {i j : Fin 50} (h : j ≠ i) (v : Millis) :
    readLap (writeLap i v e) j = readLap e j :=
  Memory.read_write_other (fun hv => h (Fin.ext hv)) v

end Sys2Proof.Machine
end

