-- ==== Sys2Proof/Laws/LapEngine.lean ====
section
/-! SUPPORT. What the engine's sub-operations do, said once: the detection policy as conditions, and each case of
the engine's step as one equation on the whole state. -/

namespace Sys2Proof.Machine

/-! ## The detection policy -/

theorem enterOf_eq (c : Config.Inputs) (t : TimerState) : enterOf c t = inForce c t c.enterRssi c.enterRssiWait := by
  simp [enterOf, inForce, useWait, waitSeparate]

theorem exitOf_eq (c : Config.Inputs) (t : TimerState) : exitOf c t = inForce c t c.exitRssi c.exitRssiWait := by
  simp [exitOf, inForce, useWait, waitSeparate]

theorem deltaOf_eq (c : Config.Inputs) (t : TimerState) : deltaOf c t = inForce c t c.minDelta c.minDeltaWait := by
  simp [deltaOf, inForce, useWait, waitSeparate]

/-- R187: peak capture writes the candidate alone. -/
theorem peakCapture_eq (c : Config.Inputs) (now : Millis) (sample : Amp) (e : Engine) :
    peakCapture c now sample e = { e with cand := captured c e.timerState now sample e.cand } := by
  unfold peakCapture captured
  rw [enterOf_eq]
  split_ifs <;> rfl

/-- R191: a guard holds a tick back exactly when it is on, the engine runs, and the minimum has not passed. -/
theorem heldBack_eq_false {g : Bool} {c : Config.Inputs} {e : Engine} {now : Millis} :
    heldBack g c e now = false ↔ (g = true → e.timerState = .running → OldEnough c e.lapStart now) := by
  cases g
  · simp [heldBack]
  · by_cases h : e.timerState = .running
    · simp only [heldBack, h, decide_true, Bool.true_and, decide_eq_false_iff_not, BitVec.not_lt, OldEnough,
        forall_const]
    · simp [heldBack, h]

/-- R190, R191: the crossing predicate as its condition. -/
theorem confirmCrossing_iff {c : Config.Inputs} {e : Engine} {now : Millis} {sample : Amp} :
    confirmCrossing c e now sample = true ↔ Crosses c e.timerState e.lapStart now sample e.cand := by
  have hg : (!heldBack (guardConfirm c) c e now) = true ↔
      (c.policy.getLsbD 2 = true → e.timerState = .running → OldEnough c e.lapStart now) := by
    rw [Bool.not_eq_true', heldBack_eq_false]
    rfl
  rw [confirmCrossing, Bool.and_eq_true, Bool.and_eq_true, decide_eq_true_iff, hg, Crosses, and_assoc]
  refine and_congr_right fun hlt => and_congr_left fun _ => ?_
  rw [fall, Falls, exitOf_eq, deltaOf_eq]
  have hlt' : sample.toNat < e.cand.peak.toNat := hlt
  have hsub : (e.cand.peak - sample).toNat = e.cand.peak.toNat - sample.toNat :=
    BitVec.toNat_sub_of_le (Nat.le_of_lt hlt')
  cases h : c.policy.getLsbD 0
  · simp only [exitMode, h, Bool.false_eq_true, if_false, decide_eq_true_iff, BitVec.le_def, hsub]
    omega
  · simp only [exitMode, h, if_true, decide_eq_true_iff]

theorem captureEnabled_running {c : Config.Inputs} {e : Engine} {now : Millis} (h : e.timerState = .running) :
    captureEnabled c e now = true ↔ CaptureOpen c e.lapStart now := by
  rw [captureEnabled, Bool.not_eq_true', heldBack_eq_false, CaptureOpen, guardCapture]
  simp [h]

/-! ## Calibration -/

/-- R185: an update of an active session. -/
theorem calUpdate_active {c : Cal} (h : c.active = true) (sample : Amp) : calUpdate sample c = calAfter sample c := by
  have hc := c.count.isLt
  have hcount : (if c.count = Config.calCountMax then c.count else c.count + 1#16)
      = BitVec.ofNat 16 (min (c.count.toNat + 1) 65535) := by
    by_cases hm : c.count = Config.calCountMax
    · rw [if_pos hm, hm]
      decide
    · have hne : c.count.toNat ≠ 65535 := fun hn => hm (BitVec.eq_of_toNat_eq hn)
      rw [if_neg hm]
      apply BitVec.eq_of_toNat_eq
      simp only [BitVec.toNat_add, BitVec.toNat_ofNat]
      omega
  have hmax : (if c.max < sample then sample else c.max) = if sample ≤ c.max then c.max else sample := by
    by_cases hlt : c.max < sample
    · rw [if_pos hlt, if_neg (BitVec.not_le.mpr hlt)]
    · rw [if_neg hlt, if_pos (BitVec.not_lt.mp hlt)]
  simp [calUpdate, calAfter, h, hcount, hmax]

theorem calSteps_eq (sample : Amp) (e : Engine) :
    calSteps sample e =
      { e with noiseCal := calAfter sample e.noiseCal, crossCal := calAfter sample e.crossCal } := by
  have h : ∀ c : Cal, (if c.active = true then calUpdate sample c else c) = calAfter sample c := by
    intro c
    by_cases hc : c.active = true
    · rw [if_pos hc, calUpdate_active hc]
    · simp [calAfter, hc]
  simp [calSteps, h]

/-! ## The step of the engine -/

/-- R189 steps 1 to 3 and 5: the engine after a step that detects nothing. -/
def storedAndAdvanced (sample : Amp) (e : Engine) : Engine :=
  { e with
    samples := Memory.write e.samples e.sampleCursor.val sample
    sampleCursor := nextSample e.sampleCursor
    noiseCal := calAfter sample e.noiseCal
    crossCal := calAfter sample e.crossCal }

/-- R196: the step in `STOPPED`. -/
theorem lapStepOp_stopped {s : State} (h : s.engine.timerState = .stopped) (now : Millis) (sample : Amp) :
    lapStepOp now sample s = { s with engine := storedAndAdvanced sample s.engine } := by
  simp [lapStepOp, dispatchStep, storeSample, calSteps_eq, writeSample, h, advanceCursor, storedAndAdvanced,
    State.setEngine]

/-- R194: `WAITING` as one equation. -/
theorem waitingStep_eq (now : Millis) (sample : Amp) (s : State) {k : Candidate}
    (h : s.engine.timerState = .waiting) (hk : k = captured s.cfg .waiting now sample s.engine.cand) :
    (¬ Crosses s.cfg .waiting s.engine.lapStart now sample k →
      waitingStep now sample s = s.setEngine { s.engine with cand := k }) ∧
    (Crosses s.cfg .waiting s.engine.lapStart now sample k →
      waitingStep now sample s =
        { s with
          engine := { s.engine with timerState := .running, lapStart := k.ts, cand := ⟨0#8, 0#32⟩ }
          trace := s.trace ++ pulses .lapStart }) := by
  have hp : peakCapture s.cfg now sample s.engine = { s.engine with cand := k } := by
    rw [hk, ← h]
    exact peakCapture_eq ..
  have hx : confirmCrossing s.cfg { s.engine with cand := k } now sample = true ↔
      Crosses s.cfg .waiting s.engine.lapStart now sample k := by
    rw [confirmCrossing_iff, h]
  simp only [waitingStep, setEngine_cfg, setEngine_engine, hp]
  constructor
  · intro hc
    rw [if_neg (fun hn => hc (hx.mp hn))]
  · intro hc
    rw [if_pos (hx.mpr hc)]
    simp [startLap, notify, State.setEngine, State.emit, pulses, Candidate.empty]

/-- R195: `RUNNING` as one equation, `k` being the candidate the crossing is judged on. -/
theorem runningStep_eq (now : Millis) (sample : Amp) (s : State) {k : Candidate}
    (h : s.engine.timerState = .running)
    (hk : CaptureOpen s.cfg s.engine.lapStart now ∧ k = captured s.cfg .running now sample s.engine.cand ∨
      ¬ CaptureOpen s.cfg s.engine.lapStart now ∧ k = s.engine.cand) :
    (¬ Crosses s.cfg .running s.engine.lapStart now sample k →
      runningStep now sample s = s.setEngine { s.engine with cand := k }) ∧
    (Crosses s.cfg .running s.engine.lapStart now sample k →
      runningStep now sample s =
        { s with
          engine :=
            { s.engine with
              laps := Memory.write s.engine.laps s.engine.lapCursor.val (k.ts - s.engine.lapStart)
              lapCursor := nextLap s.engine.lapCursor
              lapAvailable := true
              lapStart := k.ts
              cand := ⟨0#8, 0#32⟩ }
          trace := s.trace ++ pulses .lapFinish
            ++ (if s.engine.cbRegistered then [.lapCompleted (k.ts - s.engine.lapStart)] else [])
            ++ pulses .lapStart }) := by
  have hp : (if captureEnabled s.cfg s.engine now then s.setEngine (peakCapture s.cfg now sample s.engine) else s)
      = s.setEngine { s.engine with cand := k } := by
    rcases hk with ⟨ho, rfl⟩ | ⟨ho, rfl⟩
    · rw [if_pos ((captureEnabled_running h).mpr ho), peakCapture_eq, ← h]
    · rw [if_neg (fun hn => ho ((captureEnabled_running h).mp hn))]
      rfl
  have hx : confirmCrossing s.cfg { s.engine with cand := k } now sample = true ↔
      Crosses s.cfg .running s.engine.lapStart now sample k := by
    rw [confirmCrossing_iff, h]
  simp only [runningStep, hp, setEngine_cfg, setEngine_engine]
  constructor
  · intro hc
    rw [if_neg (fun hn => hc (hx.mp hn))]
  · intro hc
    rw [if_pos (hx.mpr hc)]
    cases hr : s.engine.cbRegistered <;>
      simp [startLap, finishLap, recordLap, lapDuration, writeLap, notify, State.setEngine, State.emit, pulses,
        Candidate.empty]

/-- Steps 1 to 3 of R189 leave what the dispatch reads of the engine. -/
theorem storeSample_eq (sample : Amp) (e : Engine) :
    storeSample sample e =
      { e with
        samples := Memory.write e.samples e.sampleCursor.val sample
        noiseCal := calAfter sample e.noiseCal
        crossCal := calAfter sample e.crossCal } := by
  simp [storeSample, calSteps_eq, writeSample]

/-- R194: the step in `WAITING`. -/
theorem lapStepOp_waiting {s : State} (h : s.engine.timerState = .waiting) (now : Millis) (sample : Amp)
    {k : Candidate} (hk : k = captured s.cfg .waiting now sample s.engine.cand) :
    (¬ Crosses s.cfg .waiting s.engine.lapStart now sample k →
      lapStepOp now sample s = s.setEngine { storedAndAdvanced sample s.engine with cand := k }) ∧
    (Crosses s.cfg .waiting s.engine.lapStart now sample k →
      lapStepOp now sample s =
        { s with
          engine :=
            { storedAndAdvanced sample s.engine with timerState := .running, lapStart := k.ts, cand := ⟨0#8, 0#32⟩ }
          trace := s.trace ++ pulses .lapStart }) := by
  have hw := waitingStep_eq now sample (s.setEngine (storeSample sample s.engine)) (k := k)
    (by rw [setEngine_engine, storeSample_eq]; exact h) (by rw [setEngine_engine, storeSample_eq]; exact hk)
  have hd : dispatchStep now sample (s.setEngine (storeSample sample s.engine)) =
      waitingStep now sample (s.setEngine (storeSample sample s.engine)) := by
    simp [dispatchStep, storeSample_eq, h]
  simp only [setEngine_engine, setEngine_cfg, storeSample_eq] at hw hd
  constructor
  · intro hc
    rw [lapStepOp, storeSample_eq, hd, hw.1 hc]
    rfl
  · intro hc
    rw [lapStepOp, storeSample_eq, hd, hw.2 hc]
    rfl

/-- R195: the step in `RUNNING`. -/
theorem lapStepOp_running {s : State} (h : s.engine.timerState = .running) (now : Millis) (sample : Amp)
    {k : Candidate}
    (hk : CaptureOpen s.cfg s.engine.lapStart now ∧ k = captured s.cfg .running now sample s.engine.cand ∨
      ¬ CaptureOpen s.cfg s.engine.lapStart now ∧ k = s.engine.cand) :
    (¬ Crosses s.cfg .running s.engine.lapStart now sample k →
      lapStepOp now sample s = s.setEngine { storedAndAdvanced sample s.engine with cand := k }) ∧
    (Crosses s.cfg .running s.engine.lapStart now sample k →
      lapStepOp now sample s =
        { s with
          engine :=
            { storedAndAdvanced sample s.engine with
              laps := Memory.write s.engine.laps s.engine.lapCursor.val (k.ts - s.engine.lapStart)
              lapCursor := nextLap s.engine.lapCursor
              lapAvailable := true
              lapStart := k.ts
              cand := ⟨0#8, 0#32⟩ }
          trace := s.trace ++ pulses .lapFinish
            ++ (if s.engine.cbRegistered then [.lapCompleted (k.ts - s.engine.lapStart)] else [])
            ++ pulses .lapStart }) := by
  have hw := runningStep_eq now sample (s.setEngine (storeSample sample s.engine)) (k := k)
    (by rw [setEngine_engine, storeSample_eq]; exact h) (by rw [setEngine_engine, storeSample_eq]; exact hk)
  have hd : dispatchStep now sample (s.setEngine (storeSample sample s.engine)) =
      runningStep now sample (s.setEngine (storeSample sample s.engine)) := by
    simp [dispatchStep, storeSample_eq, h]
  simp only [setEngine_engine, setEngine_cfg, storeSample_eq] at hw hd
  constructor
  · intro hc
    rw [lapStepOp, storeSample_eq, hd, hw.1 hc]
    rfl
  · intro hc
    rw [lapStepOp, storeSample_eq, hd, hw.2 hc]
    rfl

/-- R189: all that a step of the engine can do, for every timer state. -/
theorem lapStepOp_cases (now : Millis) (sample : Amp) (s : State) :
    (∃ k, (k = s.engine.cand ∨
          s.engine.timerState ≠ .stopped ∧ k = captured s.cfg s.engine.timerState now sample s.engine.cand) ∧
        lapStepOp now sample s = s.setEngine { storedAndAdvanced sample s.engine with cand := k }) ∨
      (∃ ts, s.engine.timerState = .waiting ∧
        lapStepOp now sample s =
          { s with
            engine :=
              { storedAndAdvanced sample s.engine with timerState := .running, lapStart := ts, cand := ⟨0#8, 0#32⟩ }
            trace := s.trace ++ pulses .lapStart }) ∨
      (∃ ts, s.engine.timerState = .running ∧
        lapStepOp now sample s =
          { s with
            engine :=
              { storedAndAdvanced sample s.engine with
                laps := Memory.write s.engine.laps s.engine.lapCursor.val (ts - s.engine.lapStart)
                lapCursor := nextLap s.engine.lapCursor
                lapAvailable := true
                lapStart := ts
                cand := ⟨0#8, 0#32⟩ }
            trace := s.trace ++ pulses .lapFinish
              ++ (if s.engine.cbRegistered then [.lapCompleted (ts - s.engine.lapStart)] else [])
              ++ pulses .lapStart }) := by
  cases h : s.engine.timerState with
  | stopped => exact .inl ⟨_, .inl rfl, lapStepOp_stopped h now sample⟩
  | waiting =>
    have hs := lapStepOp_waiting h now sample rfl
    by_cases hc : Crosses s.cfg .waiting s.engine.lapStart now sample
        (captured s.cfg .waiting now sample s.engine.cand)
    · exact .inr (.inl ⟨_, rfl, hs.2 hc⟩)
    · exact .inl ⟨_, .inr ⟨by simp, rfl⟩, hs.1 hc⟩
  | running =>
    by_cases ho : CaptureOpen s.cfg s.engine.lapStart now
    · have hs := lapStepOp_running h now sample (.inl ⟨ho, rfl⟩)
      by_cases hc : Crosses s.cfg .running s.engine.lapStart now sample
          (captured s.cfg .running now sample s.engine.cand)
      · exact .inr (.inr ⟨_, rfl, hs.2 hc⟩)
      · exact .inl ⟨_, .inr ⟨by simp, rfl⟩, hs.1 hc⟩
    · have hs := lapStepOp_running h now sample (.inr ⟨ho, rfl⟩)
      by_cases hc : Crosses s.cfg .running s.engine.lapStart now sample s.engine.cand
      · exact .inr (.inr ⟨_, rfl, hs.2 hc⟩)
      · exact .inl ⟨_, .inl rfl, hs.1 hc⟩

/-- What a step of the engine reads and writes: given the configuration inputs and the engine, the new engine and
the events it appends are the same whatever else the state holds. -/
theorem lapStepOp_local (now : Millis) (sample : Amp) (c : Config.Inputs) (e : Engine) :
    ∃ e1 es, ∀ s : State, s.cfg = c → s.engine = e →
      lapStepOp now sample s = { s with engine := e1, trace := s.trace ++ es } := by
  cases ht : e.timerState with
  | stopped =>
    refine ⟨storedAndAdvanced sample e, [], fun s hc he => ?_⟩
    subst hc he
    rw [lapStepOp_stopped ht, List.append_nil]
  | waiting =>
    by_cases hx : Crosses c .waiting e.lapStart now sample (captured c .waiting now sample e.cand)
    · refine ⟨{ storedAndAdvanced sample e with
          timerState := .running
          lapStart := (captured c .waiting now sample e.cand).ts
          cand := ⟨0#8, 0#32⟩ }, pulses .lapStart, fun s hc he => ?_⟩
      subst hc he
      exact (lapStepOp_waiting ht now sample rfl).2 hx
    · refine ⟨{ storedAndAdvanced sample e with cand := captured c .waiting now sample e.cand }, [],
        fun s hc he => ?_⟩
      subst hc he
      rw [(lapStepOp_waiting ht now sample rfl).1 hx, List.append_nil]
      rfl
  | running =>
    have hk : ∃ k, CaptureOpen c e.lapStart now ∧ k = captured c .running now sample e.cand ∨
        ¬ CaptureOpen c e.lapStart now ∧ k = e.cand := by
      by_cases ho : CaptureOpen c e.lapStart now
      · exact ⟨_, .inl ⟨ho, rfl⟩⟩
      · exact ⟨_, .inr ⟨ho, rfl⟩⟩
    obtain ⟨k, hk⟩ := hk
    by_cases hx : Crosses c .running e.lapStart now sample k
    · refine ⟨{ storedAndAdvanced sample e with
          laps := Memory.write e.laps e.lapCursor.val (k.ts - e.lapStart)
          lapCursor := nextLap e.lapCursor
          lapAvailable := true
          lapStart := k.ts
          cand := ⟨0#8, 0#32⟩ },
        pulses .lapFinish ++ (if e.cbRegistered then [.lapCompleted (k.ts - e.lapStart)] else [])
          ++ pulses .lapStart, fun s hc he => ?_⟩
      subst hc he
      rw [(lapStepOp_running ht now sample hk).2 hx]
      simp only [List.append_assoc]
    · refine ⟨{ storedAndAdvanced sample e with cand := k }, [], fun s hc he => ?_⟩
      subst hc he
      rw [(lapStepOp_running ht now sample hk).1 hx, List.append_nil]
      rfl

end Sys2Proof.Machine
end

