-- ==== Sys2Proof/Laws/Tuning.lean ====
section
/-! SUPPORT. What the driver's sub-operations do, said once. -/

namespace Sys2Proof.Machine

/-! ## Conditions -/

theorem encodable_iff {f : Word16} : encodable f = true ↔ HasEncoding f := by
  rw [encodable, Bool.and_eq_true, decide_eq_true_iff, decide_eq_true_iff]
  rfl

theorem encodable_eq_false {f : Word16} : encodable f = false ↔ ¬ HasEncoding f := by
  rw [← encodable_iff, Bool.not_eq_true]

theorem inRange_iff {p : Config.Params} {f : Word16} : inRange p f = true ↔ InRange p f := by
  simp [inRange, InRange]

theorem inRange_eq_false {p : Config.Params} {f : Word16} : inRange p f = false ↔ ¬ InRange p f := by
  rw [← inRange_iff, Bool.not_eq_true]

theorem busFree_iff {p : Config.Params} {d : Driver} {now : Millis} :
    busFree p d now = true ↔ p.tBusBusy ≤ now - d.lastWriteMs := by
  rw [busFree, decide_eq_true_iff]
  rfl

theorem verifyDue_iff {p : Config.Params} {d : Driver} {now : Millis} :
    verifyDue p d now = true ↔ AttemptDue p d now := by
  rw [verifyDue, Bool.and_eq_true, Bool.and_eq_true, decide_eq_true_iff, Bool.or_eq_true, Bool.not_eq_true',
    and_assoc]
  rfl

/-- R97: the port's test of a frame as a condition. -/
theorem sentByBlock_iff {p : Config.Params} {i : Instr} : sentByBlock p i = true ↔ BlockSends p i := by
  cases i <;> simp [sentByBlock, BlockSends, Config.powerMaskDown, and_assoc]

theorem sentByBlock_eq_false {p : Config.Params} {i : Instr} : sentByBlock p i = false ↔ ¬ BlockSends p i := by
  rw [← sentByBlock_iff, Bool.not_eq_true]

/-- The constraint test finds nothing exactly where every constraint of R233 holds. -/
theorem paramsViolation_none {p : Config.Params} : paramsViolation p = none ↔ Constraints p := by
  constructor
  · intro h
    unfold paramsViolation at h
    split_ifs at h with h1 h2 h3 h4 h5 h6 h7 h8
    refine ⟨h1, h2, fun hr => h3 (inRange_iff.mpr hr), Nat.not_lt.mp h4, Nat.not_lt.mp h5, BitVec.not_lt.mp h6,
      Nat.not_lt.mp h7, fun hv => encodable_iff.mp ?_⟩
    simpa [hv] using h8
  · rintro ⟨h1, h2, h3, h4, h5, h6, h7, h8⟩
    have h3' : inRange p p.powerDownFreq = false := inRange_eq_false.mpr h3
    have h8' : (p.verifyWhenDown && !encodable p.powerDownFreq) = false := by
      cases hv : p.verifyWhenDown
      · rfl
      · simp [encodable_iff.mpr (h8 hv)]
    have h4' : ¬ p.freqMin.toNat < Config.freqOffset := Nat.not_lt.mpr h4
    have h5' : ¬ Config.freqEncodableMax < p.freqMax.toNat := Nat.not_lt.mpr h5
    have h6' : ¬ p.freqMax < p.freqMin := BitVec.not_lt.mpr h6
    have h7' : ¬ p.adcBits < 11 := Nat.not_lt.mpr h7
    simp [paramsViolation, h1, h2, h3', h4', h5', h6', h7', h8']

/-! ## Sub-operations -/

theorem restLines_eq (s : State) :
    restLines s =
      { s with
        pins := ⟨true, false, false, .out⟩
        trace := s.trace ++ [.pin .sel true, .pin .clk false, .pin .data false] } := by
  simp [restLines, drive, dirOut, State.setPins, State.emit, Pins.drive]

/-- R152 (b): all that the power-down path does. -/
theorem powerDownPath_eq (now : Millis) (f : Word16) (s : State) :
    powerDownPath now f s =
      { s with
        driver := { s.driver with curFreq := f, poweredDown := true, lastWriteMs := now }
        pins := { s.pins with sel := true, clk := false, data := true }
        trace := s.trace ++ writeFrameEvents (wpCells s.params Config.powerMaskDown) } := by
  simp only [powerDownPath, sendWp_eq, State.setDriver]
  rfl

/-- R154: all that waking does. -/
theorem wake_eq (s : State) :
    wake s =
      { s with
        driver := { s.driver with poweredDown := false }
        pins := { s.pins with sel := true, clk := false, data := s.params.powerMaskNormal.getLsbD 19 }
        trace := s.trace ++ writeFrameEvents (wpCells s.params s.params.powerMaskNormal) } := by
  simp [wake, sendWp_eq, State.setDriver]

/-- R153: what the tuning path sends. -/
def tuningEvents (f : Word16) (s : State) : List Event :=
  (if s.driver.poweredDown then writeFrameEvents (wpCells s.params s.params.powerMaskNormal) else [])
    ++ writeFrameEvents (wfCells s.params s.params.freqRegAddr (encodeFreq f))

/-- R153: all that the tuning path does. -/
theorem tuningPath_eq (now : Millis) (f : Word16) (s : State) :
    tuningPath now f s =
      { s with
        driver := { s.driver with curFreq := f, recentlyChanged := true, poweredDown := false, lastWriteMs := now }
        pins := { s.pins with sel := true, clk := false, data := false }
        trace := s.trace ++ tuningEvents f s } := by
  cases h : s.driver.poweredDown
  · simp [tuningPath, tuningEvents, h, sendWf_eq, State.setDriver]
  · simp [tuningPath, tuningEvents, h, sendWf_eq, wake_eq, State.setDriver]

/-- R152: if `RX.SETFREQ` is not refused it is the no-op, the power-down path or the tuning path. -/
theorem setFreq_cases {now : Millis} {f : Word16} {s t : State} (h : setFreq now f s = .ok t) :
    s.driver.rxInit = true ∧
      (f = s.driver.curFreq ∧ t = s ∨
        f ≠ s.driver.curFreq ∧ f = s.params.powerDownFreq ∧ t = powerDownPath now f s ∨
        f ≠ s.driver.curFreq ∧ f ≠ s.params.powerDownFreq ∧ InRange s.params f ∧ t = tuningPath now f s) := by
  unfold setFreq at h
  split_ifs at h with h1 h2 h3 h4
  · exact ⟨by simpa using h1, .inl ⟨h2, (Except.ok.inj h).symm⟩⟩
  · exact ⟨by simpa using h1, .inr (.inl ⟨h2, h3, (Except.ok.inj h).symm⟩)⟩
  · exact ⟨by simpa using h1,
      .inr (.inr ⟨h2, h3, inRange_iff.mp (by simpa using h4), (Except.ok.inj h).symm⟩)⟩

/-- R158: all that one attempt does. -/
theorem verifyAttempt_eq (now : Millis) (s : State) :
    verifyAttempt now s =
      (decide (readBack (dataAnswers 20 s.env).1 = encodeFreq s.driver.curFreq),
        { s with
          driver :=
            { s.driver with
              lastWriteMs := now
              recentlyChanged :=
                if readBack (dataAnswers 20 s.env).1 = encodeFreq s.driver.curFreq then false
                else s.driver.recentlyChanged }
          pins := ⟨true, false, false, .out⟩
          trace := s.trace ++ readFrameEvents (rdCells s.params s.params.freqRegAddr)
          env := (dataAnswers 20 s.env).2 }) := by
  simp [verifyAttempt, sendRd_eq, State.setDriver]

/-- R158: an attempt that is not refused. -/
theorem verify_ok {now : Millis} {s : State} {r : Bool × State} :
    verify now s = .ok r ↔
      s.driver.rxInit = true ∧ HasEncoding s.driver.curFreq ∧ r = verifyAttempt now s := by
  unfold verify
  split_ifs with h1 h2
  · simp [h1]
  · have := encodable_eq_false.mp h2
    simp [this]
  · have h1' : s.driver.rxInit = true := by simpa using h1
    have h2' := encodable_iff.mp (by simpa using h2)
    rw [Except.ok.injEq]
    exact ⟨fun h => ⟨h1', h2', h.symm⟩, fun h => h.2.2.symm⟩

/-- R161: an amplitude read that is not refused. -/
theorem readRssi_cases {s : State} {r : Amp × State} (h : readRssi s = .ok r) :
    s.driver.rxInit = true ∧
      (s.driver.recentlyChanged = true ∧ r = (0#8, s) ∨
        s.driver.recentlyChanged = false ∧ r = (rescale s.params.rssiClampMax (adcRead s).1, (adcRead s).2)) := by
  unfold readRssi at h
  split_ifs at h with h1 h2
  · exact ⟨by simpa using h1, .inl ⟨h2, (Except.ok.inj h).symm⟩⟩
  · exact ⟨by simpa using h1, .inr ⟨by simpa using h2, (Except.ok.inj h).symm⟩⟩

/-- An analog draw touches the environment alone, and none of the levels of the data line. -/
theorem adcRead_frame (s : State) :
    ∃ v, (adcRead s).2 = { s with env := v } ∧ v.data = s.env.data := by
  rcases h : s.env.adc with _ | ⟨a, as⟩
  · exact ⟨{ s.env with draws := s.env.draws + 1 }, by simp [adcRead, h, State.setEnv], rfl⟩
  · exact ⟨{ s.env with adc := as }, by simp [adcRead, h, State.setEnv], rfl⟩

/-- R90: the rescaled value as a number, where it fits 8 bits. -/
theorem rescale_toNat {clamp raw : Nat} (h : min raw clamp / 8 ≤ 255) :
    (rescale clamp raw).toNat = min raw clamp / 8 := by
  have hv : min raw clamp >>> Config.rssiShift = min raw clamp / 8 := Nat.shiftRight_eq_div_pow _ _
  simp only [rescale, hv, if_pos h, BitVec.toNat_ofNat]
  omega

/-- Step 1 of R156: nothing, or the operation it invokes. -/
theorem housekeepCommit_cases {now : Millis} {f : Word16} {s t : State} (h : housekeepCommit now f s = .ok t) :
    ((f = s.driver.curFreq ∨ now - s.driver.lastWriteMs < s.params.tBusBusy) ∧ t = s) ∨
      f ≠ s.driver.curFreq ∧ s.params.tBusBusy ≤ now - s.driver.lastWriteMs ∧ setFreq now f s = .ok t := by
  unfold housekeepCommit at h
  split_ifs at h with h1
  · exact .inr ⟨h1.1, busFree_iff.mp h1.2, h⟩
  · refine .inl ⟨?_, (Except.ok.inj h).symm⟩
    by_contra hn
    rw [not_or, BitVec.not_lt] at hn
    exact h1 ⟨hn.1, busFree_iff.mpr hn.2⟩

/-- Step 2 of R156: nothing, or one attempt. -/
theorem housekeepVerify_cases {now : Millis} {s t : State} (h : housekeepVerify now s = .ok t) :
    (¬ AttemptDue s.params s.driver now ∧ t = s) ∨
      AttemptDue s.params s.driver now ∧ s.driver.rxInit = true ∧ HasEncoding s.driver.curFreq ∧
        t = (verifyAttempt now s).2 := by
  unfold housekeepVerify at h
  split_ifs at h with h1
  · right
    cases hv : verify now s with
    | error e => rw [hv] at h; exact absurd h (by simp [Except.map])
    | ok r =>
      rw [hv] at h
      obtain ⟨a, b, c⟩ := verify_ok.mp hv
      subst c
      exact ⟨verifyDue_iff.mp h1, a, b, (Except.ok.inj h).symm⟩
  · exact .inl ⟨fun hd => h1 (verifyDue_iff.mpr hd), (Except.ok.inj h).symm⟩

/-- R156: a housekeeping call that is not refused is its two steps. -/
theorem housekeep_cases {now : Millis} {f : Word16} {s t : State} (h : housekeep now f s = .ok t) :
    s.driver.rxInit = true ∧ Acceptable s f ∧
      ∃ s1, housekeepCommit now f s = .ok s1 ∧ housekeepVerify now s1 = .ok t := by
  unfold housekeep at h
  split_ifs at h with h1 h2
  refine ⟨by simpa using h1, ?_, ?_⟩
  · by_contra hn
    simp only [Acceptable, not_or] at hn
    exact h2 ⟨hn.1, hn.2.1, inRange_eq_false.mpr hn.2.2⟩
  · cases hc : housekeepCommit now f s with
    | error e => rw [hc] at h; exact absurd h (by simp [Except.bind])
    | ok s1 => rw [hc] at h; exact ⟨s1, rfl, h⟩

/-! ## Refusals -/

/-- R152: when `RX.SETFREQ` is refused. -/
theorem setFreq_error {now : Millis} {f : Word16} {s : State} {e : Refusal} (h : setFreq now f s = .error e) :
    e = .notInitialised .rx ∧ s.driver.rxInit = false ∨ e = .freqOutOfRange f ∧ ¬ Acceptable s f := by
  unfold setFreq at h
  split_ifs at h with h1 h2 h3 h4
  · exact .inl ⟨(Except.error.inj h).symm, h1⟩
  · refine .inr ⟨(Except.error.inj h).symm, ?_⟩
    simp only [Acceptable, not_or]
    exact ⟨h2, h3, inRange_eq_false.mp h4⟩

/-- R158: when an attempt is refused. -/
theorem verify_error {now : Millis} {s : State} {e : Refusal} (h : verify now s = .error e) :
    e = .notInitialised .rx ∧ s.driver.rxInit = false ∨
      e = .noFrequency s.driver.curFreq ∧ ¬ HasEncoding s.driver.curFreq := by
  unfold verify at h
  split_ifs at h with h1 h2
  · exact .inl ⟨(Except.error.inj h).symm, h1⟩
  · exact .inr ⟨(Except.error.inj h).symm, encodable_eq_false.mp h2⟩

/-- No operation of the driver other than `RX.INIT` writes its initialisation flag. -/
theorem housekeepCommit_rxInit {now : Millis} {f : Word16} {s t : State} (h : housekeepCommit now f s = .ok t) :
    t.driver.rxInit = s.driver.rxInit := by
  rcases housekeepCommit_cases h with ⟨_, rfl⟩ | ⟨_, _, h⟩
  · rfl
  · rcases (setFreq_cases h).2 with ⟨_, rfl⟩ | ⟨_, _, rfl⟩ | ⟨_, _, _, rfl⟩
    · rfl
    · rw [powerDownPath_eq]
    · rw [tuningPath_eq]

/-- R156: step 1 of an acceptable request is not refused. -/
theorem housekeepCommit_total {now : Millis} {f : Word16} {s : State} (hr : s.driver.rxInit = true)
    (ha : Acceptable s f) : ∃ t, housekeepCommit now f s = .ok t := by
  cases hc : housekeepCommit now f s with
  | ok t => exact ⟨t, rfl⟩
  | error e =>
    unfold housekeepCommit at hc
    split_ifs at hc
    rcases setFreq_error hc with ⟨_, h⟩ | ⟨_, h⟩
    · rw [hr] at h
      cases h
    · exact absurd ha h

/-- R156: when housekeeping is refused; the last case is the refusal of the attempt it invokes. -/
theorem housekeep_error {now : Millis} {f : Word16} {s : State} {e : Refusal} (h : housekeep now f s = .error e) :
    e = .notInitialised .rx ∧ s.driver.rxInit = false ∨
      e = .freqOutOfRange f ∧ ¬ Acceptable s f ∨
      s.driver.rxInit = true ∧ Acceptable s f ∧ ∃ s1, housekeepCommit now f s = .ok s1 ∧
        AttemptDue s1.params s1.driver now ∧ e = .noFrequency s1.driver.curFreq ∧
        ¬ HasEncoding s1.driver.curFreq := by
  unfold housekeep at h
  split_ifs at h with h1 h2
  · exact .inl ⟨(Except.error.inj h).symm, h1⟩
  · refine .inr (.inl ⟨(Except.error.inj h).symm, ?_⟩)
    simp only [Acceptable, not_or]
    exact ⟨h2.1, h2.2.1, inRange_eq_false.mp h2.2.2⟩
  · have hr : s.driver.rxInit = true := by simpa using h1
    have ha : Acceptable s f := by
      by_contra hn
      simp only [Acceptable, not_or] at hn
      exact h2 ⟨hn.1, hn.2.1, inRange_eq_false.mpr hn.2.2⟩
    obtain ⟨s1, hc⟩ := housekeepCommit_total (now := now) hr ha
    rw [hc] at h
    change housekeepVerify now s1 = _ at h
    unfold housekeepVerify at h
    split_ifs at h with hd
    cases hv : verify now s1 with
    | ok r =>
      rw [hv] at h
      cases h
    | error e1 =>
      rw [hv] at h
      cases h
      rcases verify_error hv with ⟨_, hn⟩ | ⟨he, hn⟩
      · rw [housekeepCommit_rxInit hc, hr] at hn
        cases hn
      · exact .inr (.inr ⟨hr, ha, s1, hc, verifyDue_iff.mp hd, he, hn⟩)

/-! ## Shapes: which fields a driver operation can change -/

/-- `RX.SETFREQ` writes the driver, the lines and the trace alone. -/
theorem setFreq_shape {now : Millis} {f : Word16} {s t : State} (h : setFreq now f s = .ok t) :
    ∃ d p tr, t = { s with driver := d, pins := p, trace := tr } := by
  rcases (setFreq_cases h).2 with ⟨_, rfl⟩ | ⟨_, _, rfl⟩ | ⟨_, _, _, rfl⟩
  · exact ⟨_, _, _, rfl⟩
  · rw [powerDownPath_eq]
    exact ⟨_, _, _, rfl⟩
  · rw [tuningPath_eq]
    exact ⟨_, _, _, rfl⟩

/-- Housekeeping writes the driver, the lines, the trace and the digital answers alone. -/
theorem housekeep_shape {now : Millis} {f : Word16} {s t : State} (h : housekeep now f s = .ok t) :
    ∃ d p tr v, t = { s with driver := d, pins := p, trace := tr, env := v } ∧ v.adc = s.env.adc := by
  obtain ⟨_, _, s1, h1, h2⟩ := housekeep_cases h
  have hs : ∃ d p tr, s1 = { s with driver := d, pins := p, trace := tr } := by
    rcases housekeepCommit_cases h1 with ⟨_, rfl⟩ | ⟨_, _, h⟩
    · exact ⟨_, _, _, rfl⟩
    · exact setFreq_shape h
  obtain ⟨d, p, tr, rfl⟩ := hs
  rcases housekeepVerify_cases h2 with ⟨_, rfl⟩ | ⟨_, _, _, rfl⟩
  · exact ⟨_, _, _, _, rfl, rfl⟩
  · rw [verifyAttempt_eq]
    exact ⟨_, _, _, _, rfl, dataAnswers_adc _ _⟩

/-- R161: an amplitude read as one case distinction. -/
theorem readRssi_eq (s : State) :
    readRssi s =
      if s.driver.rxInit = false then .error (.notInitialised .rx)
      else .ok
        (if s.driver.recentlyChanged = true then (0#8, s)
        else (rescale s.params.rssiClampMax (adcRead s).1, (adcRead s).2)) := by
  unfold readRssi
  split_ifs <;> rfl

end Sys2Proof.Machine
end

