-- ==== Sys2Proof/Laws/RxRef.lean ====
section
/-! SUPPORT. What the reference receiver answers to a read frame and stores from a write frame, said once
(`spec/41_receiver_bus.md` rules R140, R141). -/

namespace Sys2Proof.Machine

/-- R140: data bit k of a register, complemented while failures remain. -/
def RxRef.dataBit (r : RxRef) (addr : RegAddr) (k : Nat) : Bool :=
  (Memory.read r.regs addr.toNat).getLsbD k != decide (0 < r.fail)

/-- The address cells of a frame give the address back. -/
theorem cellsAddr_addrCells (addr : RegAddr) (cells : List Bool) : cellsAddr (addrCells addr ++ cells) = addr.toNat := by
  have h : ∀ a : BitVec 4, bitsToNat (addrCells a) = a.toNat := by decide
  have hl : (addrCells addr).length = 4 := by simp [addrCells]
  rw [cellsAddr, List.take_left' hl, h]

/-- One driven cell. -/
theorem answersOver_cell (p : Config.Params) (b : Bool) (es : List Event) {r : RxRef} (s : State)
    (hs : r.sel = false) (hc : r.clk = false) :
    r.answersOver p (cellEvents b ++ es) s =
      RxRef.answersOver p es { r with data := b, input := false, cells := r.cells ++ [b] } s := by
  cases r
  cases hs
  cases hc
  simp [cellEvents, RxRef.answersOver, RxRef.observe, RxRef.level]

/-- The driven cells of a frame, the last one apart. -/
theorem answersOver_cells (p : Config.Params) (bs : List Bool) (b : Bool) (es : List Event) (s : State) :
    ∀ {r : RxRef}, r.sel = false → r.clk = false →
    r.answersOver p ((bs ++ [b]).flatMap cellEvents ++ es) s =
      RxRef.answersOver p es { r with data := b, input := false, cells := r.cells ++ (bs ++ [b]) } s := by
  induction bs with
  | nil => intro r hs hc; simp [answersOver_cell p b es s hs hc]
  | cons c cs ih =>
    intro r hs hc
    rw [List.cons_append, List.flatMap_cons, List.append_assoc, answersOver_cell p c _ s hs hc,
      ih (r := { r with data := c, input := false, cells := r.cells ++ [c] }) hs hc]
    simp

/-- The sampled cells of a read frame, n of them left. -/
theorem answersOver_sampled (p : Config.Params) (addr : RegAddr) (s : State) (n : Nat) :
    ∀ (k : Nat) (got : List Bool) (r : RxRef), k + n = 20 → got.length = k → r.sel = false → r.clk = false →
      r.input = true → r.cells = addrCells addr ++ [p.readInd] ++ got →
      r.answersOver p ((List.replicate n clockEvents).flatten ++ [.pin .data false, .pin .sel true]) s =
        ((List.range' k n).map (r.dataBit addr), s) := by
  induction n with
  | zero => intro k got r _ _ _ _ _ _; simp [RxRef.answersOver]
  | succ n ih =>
    intro k got r hk hg hs hc hi hcells
    have hl : r.cells.length = 5 + k := by simp [hcells, addrCells, hg]; omega
    have h4 : r.cells[4]? = some p.readInd := by simp [hcells, addrCells]
    have ha : r.answer p = some (r.dataBit addr k) := by
      have hadr : cellsAddr r.cells = addr.toNat := by rw [hcells, List.append_assoc, cellsAddr_addrCells]
      rw [RxRef.answer, if_pos ⟨hs, by omega, by omega, h4⟩, hadr, hl, Nat.add_sub_cancel_left]
      rfl
    obtain ⟨r', hr'⟩ : ∃ r', r' = { r with cells := r.cells ++ [r.dataBit addr k] } := ⟨_, rfl⟩
    have hnext : (r.observe p (.pin .clk true)).observe p (.pin .clk false) = r' := by
      cases r
      cases hs
      cases hc
      cases hi
      simp [RxRef.observe, RxRef.level, ha, hr']
    have hrest := ih (k + 1) (got ++ [r.dataBit addr k]) r' (by omega) (by simp [hg]) (by simp [hr', hs])
      (by simp [hr', hc]) (by simp [hr', hi]) (by simp [hr', hcells])
    have hbit : r'.dataBit addr = r.dataBit addr := by rw [hr']; rfl
    have hone : ∀ es, r.answersOver p (clockEvents ++ es) s
        = (r.dataBit addr k :: (r'.answersOver p es s).1, (r'.answersOver p es s).2) := by
      intro es
      simp [clockEvents, RxRef.answersOver, hi, ha, hnext]
    rw [List.replicate_succ, List.flatten_cons, List.append_assoc, hone, hrest, List.range'_succ, hbit, List.map_cons]

/-- R140, R141: the receiver at rest answers a read frame with the 20 data bits of the register it addresses. -/
theorem answersOver_read (p : Config.Params) (r : RxRef) (addr : RegAddr) (s : State) (hs : r.sel = true)
    (hc : r.clk = false) :
    r.answersOver p (readFrameEvents (rdCells p addr)) s = ((List.range 20).map (r.dataBit addr), s) := by
  have h1 : ∀ es, r.answersOver p (.pin .sel true :: .pin .sel false :: es) s
      = RxRef.answersOver p es { r with sel := false, cells := [] } s := by
    intro es
    simp [RxRef.answersOver, RxRef.observe, hs]
  rw [readFrameEvents, rdCells]
  simp only [List.append_assoc, List.cons_append, List.nil_append, h1]
  rw [answersOver_cells p (addrCells addr) p.readInd _ s (r := { r with sel := false, cells := [] }) rfl hc,
    RxRef.answersOver, if_neg (by simp),
    answersOver_sampled p addr s 20 0 [] _ rfl rfl (by rfl) (by exact hc) (by rfl) (by simp [RxRef.observe]),
    List.range_eq_range']
  rfl

/-! ## Write frames -/

theorem observeAll_append (p : Config.Params) (es fs : List Event) :
    ∀ r : RxRef, r.observeAll p (es ++ fs) = (r.observeAll p es).observeAll p fs := by
  induction es with
  | nil => intro r; rfl
  | cons e es ih => intro r; exact ih _

theorem observeAll_cells (p : Config.Params) (bs : List Bool) (b : Bool) :
    ∀ {r : RxRef}, r.sel = false → r.clk = false →
    r.observeAll p ((bs ++ [b]).flatMap cellEvents) =
      { r with data := b, input := false, cells := r.cells ++ (bs ++ [b]) } := by
  have one : ∀ (c : Bool) {r : RxRef}, r.sel = false → r.clk = false →
      r.observeAll p (cellEvents c) = { r with data := c, input := false, cells := r.cells ++ [c] } := by
    intro c r hs hc
    cases r
    cases hs
    cases hc
    simp [cellEvents, RxRef.observeAll, RxRef.observe, RxRef.level]
  induction bs with
  | nil => intro r hs hc; simp [one b hs hc]
  | cons c cs ih =>
    intro r hs hc
    rw [List.cons_append, List.flatMap_cons, observeAll_append, one c hs hc,
      ih (r := { r with data := c, input := false, cells := r.cells ++ [c] }) hs hc]
    simp

/-- R140: the receiver at rest stores what a write frame carries, and is at rest again. -/
theorem observeAll_write (p : Config.Params) (bs : List Bool) (b : Bool) {r : RxRef} (hs : r.sel = true)
    (hc : r.clk = false) (hl : bs.length = 24) (hw : (bs ++ [b])[4]? = some p.writeInd) :
    r.observeAll p (writeFrameEvents (bs ++ [b])) =
      { r with
        regs := Memory.write r.regs (cellsAddr (bs ++ [b])) (BitVec.ofNat 20 (bitsToNat (cellsData p (bs ++ [b]))))
        data := b
        input := false
        cells := [] } := by
  have h1 : ∀ es, r.observeAll p (.pin .sel true :: .pin .sel false :: es)
      = RxRef.observeAll p es { r with sel := false, cells := [] } := by
    intro es
    simp [RxRef.observeAll, RxRef.observe, hs]
  have hl' : (bs ++ [b]).length = 25 := by simp [hl]
  rw [writeFrameEvents, List.append_assoc, List.cons_append, List.cons_append, List.nil_append, h1, observeAll_append,
    observeAll_cells p bs b (r := { r with sel := false, cells := [] }) rfl hc]
  simp only [List.nil_append, RxRef.observeAll, RxRef.observe, RxRef.endFrame, Bool.not_false, Bool.and_true, hl', hw,
    if_true, hs]

end Sys2Proof.Machine
end

