-- ==== Sys2Proof/Laws/SignalFilter.lean ====
section
/-! SUPPORT. What the filter step does: the ranges and the position of the new estimate (R115, R116). -/

namespace Sys2Proof.Machine

variable (qc rc p : Fixed32) (x : Estimate) (m : Amp)

theorem gain_eq : gain qc rc p = predicted qc p * 65536 / (predicted qc p + rc.toNat) := by
  simp [gain, Nat.shiftLeft_eq]

/-- R115: the gain is at most 1.0. -/
theorem gain_le : gain qc rc p ≤ 65536 := by
  rw [gain_eq]
  apply Nat.div_le_of_le_mul
  have : predicted qc p * 65536 ≤ (predicted qc p + rc.toNat) * 65536 :=
    Nat.mul_le_mul_right _ (Nat.le_add_right _ _)
  omega

/-- The floor of `d * k / 65536` lies between 0 and d when `0 ≤ k ≤ 65536`. -/
theorem floor_between {d k : Int} (hk0 : 0 ≤ k) (hk1 : k ≤ 65536) :
    (0 ≤ d → 0 ≤ Int.fdiv (d * k) 65536 ∧ Int.fdiv (d * k) 65536 ≤ d) ∧
      (d ≤ 0 → d ≤ Int.fdiv (d * k) 65536 ∧ Int.fdiv (d * k) 65536 ≤ 0) := by
  rw [Int.fdiv_eq_ediv_of_nonneg _ (by decide)]
  constructor
  · intro hd
    have h1 : 0 ≤ d * k := Int.mul_nonneg hd hk0
    have h2 : d * k ≤ d * 65536 := Int.mul_le_mul_of_nonneg_left hk1 hd
    omega
  · intro hd
    have h1 : d * k ≤ 0 := Int.mul_nonpos_of_nonpos_of_nonneg hd hk0
    have h2 : d * 65536 ≤ d * k := Int.mul_le_mul_of_nonpos_left hd hk1
    omega

/-- R116, before narrowing: the new estimate lies between the old one and the measurement. -/
theorem nextEstimate_between :
    (x.toNat ≤ m.toNat * 65536 →
      (x.toNat : Int) ≤ nextEstimate qc rc x p m ∧ nextEstimate qc rc x p m ≤ (m.toNat * 65536 : Nat)) ∧
    (m.toNat * 65536 ≤ x.toNat →
      ((m.toNat * 65536 : Nat) : Int) ≤ nextEstimate qc rc x p m ∧ nextEstimate qc rc x p m ≤ x.toNat) := by
  have hk := gain_le qc rc p
  have h := @floor_between (((m.toNat * 65536 : Nat) : Int) - (x.toNat : Int)) (gain qc rc p : Int)
    (Int.natCast_nonneg _) (by exact_mod_cast hk)
  unfold nextEstimate
  constructor
  · intro hx
    have := h.1 (by omega)
    omega
  · intro hx
    have := h.2 (by omega)
    omega

/-- The new estimate fits its 24 bits. -/
theorem nextEstimate_range : 0 ≤ nextEstimate qc rc x p m ∧ nextEstimate qc rc x p m < 2 ^ 24 := by
  have hx := x.isLt
  have hm := m.isLt
  have h := nextEstimate_between qc rc p x m
  rcases Nat.le_total x.toNat (m.toNat * 65536) with hle | hle
  · have := h.1 hle
    omega
  · have := h.2 hle
    omega

/-- The estimate register holds the exact value. -/
theorem fixedStep_estimate : ((fixedStep qc rc x p m).1.toNat : Int) = nextEstimate qc rc x p m := by
  have h := nextEstimate_range qc rc p x m
  simp only [fixedStep, BitVec.toNat_ofInt]
  rw [Int.emod_eq_of_lt h.1 (by exact_mod_cast h.2)]
  exact Int.toNat_of_nonneg h.1

/-- R115: the new uncertainty is below the measurement noise, where that is not 0. -/
theorem nextUncertainty_lt (h : 1 ≤ rc.toNat) : nextUncertainty qc rc p < rc.toNat := by
  unfold nextUncertainty
  rw [Nat.div_lt_iff_lt_mul (by omega)]
  exact Nat.mul_lt_mul_of_pos_left (by omega) (by omega)

/-- The uncertainty register holds the exact value. -/
theorem fixedStep_uncertainty (h : 1 ≤ rc.toNat) : (fixedStep qc rc x p m).2.toNat = nextUncertainty qc rc p := by
  have h1 := nextUncertainty_lt qc rc p h
  have h2 := rc.isLt
  simp only [fixedStep, BitVec.toNat_ofNat]
  exact Nat.mod_eq_of_lt (by omega)

/-- The open step's estimate rounds to at most 255. -/
theorem openStep_range : (openStep qc rc x p m).1.toNat < 0xFF8000 := by
  simp only [openStep]
  split
  · rename_i h
    simpa [BitVec.lt_def] using h
  · decide

/-- R114: an update of an initialised filter. -/
theorem filterUpdate_eq {m : Amp} {s : State} (h : s.filter.fltInit = true) :
    filterUpdate m s =
      .ok ((filterStep s.params.numerics s.filter.qc s.filter.rc s.filter.x s.filter.p m).1,
        { s with
          filter :=
            { s.filter with
              x := (filterStep s.params.numerics s.filter.qc s.filter.rc s.filter.x s.filter.p m).1
              p := (filterStep s.params.numerics s.filter.qc s.filter.rc s.filter.x s.filter.p m).2 } }) := by
  simp [filterUpdate, h, State.setFilter]

/-- R114: an update that is not refused. -/
theorem filterUpdate_cases {m : Amp} {s : State} {r : Estimate × State} (h : filterUpdate m s = .ok r) :
    s.filter.fltInit = true ∧
      r = ((filterStep s.params.numerics s.filter.qc s.filter.rc s.filter.x s.filter.p m).1,
        s.setFilter { s.filter with
          x := (filterStep s.params.numerics s.filter.qc s.filter.rc s.filter.x s.filter.p m).1
          p := (filterStep s.params.numerics s.filter.qc s.filter.rc s.filter.x s.filter.p m).2 }) := by
  unfold filterUpdate at h
  split_ifs at h with h1
  exact ⟨by simpa using h1, (Except.ok.inj h).symm⟩

/-- R112, R115: the ranges of the two coefficients. -/
theorem scaleQ_toNat (rawQ : BitVec 16) : (scaleQ rawQ).toNat = (rawQ.toNat * 65536 + 5000) / 10000 := by
  have := rawQ.isLt
  simp only [scaleQ, BitVec.toNat_ofNat]
  omega

theorem scaleR_toNat (rawR : BitVec 16) : (scaleR rawR).toNat = (rawR.toNat * 65536 + 50) / 100 := by
  have := rawR.isLt
  simp only [scaleR, BitVec.toNat_ofNat]
  omega

end Sys2Proof.Machine
end

