-- ==== Sys2Proof/Laws/Step.lean ====
section
/-! SUPPORT. What an answer can be, what a tick can do, and what one step can do, each said once. -/

namespace Sys2Proof.Machine

/-! ## Answers -/

theorem completeOr_eq_next {r : Except Refusal (BitVec 32 × State)} {t : State} :
    completeOr r = .next t ↔ ∃ x, r = .ok x ∧ t = x.2.setRet x.1 := by
  cases r <;> simp [completeOr, complete, eq_comm]

theorem completeOr_eq_refused {r : Except Refusal (BitVec 32 × State)} {e : Refusal} :
    completeOr r = .refused e ↔ r = .error e := by
  cases r <;> simp [completeOr, complete]

theorem map_eq_ok {α β : Type} {f : α → β} {r : Except Refusal α} {x : β} :
    r.map f = .ok x ↔ ∃ y, r = .ok y ∧ x = f y := by
  cases r <;> simp [Except.map, eq_comm]

theorem map_eq_error {α β : Type} {f : α → β} {r : Except Refusal α} {e : Refusal} :
    r.map f = .error e ↔ r = .error e := by
  cases r <;> simp [Except.map]

/-! ## The tick -/

/-- R184: a tick that is not refused is the read, the filter's update and the engine's step; the read changes
the environment alone. -/
theorem lapTickOp_cases {now : Millis} {s t : State} (h : lapTickOp now s = .ok t) :
    s.driver.rxInit = true ∧ s.filter.fltInit = true ∧ ∃ m v est f,
      readRssi s = .ok (m, { s with env := v }) ∧ v.data = s.env.data ∧
      filterUpdate m { s with env := v } = .ok (est, { s with env := v, filter := f }) ∧
      t = lapStepOp now (roundEst est) { s with env := v, filter := f } := by
  unfold lapTickOp at h
  split_ifs at h with h1 h2
  have h1' : s.driver.rxInit = true := by simpa using h1
  have h2' : s.filter.fltInit = true := by simpa using h2
  refine ⟨h1', h2', ?_⟩
  have hread : ∃ m v, readRssi s = .ok (m, { s with env := v }) ∧ v.data = s.env.data := by
    rw [readRssi_eq, if_neg h1]
    by_cases hr : s.driver.recentlyChanged = true
    · rw [if_pos hr]
      exact ⟨_, s.env, rfl, rfl⟩
    · obtain ⟨v, hv, hd⟩ := adcRead_frame s
      rw [if_neg hr, hv]
      exact ⟨_, v, rfl, hd⟩
  obtain ⟨m, v, hm, hd⟩ := hread
  have hf := filterUpdate_eq (m := m) (s := { s with env := v }) h2'
  refine ⟨m, v, _, _, hm, hd, hf, ?_⟩
  rw [hm] at h
  simp only [Except.bind, hf, Except.map] at h
  exact (Except.ok.inj h).symm

/-- R184: when a tick is refused. -/
theorem lapTickOp_error {now : Millis} {s : State} {e : Refusal} (h : lapTickOp now s = .error e) :
    e = .notInitialised .rx ∧ s.driver.rxInit = false ∨
      e = .notInitialised .flt ∧ s.driver.rxInit = true ∧ s.filter.fltInit = false := by
  unfold lapTickOp at h
  split_ifs at h with h1 h2
  · exact .inl ⟨(Except.error.inj h).symm, h1⟩
  · exact .inr ⟨(Except.error.inj h).symm, by simpa using h1, h2⟩
  · rw [readRssi_eq, if_neg h1] at h
    by_cases hr : s.driver.recentlyChanged = true
    · simp [hr, Except.bind, Except.map, filterUpdate, h2] at h
    · obtain ⟨v, hv, -⟩ := adcRead_frame s
      simp [hr, hv, Except.bind, Except.map, filterUpdate, h2] at h

/-! ## The step -/

/-- Every way a step can answer a next state. -/
theorem step_cases {s t : State} (h : step s = .next t) :
    Constraints s.params ∧
      (s.arrivals = [] ∧ t = s ∨
        (∃ c rest, s.arrivals = .inputs c :: rest ∧ t = { s with cfg := c, arrivals := rest }) ∨
        (∃ rest, s.arrivals = .reset :: rest ∧ t = takeReset rest s) ∨
        ∃ w rest i, s.arrivals = .request w false :: rest ∧ decode s.params w = .ok i ∧
          BlockSends s.params i ∧ exec i (s.setArrivals rest) = .next t) := by
  cases hp : paramsViolation s.params with
  | some v => simp [step, service, hp] at h
  | none =>
    refine ⟨paramsViolation_none.mp hp, ?_⟩
    match ha : s.arrivals with
    | [] =>
      simp only [step, service, hp, ha, Host.Outcome.next.injEq] at h
      exact .inl ⟨rfl, h.symm⟩
    | .inputs c :: rest =>
      simp only [step, service, hp, ha, Host.Outcome.next.injEq] at h
      exact .inr (.inl ⟨c, rest, rfl, h.symm⟩)
    | .reset :: rest =>
      simp only [step, service, hp, ha, Host.Outcome.next.injEq] at h
      exact .inr (.inr (.inl ⟨rest, rfl, h.symm⟩))
    | .request w early :: rest =>
      cases hd : decode s.params w with
      | error e => simp [step, service, hp, ha, serveRequest, hd] at h
      | ok i =>
        cases hf : sentByBlock s.params i with
        | false => simp [step, service, hp, ha, serveRequest, hd, hf] at h
        | true =>
          cases early with
          | true => simp [step, service, hp, ha, serveRequest, hd, hf] at h
          | false =>
            simp [step, service, hp, ha, serveRequest, hd, hf] at h
            exact .inr (.inr (.inr ⟨w, rest, i, rfl, hd, sentByBlock_iff.mp hf, h⟩))

end Sys2Proof.Machine
end

