-- ==== Sys2Proof/Tests/Slice0.lean ====
section
/-! SUPPORT. Tests on fixed values. Every expected value is taken from `spec/95_test_vectors.md` (the vector is
named) or computed by hand from the rule named; each `witness_` theorem shows a state and operands that meet
the hypotheses of the obligation it is named after. -/

namespace Sys2Proof.Tests

open Sys2Proof Sys2Proof.Machine

/-! ## Helpers -/

/-- The state an answer holds, the reset state where it holds none. -/
def after : Host.Outcome State Fault Refusal → State
  | .next s => s
  | .fault _ => State.reset
  | .refused _ => State.reset

/-- The refusal an answer holds. -/
def refusal : Host.Outcome State Fault Refusal → Option Refusal
  | .next _ => none
  | .fault _ => none
  | .refused r => some r

/-- The configuration inputs the vectors use. -/
def inputs : Config.Inputs := { inputsAtReset with enterRssi := 120#8, minDelta := 6#8 }

/-- The inputs of vector L5 with a given policy. -/
def inputsL5 (policy : BitVec 4) : Config.Inputs :=
  { inputs with exitRssi := 100#8, minLapMs := 2000#32, policy := policy }

/-- The engine in a given timer state with a given candidate. -/
def engineIn (t : TimerState) (k : Candidate) : State :=
  { State.reset with cfg := inputs, engine := { Engine.reset with timerState := t, cand := k } }

/-- The engine in `RUNNING` with its lap started at 10, as in vector L5. -/
def running (policy : BitVec 4) (k : Candidate) : State :=
  { State.reset with
    cfg := inputsL5 policy
    engine := { Engine.reset with timerState := .running, cand := k, lapStart := 10#32, cbRegistered := true } }

/-- The driver in a given state, initialised. -/
def driverIn (f : Word16) (last : Millis) (changed down : Bool) : State :=
  { State.reset with driver := ⟨f, last, changed, down, true⟩ }

/-- The 20 samples that read back as 0x2984 (vector E2). -/
def samples2984 : List Bool :=
  [false, false, true, false, false, false, false, true, true, false, false, true, false, true, false, false,
    true, true, true, true]

/-- The driver tuned to 5800 at 1000, the receiver about to answer 0x2984. -/
def awaiting : State := { driverIn 5800#16 1000#32 true false with env := ⟨samples2984, [], 0⟩ }

/-- The filter after `FLT.INIT(100, 100)` (vector F1). -/
def filtering : State := { State.reset with filter := ⟨0#24, 65536#32, 655#32, 65536#32, true⟩ }

/-- Both components initialised, the frequency settled, two analog values to come. -/
def ticking : State :=
  { filtering with driver := ⟨5800#16, 1035#32, false, false, true⟩, env := ⟨[], [800, 0], 0⟩ }

/-! ## Well-formedness -/

/-- A frequency write to the power-control register has no encoding of its own (R82, R84). -/
theorem test_wf_refuses_power_address : Instr.wellFormed Config.testDefaults (.frameWf 0xA#4 0x2984#16) = false := by
  decide

theorem test_wf_accepts_frequency_address : Instr.wellFormed Config.testDefaults (.frameWf 0x1#4 0x2984#16) = true := by
  decide

/-! ## Decoding: every row's word written out from its encoding -/

/-- R92, vector E5: `FLT.INIT(2000, 40)`. -/
theorem test_decode_fltInit : decodeTableWord 72 0x0100000000002807D0 = some (.fltInit 2000#16 40#16) := by decide
/-- Vector E5: `FLT.STEP(255)`. -/
theorem test_decode_fltStep : decodeTableWord 72 0x0200000000000000FF = some (.fltStep 255#8) := by decide
/-- Program P2. -/
theorem test_decode_rxInit : decodeTableWord 72 0x040000000000000000 = some .rxInit := by decide
/-- R93: `RX.SETFREQ(1000, 5800)`. -/
theorem test_decode_rxSetfreq : decodeTableWord 72 0x05000003E8000016A8 = some (.rxSetfreq 1000#32 5800#16) := by decide
/-- Vector E5: `RX.HOUSEKEEP(1000, 5800)`. -/
theorem test_decode_rxHousekeep :
    decodeTableWord 72 0x06000003E8000016A8 = some (.rxHousekeep 1000#32 5800#16) := by decide
/-- R93. -/
theorem test_decode_rxReadrssi : decodeTableWord 72 0x070000000000000000 = some .rxReadrssi := by decide
/-- R93: `RX.VERIFY(1035)`. -/
theorem test_decode_rxVerify : decodeTableWord 72 0x080000040B00000000 = some (.rxVerify 1035#32) := by decide
/-- Program P1. -/
theorem test_decode_lapStart : decodeTableWord 72 0x100000000000000000 = some .lapStart := by decide
/-- Program P3. -/
theorem test_decode_lapStop : decodeTableWord 72 0x110000000000000000 = some .lapStop := by decide
/-- Program P4: `LAP.TICK(1001)`. -/
theorem test_decode_lapTick : decodeTableWord 72 0x12000003E900000000 = some (.lapTick 1001#32) := by decide
/-- Vector E5: the ignored bits of `arg`. -/
theorem test_decode_lapStep : decodeTableWord 72 0x1300000014FFFFFF82 = some (.lapStep 20#32 130#8) := by decide
/-- Program P1. -/
theorem test_decode_lapGetrssi : decodeTableWord 72 0x140000000000000000 = some .lapGetrssi := by decide
/-- Program P1. -/
theorem test_decode_lapAvail : decodeTableWord 72 0x150000000000000000 = some .lapAvail := by decide
/-- Program P3. -/
theorem test_decode_lapGettime : decodeTableWord 72 0x160000000000000000 = some .lapGettime := by decide
/-- Vector E5: `LAP.SETCB(1)`. -/
theorem test_decode_lapSetcb : decodeTableWord 72 0x170000000000000001 = some (.lapSetcb true) := by decide
/-- Program P6. -/
theorem test_decode_calNstart : decodeTableWord 72 0x180000000000000000 = some .calNstart := by decide
/-- Program P6. -/
theorem test_decode_calNstop : decodeTableWord 72 0x190000000000000000 = some .calNstop := by decide
/-- Program P6. -/
theorem test_decode_calXstart : decodeTableWord 72 0x1A0000000000000000 = some .calXstart := by decide
/-- Program P6. -/
theorem test_decode_calXstop : decodeTableWord 72 0x1B0000000000000000 = some .calXstop := by decide
/-- Vector B1: the frame that tunes to 5800. -/
theorem test_decode_frameWf :
    decodeTableWord 32 0b1000100101001100001000000 = some (.frameWf 0x1#4 0x2984#16) := by decide
/-- Vector B4: the frame of normal operation. -/
theorem test_decode_frameWp : decodeTableWord 32 0b0101111001111101100001011 = some (.frameWp 0xD0DF3#20) := by decide
/-- Vector B5: a read of register 1, with the sampled cells as on the wire. -/
theorem test_decode_frameRd : decodeTableWord 32 0b1000000100001100101000000 = some (.frameRd 0x1#4) := by decide
/-- Vector B3: the other payload order. -/
theorem test_decode_lsb_first :
    decode { Config.testDefaults with payloadMsbFirst := false } (.frame 0b1000110111000000101000000#25)
      = .ok (.frameWf 0x1#4 0x281D#16) := by rfl
/-- Vector E5: a reserved code. -/
theorem test_decode_reserved : decodeTableWord 72 0x0F0000000000000000 = none := by decide
/-- R80: a frequency write whose pad cells are not 0 is no frame. -/
theorem test_decode_bad_pad : decodeTableWord 32 0b1000100101001100001000001 = none := by decide
/-- Vector B1: the encoder writes the same word. -/
theorem test_encode_frameWf :
    encode Config.testDefaults (.frameWf 0x1#4 0x2984#16) = .frame 0b1000100101001100001000000#25 := by decide

/-! ## Value assembly -/

/-- Vector E1. -/
theorem test_encodeFreq :
    [479#16, 480#16, 1111#16, 5658#16, 5800#16, 5917#16, 33246#16].map encodeFreq
      = [0x0000#16, 0x0000#16, 0x049C#16, 0x281D#16, 0x2984#16, 0x2A1F#16, 0xFF9F#16] := by decide
/-- Vector E3. -/
theorem test_rescale :
    [0, 7, 8, 1043, 2047, 2048, 4095].map (rescale 2047) = [0#8, 0#8, 1#8, 130#8, 255#8, 255#8, 255#8] := by decide
/-- R90 by hand: another clamp. -/
theorem test_rescale_clamp : [999, 1000, 1001, 4095].map (rescale 1000) = [124#8, 125#8, 125#8, 125#8] := by decide
/-- Vector E2. -/
theorem test_readBack : readBack samples2984 = 0x2984#16 := by decide
/-- Vector E4. -/
theorem test_scale :
    [0#16, 1#16, 100#16, 2000#16, 65535#16].map scaleQ = [0#32, 7#32, 655#32, 13107#32, 429490#32] ∧
    [1#16, 40#16, 100#16, 65535#16].map scaleR = [655#32, 26214#32, 65536#32, 42949018#32] := by decide
/-- Vector F6. -/
theorem test_roundEst : [0x327FFF#24, 0x328000#24, 0xFF0000#24].map roundEst = [50#8, 51#8, 255#8] := by decide

/-! ## One step of each instruction -/

/-- Vector F2, row 0. -/
theorem test_fltInit :
    (after (exec (.fltInit 2000#16 40#16) State.reset)).filter = ⟨0#24, 65536#32, 13107#32, 26214#32, true⟩ := by decide
/-- Vector F6. -/
theorem test_fltInit_zero :
    refusal (exec (.fltInit 5#16 0#16) State.reset) = some (.badCoefficient 0#16) := by decide
/-- Vector F1, step 6: a negative difference floors. -/
theorem test_fltStep :
    (after (exec (.fltStep 0#8)
      { filtering with filter := ⟨5522307#24, 11893#32, 655#32, 65536#32, true⟩ })).filter
      = ⟨4634925#24, 10531#32, 655#32, 65536#32, true⟩ := by decide
/-- Vector F4, step 1: the largest coefficients. -/
theorem test_fltStep_large :
    (after (exec (.fltStep 255#8)
      { filtering with filter := ⟨0#24, 65536#32, 429490#32, 42949018#32, true⟩ })).filter
      = ⟨190230#24, 489385#32, 429490#32, 42949018#32, true⟩ := by decide
/-- Vector T1: 81 events, and the driver's state. -/
theorem test_rxInit :
    (after (exec .rxInit State.reset)).driver = ⟨0#16, 0#32, false, false, true⟩ ∧
      (after (exec .rxInit State.reset)).trace.length = 81 := by decide
/-- Vector T3: power down leaves the flag. -/
theorem test_rxSetfreq_down :
    (after (exec (.rxSetfreq 50#32 1111#16) (driverIn 5800#16 10#32 false false))).driver
      = ⟨1111#16, 50#32, false, true, true⟩ := by decide
/-- Vector T3: waking and tuning set the flag. -/
theorem test_rxSetfreq_wake :
    (after (exec (.rxSetfreq 90#32 5658#16) (driverIn 1111#16 50#32 false true))).driver
      = ⟨5658#16, 90#32, true, false, true⟩ := by decide
/-- Vector T5: the elapsed time wraps; 29 is too early. -/
theorem test_rxHousekeep_early :
    exec (.rxHousekeep 0xD#32 5800#16) (driverIn 0#16 0xFFFFFFF0#32 false false)
      = .next (driverIn 0#16 0xFFFFFFF0#32 false false) := by rfl
/-- Vector T4: a verification at 35 with a match. -/
theorem test_rxHousekeep_verify :
    (after (exec (.rxHousekeep 1035#32 5800#16) awaiting)).driver = ⟨5800#16, 1035#32, false, false, true⟩ := by decide
/-- Vector T7, E3: one draw, rescaled. -/
theorem test_rxReadrssi :
    (after (exec .rxReadrssi { driverIn 5800#16 0#32 false false with env := ⟨[], [1043, 9], 0⟩ })).ret = 130#32 := by
  decide
/-- Vector T7: unsettled, no draw. -/
theorem test_rxReadrssi_unsettled :
    exec .rxReadrssi (driverIn 5800#16 0#32 true false) = .next (driverIn 5800#16 0#32 true false) := by rfl
/-- Vector B6: the read-back 0xD67B is a mismatch; the time is recorded. -/
theorem test_rxVerify_mismatch :
    (after (exec (.rxVerify 135#32)
      { driverIn 5800#16 100#32 true false with env := ⟨samples2984.map (!·), [], 0⟩ })).driver
      = ⟨5800#16, 135#32, true, false, true⟩ := by decide
/-- Vector T6: no frequency set yet. -/
theorem test_rxVerify_refused :
    refusal (exec (.rxVerify 0#32) (driverIn 0#16 0#32 false false)) = some (.noFrequency 0#16) := by decide
/-- Vector L1. -/
theorem test_lapStart :
    (after (exec .lapStart (running 0#4 ⟨140#8, 9#32⟩))).engine
      = { Engine.reset with timerState := .waiting, cbRegistered := true } := by decide
/-- Program P6, request 34. -/
theorem test_lapStop :
    (after (exec .lapStop
      { State.reset with engine := { Engine.reset with timerState := .running, noiseCal := ⟨true, 33#8, 1#16⟩ } })).engine
      = Engine.reset := by decide
/-- R184, R90, R114 by hand: draw 800 is 100, the gain 32930, the estimate 3293000, the sample 50 (vector F1, step 1). -/
theorem test_lapTick :
    (after (exec (.lapTick 7#32) ticking)).engine.samples = [(0, 50#8)] ∧
      (after (exec (.lapTick 7#32) ticking)).env.adc = [0] := by decide
/-- Vector L11. -/
theorem test_lapTick_refused :
    refusal (exec (.lapTick 7#32) (driverIn 0#16 0#32 false false)) = some (.notInitialised .flt) := by decide
/-- Vector L3, last row: the crossing. -/
theorem test_lapStep_crossing :
    (after (exec (.lapStep 50#32 124#8) (engineIn .waiting ⟨130#8, 20#32⟩))).engine.timerState = .running ∧
      (after (exec (.lapStep 50#32 124#8) (engineIn .waiting ⟨130#8, 20#32⟩))).engine.lapStart = 20#32 := by decide
/-- Vector L5, baseline, at 1010: a lap of 990. -/
theorem test_lapStep_lap :
    (after (exec (.lapStep 1010#32 130#8) (running 0#4 ⟨140#8, 1000#32⟩))).engine.laps = [(0, 990#32)] ∧
      (after (exec (.lapStep 1010#32 130#8) (running 0#4 ⟨140#8, 1000#32⟩))).trace
        = pulses .lapFinish ++ [.lapCompleted 990#32] ++ pulses .lapStart := by decide
/-- R197 by hand: the slot behind the cursor, with the cursor at 0. -/
theorem test_lapGetrssi :
    (after (exec .lapGetrssi { State.reset with engine := { Engine.reset with samples := [(99, 77#8)] } })).ret = 77#32 := by
  decide
/-- Program P3, request 13. -/
theorem test_lapAvail :
    (after (exec .lapAvail { State.reset with engine := { Engine.reset with lapAvailable := true } })).ret = 1#32 := by
  decide
/-- Program P3, request 14. -/
theorem test_lapGettime :
    after (exec .lapGettime
      { State.reset with
        engine := { Engine.reset with laps := [(0, 8490#32)], lapCursor := 1, lapAvailable := true } })
      = { State.reset with ret := 8490#32, engine := { Engine.reset with laps := [(0, 8490#32)], lapCursor := 1 } } := by
  decide
/-- Program P3, request 1. -/
theorem test_lapSetcb : (after (exec (.lapSetcb true) State.reset)).engine.cbRegistered = true := by decide
/-- Vector K2. -/
theorem test_calNstart :
    (after (exec .calNstart
      { State.reset with engine := { Engine.reset with noiseCal := ⟨true, 24#8, 20#16⟩ } })).engine.noiseCal
      = ⟨true, 0#8, 0#16⟩ := by decide
/-- Program P6, request 22. -/
theorem test_calNstop :
    (after (exec .calNstop
      { State.reset with engine := { Engine.reset with noiseCal := ⟨true, 24#8, 20#16⟩ } })).ret = 24#32 := by decide
/-- Program P6, request 23. -/
theorem test_calXstart : (after (exec .calXstart State.reset)).engine.crossCal = ⟨true, 0#8, 0#16⟩ := by decide
/-- Program P6, request 35, `STOP_CLEARS_CAL = false`. -/
theorem test_calXstop :
    (after (exec .calXstop
      { State.reset with engine := { Engine.reset with crossCal := ⟨true, 130#8, 8#16⟩ } })).engine.crossCal
      = ⟨false, 130#8, 8#16⟩ := by decide
/-- Vector B1: the bit sequence, and the number of events. -/
theorem test_frameWf :
    bitSequence none [] (after (exec (.frameWf 0x1#4 0x2984#16) State.reset)).trace
        = cellsOf 0b1000100101001100001000000#25 ∧
      (after (exec (.frameWf 0x1#4 0x2984#16) State.reset)).trace.length = 78 := by decide
/-- Vector B4. -/
theorem test_frameWp :
    bitSequence none [] (after (exec (.frameWp 0xD0DF3#20) State.reset)).trace
      = cellsOf 0b0101111001111101100001011#25 := by decide
/-- Vector B5: the read-back and the number of events. -/
theorem test_frameRd :
    (after (exec (.frameRd 0x1#4) awaiting)).ret = 0x2984#32 ∧
      (after (exec (.frameRd 0x1#4) awaiting)).trace.length = 60 := by decide
/-- Vector B5, R137: five driven cells, then the 20 sampled values. -/
theorem test_frameRd_bits :
    bitSequence none samples2984 (after (exec (.frameRd 0x1#4) awaiting)).trace
      = [true, false, false, false, false] ++ samples2984 := by decide
/-- Vector K1: the count saturates. -/
theorem test_calUpdate : calUpdate 24#8 ⟨true, 20#8, 65535#16⟩ = ⟨true, 24#8, 65535#16⟩ := by decide
/-- Vector L2: a step in `STOPPED` at the last slot. -/
theorem test_lapStep_stopped :
    (after (exec (.lapStep 5#32 77#8)
      { State.reset with cfg := inputs, engine := { Engine.reset with sampleCursor := 99 } })).engine
      = { Engine.reset with samples := [(99, 77#8)] } := by decide

/-! ## Hypotheses that are met -/

theorem constraints_testDefaults : Constraints Config.testDefaults :=
  ⟨by decide, by decide, by decide, by decide, by decide, by decide, by decide, by decide⟩

theorem witness_DecodeInvertsEncode :
    Config.testDefaults.readInd ≠ Config.testDefaults.writeInd ∧
      Instr.wellFormed Config.testDefaults (.frameWf 0x1#4 0xFFFF#16) = true ∧
      Instr.wellFormed Config.testDefaults (.rxSetfreq 0xFFFFFFFF#32 0xFFFF#16) = true := by decide

/-- A request with the given code at the head of the port. -/
def asking (w : PortWord) (early : Bool) : State := { State.reset with arrivals := [.request w early] }

/-- The first and last code of each run of reserved codes, and of each run of operations. -/
theorem witness_ReservedCodesAreRefused :
    Constraints (asking (.cmd 0#69) false).params ∧
    (∀ c ∈ [0x00#5, 0x03#5, 0x09#5, 0x0F#5, 0x1C#5, 0x1F#5],
      ((c ++ 7#32 ++ 9#32 : ReqWord).extractLsb' 64 5).toNat
        ∈ [0x00, 0x03, 0x09, 0x0A, 0x0B, 0x0C, 0x0D, 0x0E, 0x0F, 0x1C, 0x1D, 0x1E, 0x1F]) ∧
    (∀ c ∈ [0x01#5, 0x02#5, 0x04#5, 0x08#5, 0x10#5, 0x1B#5],
      ((c ++ 7#32 ++ 9#32 : ReqWord).extractLsb' 64 5).toNat
        ∉ [0x00, 0x03, 0x09, 0x0A, 0x0B, 0x0C, 0x0D, 0x0E, 0x0F, 0x1C, 0x1D, 0x1E, 0x1F]) :=
  ⟨constraints_testDefaults, by decide, by decide⟩

theorem witness_FrequencyEncodingValue :
    HasEncoding 479#16 ∧ HasEncoding 480#16 ∧ HasEncoding 33246#16 ∧ ¬ HasEncoding 478#16 ∧ ¬ HasEncoding 33247#16 := by
  decide

theorem witness_FrequencyCodecIsStable : HasEncoding 479#16 ∧ HasEncoding 5800#16 ∧ HasEncoding 33246#16 := by decide

theorem witness_ReadBackAssembly : samples2984.length = 20 := by decide

/-- The samples FramesCarryTheirEncodedWord takes. -/
theorem witness_FramesCarryTheirEncodedWord : samples2984.length = 20 := by decide

theorem witness_StepRunsDecodedRequest :
    Constraints (asking (.cmd 0x140000000000000000#69) false).params ∧
      decode Config.testDefaults (.cmd 0x140000000000000000#69) = .ok .lapGetrssi ∧
      BlockSends Config.testDefaults .lapGetrssi ∧
      step (asking (.cmd 0x140000000000000000#69) false) = .next State.reset :=
  ⟨constraints_testDefaults, rfl, trivial, rfl⟩

/-- Vectors B1, B4, B5 are frames the block sends. -/
theorem witness_StepRunsDecodedRequest_frames :
    BlockSends Config.testDefaults (.frameWf 0x1#4 0x2984#16) ∧ BlockSends Config.testDefaults (.frameWp 0xD0DF3#20) ∧
      BlockSends Config.testDefaults (.frameWp 0xFFFFF#20) ∧ BlockSends Config.testDefaults (.frameRd 0x1#4) := by
  unfold BlockSends
  decide

/-- R97: each kind of frame it never sends, and the step that refuses one. -/
theorem witness_StepRunsDecodedRequest_never :
    ¬ BlockSends Config.testDefaults (.frameWf 0x2#4 0x2984#16) ∧
      ¬ BlockSends Config.testDefaults (.frameWf 0x1#4 0x0020#16) ∧
      ¬ BlockSends Config.testDefaults (.frameWf 0x1#4 0x0040#16) ∧
      ¬ BlockSends Config.testDefaults (.frameWp 0xFFFFE#20) ∧ ¬ BlockSends Config.testDefaults (.frameRd 0xA#4) ∧
      decode Config.testDefaults (.frame (rdWord Config.testDefaults 0xA#4)) = .ok (.frameRd 0xA#4) ∧
      refusal (step (asking (.frame (rdWord Config.testDefaults 0xA#4)) false)) = some (.frameNeverSent (.frameRd 0xA#4)) := by
  unfold BlockSends
  decide

theorem witness_EarlyRequestIsReentrant :
    Constraints (asking (.cmd 0x140000000000000000#69) true).params ∧
      decode Config.testDefaults (.cmd 0x140000000000000000#69) = .ok .lapGetrssi ∧
      BlockSends Config.testDefaults .lapGetrssi :=
  ⟨constraints_testDefaults, rfl, trivial⟩

/-- One violated constraint is refused by its name. -/
theorem witness_BadConfigExactly :
    refusal (step { State.reset with params := { Config.testDefaults with powerDownFreq := 5645#16 } })
      = some (.badConfig .sentinelInRange) := by decide

theorem witness_IdleInputsAndReset :
    Constraints State.reset.params ∧ State.reset.arrivals = [] ∧
      ({ State.reset with arrivals := [.inputs inputs] } : State).arrivals = .inputs inputs :: [] ∧
      ({ awaiting with arrivals := [.reset] } : State).arrivals = .reset :: [] :=
  ⟨constraints_testDefaults, rfl, rfl, rfl⟩

theorem witness_FrameRdEffect : awaiting.env.data = samples2984 ++ [] ∧ samples2984.length = 20 := by decide

/-- Every operand class, the range at both ends. -/
theorem witness_SetFreqByOperandClass :
    (State.reset.driver.rxInit = false) ∧ awaiting.driver.rxInit = true ∧
    (5800#16 = awaiting.driver.curFreq) ∧
    (1111#16 ≠ awaiting.driver.curFreq ∧ 1111#16 = awaiting.params.powerDownFreq) ∧
    (5645#16 ≠ awaiting.driver.curFreq ∧ 5645#16 ≠ awaiting.params.powerDownFreq ∧ InRange awaiting.params 5645#16) ∧
    (5945#16 ≠ awaiting.driver.curFreq ∧ 5945#16 ≠ awaiting.params.powerDownFreq ∧ InRange awaiting.params 5945#16) ∧
    (5644#16 ≠ awaiting.driver.curFreq ∧ 5644#16 ≠ awaiting.params.powerDownFreq ∧ ¬ InRange awaiting.params 5644#16) ∧
    (5946#16 ≠ awaiting.driver.curFreq ∧ 5946#16 ≠ awaiting.params.powerDownFreq ∧ ¬ InRange awaiting.params 5946#16) := by
  decide

theorem witness_VerifyEffect :
    (dataAnswers 20 awaiting.env).1 = samples2984 ∧ awaiting.driver.rxInit = true ∧
      HasEncoding awaiting.driver.curFreq ∧ readBack samples2984 = encodeFreq awaiting.driver.curFreq ∧
      readBack (samples2984.map (!·)) ≠ encodeFreq awaiting.driver.curFreq ∧
      State.reset.driver.rxInit = false ∧ ¬ HasEncoding (driverIn 478#16 0#32 false false).driver.curFreq := by decide

theorem witness_VerifyCompletesForEveryReceiver :
    (driverIn 479#16 0#32 true false).driver.rxInit = true ∧ HasEncoding (driverIn 479#16 0#32 true false).driver.curFreq := by
  decide

/-- The bus interval and the settle interval at their last busy and first free value. -/
theorem witness_HousekeepIsCommitThenVerify :
    State.reset.driver.rxInit = false ∧ awaiting.driver.rxInit = true ∧
    ¬ Acceptable awaiting 6000#16 ∧ Acceptable awaiting 5801#16 ∧
    (5801#16 ≠ awaiting.driver.curFreq ∧ awaiting.params.tBusBusy ≤ 1030#32 - awaiting.driver.lastWriteMs) ∧
    ¬ awaiting.params.tBusBusy ≤ 1029#32 - awaiting.driver.lastWriteMs ∧
    AttemptDue awaiting.params awaiting.driver 1035#32 ∧ ¬ AttemptDue awaiting.params awaiting.driver 1034#32 ∧
    exec (.rxSetfreq 1030#32 5801#16) awaiting = .next (after (exec (.rxSetfreq 1030#32 5801#16) awaiting)) ∧
    exec (.rxVerify 1035#32) awaiting = .next (after (exec (.rxVerify 1035#32) awaiting)) ∧
    (AttemptDue State.reset.params (driverIn 7#16 0#32 true false).driver 35#32 ∧
      exec (.rxVerify 35#32) (driverIn 7#16 0#32 true false) = .refused (.noFrequency 7#16)) :=
  ⟨rfl, rfl, by decide, by decide, by decide, by decide, by decide, by decide, rfl, rfl, by decide, rfl⟩

/-- The invariant, in a state of the driver that waits for a verification. -/
theorem awaiting_inv : awaiting.Inv where
  samplesCanonical := by decide
  lapsCanonical := by decide
  downAtSentinel := by decide
  unsettledTuned := by decide
  stoppedEmpty := by decide
  restPins := by decide
  coefficients := by decide
  estimateRange := by decide
  uncertaintyRange := by decide

theorem witness_HousekeepCompletes :
    Constraints awaiting.params ∧ awaiting.Inv ∧ awaiting.driver.rxInit = true ∧ Acceptable awaiting 5800#16 ∧
      Acceptable awaiting 1111#16 ∧ Acceptable awaiting 5945#16 :=
  ⟨constraints_testDefaults, awaiting_inv, rfl, by decide, by decide, by decide⟩

theorem witness_HousekeepSendsAtMostThreeFrames :
    exec (.rxHousekeep 1035#32 5800#16) awaiting = .next (after (exec (.rxHousekeep 1035#32 5800#16) awaiting)) := rfl

theorem witness_ReadRssiEffect :
    State.reset.driver.rxInit = false ∧ (awaiting.driver.rxInit = true ∧ awaiting.driver.recentlyChanged = true) ∧
      (ticking.driver.rxInit = true ∧ ticking.driver.recentlyChanged = false ∧ ticking.env.adc = 800 :: [0] ∧
        min (800 % 2 ^ ticking.params.adcBits) ticking.params.rssiClampMax / 8 ≤ 255 ∧
        min (4095 % 2 ^ ticking.params.adcBits) ticking.params.rssiClampMax / 8 ≤ 255) := by decide

/-- A verification that clears the flag, served by a step. -/
theorem witness_FlagClearedOnlyByAMatch :
    ∃ t, step { awaiting with arrivals := [.request (.cmd 0x080000040B00000000#69) false] } = .next t ∧
      awaiting.driver.recentlyChanged = true ∧ t.driver.recentlyChanged = false :=
  ⟨after (exec (.rxVerify 1035#32) awaiting), rfl, rfl, rfl⟩

theorem witness_LastWriteTimeWriters :
    exec (.rxSetfreq 1030#32 5801#16) awaiting = .next (after (exec (.rxSetfreq 1030#32 5801#16) awaiting)) ∧
      exec .rxInit awaiting = .next (after (exec .rxInit awaiting)) ∧
      exec .lapStart awaiting = .next (after (exec .lapStart awaiting)) := ⟨rfl, rfl, rfl⟩

/-- The reference receiver, at rest, with n failures left. -/
def receiver (n : Nat) : RxRef := ⟨[], n, true, false, false, false, []⟩

/-- The state after a wake and a tuning to 5658, and the events it appended. -/
def tuned : State := after (exec (.rxSetfreq 90#32 5658#16) (driverIn 1111#16 50#32 false true))

theorem witness_ReferenceReceiverVerifies :
    Constraints (driverIn 1111#16 50#32 false true).params ∧ (driverIn 1111#16 50#32 false true).driver.rxInit = true ∧
      InRange Config.testDefaults 5658#16 ∧ 5658#16 ≠ (driverIn 1111#16 50#32 false true).driver.curFreq ∧
      (receiver 0).sel = true ∧ (receiver 0).clk = false ∧ (receiver 0).fail = 0 ∧ Memory.wf 16 (receiver 0).regs = true ∧
      exec (.rxSetfreq 90#32 5658#16) (driverIn 1111#16 50#32 false true) = .next tuned ∧
      tuned.trace = (driverIn 1111#16 50#32 false true).trace ++ tuned.trace :=
  ⟨constraints_testDefaults, rfl, by decide, by decide, rfl, rfl, rfl, rfl, rfl, (List.nil_append _).symm⟩

theorem witness_FailingReceiverLeavesTheFlag :
    Constraints (driverIn 1111#16 50#32 false true).params ∧ (driverIn 1111#16 50#32 false true).driver.rxInit = true ∧
      InRange Config.testDefaults 5658#16 ∧ 5658#16 ≠ (driverIn 1111#16 50#32 false true).driver.curFreq ∧
      (receiver 2).sel = true ∧ (receiver 2).clk = false ∧ 0 < (receiver 2).fail ∧ Memory.wf 16 (receiver 2).regs = true ∧
      exec (.rxSetfreq 90#32 5658#16) (driverIn 1111#16 50#32 false true) = .next tuned ∧
      tuned.trace = (driverIn 1111#16 50#32 false true).trace ++ tuned.trace :=
  ⟨constraints_testDefaults, rfl, by decide, by decide, rfl, rfl, by decide, rfl, rfl, (List.nil_append _).symm⟩

/-- Vector B6: what the receiver answers after the frame that tunes to 5658, faithful and failing. -/
theorem test_receiver :
    (after (exec (.frameRd 0x1#4) (State.reset.withReceiver
        ((receiver 0).next (.frameWf 0x1#4 0x281D#16) State.reset) (.frameRd 0x1#4)))).ret = 0x281D#32 ∧
      (after (exec (.frameRd 0x1#4) (State.reset.withReceiver
        ((receiver 1).next (.frameWf 0x1#4 0x281D#16) State.reset) (.frameRd 0x1#4)))).ret = 0xD7E2#32 := by
  decide +kernel

/-- R140 by hand: a read of the power-control register answers that register, the mask's low 16 bits. -/
theorem test_receiver_other_register :
    (after (exec (.frameRd 0xA#4) (State.reset.withReceiver
        ((receiver 0).next (.frameWp 0xD0DF3#20) State.reset) (.frameRd 0xA#4)))).ret = 0x0DF3#32 := by decide +kernel

/-- Settled and tuned to 5658, without a settle interval. -/
def noSettle : State :=
  { driverIn 5658#16 0#32 false false with params := { Config.testDefaults with tTuneSettle := 0#32 } }

/-- R156, R140 by hand: with no settle interval one housekeeping call writes and reads back, and the receiver answers
what that call has just written. -/
theorem test_receiver_within_operation :
    (after (exec (.rxHousekeep 90#32 5800#16)
        (noSettle.withReceiver (receiver 0) (.rxHousekeep 90#32 5800#16)))).driver
      = ⟨5800#16, 90#32, false, false, true⟩ := by decide +kernel

theorem witness_FltInitEffect : (0#16 : BitVec 16) = 0#16 ∧ (1#16 : BitVec 16) ≠ 0#16 ∧ (65535#16 : BitVec 16) ≠ 0#16 := by
  decide

theorem witness_FltStepFixedPoint :
    filtering.filter.fltInit = true ∧ filtering.params.numerics = .fixedPoint ∧ 1 ≤ filtering.filter.rc.toNat := by decide

/-- Below, at and above the estimate. -/
theorem witness_EstimateStaysBetween :
    filtering.params.numerics = .fixedPoint ∧ exec (.fltStep 255#8) filtering = .next (after (exec (.fltStep 255#8) filtering)) ∧
      exec (.fltStep 0#8) filtering = .next (after (exec (.fltStep 0#8) filtering)) ∧
      filtering.filter.x.toNat ≤ (255#8).toNat * 65536 ∧ (0#8).toNat * 65536 ≤ filtering.filter.x.toNat :=
  ⟨rfl, rfl, rfl, by decide, by decide⟩

/-- The filter under the open numerics. -/
def filteringOpen : State := { filtering with params := { Config.testDefaults with numerics := .open_ } }

theorem witness_FltStepUnderEveryNumerics :
    State.reset.filter.fltInit = false ∧
      (filtering.filter.fltInit = true ∧ (filtering.params.numerics = .fixedPoint → filtering.filter.x.toNat ≤ 0xFF0000)) ∧
      (filteringOpen.filter.fltInit = true ∧
        (filteringOpen.params.numerics = .fixedPoint → filteringOpen.filter.x.toNat ≤ 0xFF0000)) := by decide

theorem witness_RoundingIsNearest : (0#24).toNat < 0xFF8000 ∧ (0xFF7FFF#24).toNat < 0xFF8000 := by decide

theorem witness_LapStepStoresAndAdvances :
    Memory.wf 100 (engineIn .stopped ⟨0#8, 0#32⟩).engine.samples = true ∧
      Memory.wf 100 ([(0, 5#8), (99, 7#8)] : Memory 8) = true := by decide

theorem witness_StoppedStepDetectsNothing : (engineIn .stopped ⟨0#8, 0#32⟩).engine.timerState = .stopped := rfl

/-- Vector L3: a drop of 6 crosses, a drop of 5 does not. -/
theorem witness_WaitingStep :
    (engineIn .waiting ⟨130#8, 20#32⟩).engine.timerState = .waiting ∧
    Crosses inputs .waiting 0#32 50#32 124#8 (captured inputs .waiting 50#32 124#8 ⟨130#8, 20#32⟩) ∧
    ¬ Crosses inputs .waiting 0#32 40#32 125#8 (captured inputs .waiting 40#32 125#8 ⟨130#8, 20#32⟩) := by
  unfold Crosses Falls captured inForce
  decide

/-- Vector L5, `guardCapture`: closed at age 990 and at 1999, open at 2000; crossing and not, either way. -/
theorem witness_RunningStep :
    (running 2#4 ⟨140#8, 1000#32⟩).engine.timerState = .running ∧
    Memory.wf 50 (running 2#4 ⟨140#8, 1000#32⟩).engine.laps = true ∧
    CaptureOpen (inputsL5 2#4) 10#32 2010#32 ∧ ¬ CaptureOpen (inputsL5 2#4) 10#32 2009#32 ∧
    Crosses (inputsL5 2#4) .running 10#32 3020#32 99#8 (captured (inputsL5 2#4) .running 3020#32 99#8 ⟨150#8, 3010#32⟩) ∧
    ¬ Crosses (inputsL5 2#4) .running 10#32 3010#32 150#8
      (captured (inputsL5 2#4) .running 3010#32 150#8 ⟨125#8, 3000#32⟩) ∧
    Crosses (inputsL5 2#4) .running 10#32 1010#32 134#8 ⟨140#8, 1000#32⟩ ∧
    ¬ Crosses (inputsL5 2#4) .running 10#32 1010#32 135#8 ⟨140#8, 1000#32⟩ := by
  unfold CaptureOpen Crosses Falls captured inForce
  decide

theorem witness_TickIsReadFilterStep : ticking.driver.rxInit = true ∧ ticking.filter.fltInit = true := by decide

theorem witness_TickRefusals :
    State.reset.driver.rxInit = false ∧ awaiting.driver.rxInit = true ∧ awaiting.filter.fltInit = false := by decide

/-- A tick inside the settle window. -/
def unsettled : State := { filtering with driver := ⟨5800#16, 1000#32, true, false, true⟩ }

theorem witness_UnsettledTickFiltersZero :
    unsettled.driver.recentlyChanged = true ∧ Memory.wf 100 unsettled.engine.samples = true ∧
      exec (.lapTick 1001#32) unsettled = .next (after (exec (.lapTick 1001#32) unsettled)) := ⟨rfl, rfl, rfl⟩

theorem witness_LapAvailEffect : exec .lapStart State.reset = .next (after (exec .lapStart State.reset)) := rfl

theorem witness_GetRssiReturnsLastSample :
    Memory.wf 100 (engineIn .waiting ⟨0#8, 0#32⟩).engine.samples = true ∧
      exec (.lapStep 3#32 9#8) (engineIn .waiting ⟨0#8, 0#32⟩)
        = .next (after (exec (.lapStep 3#32 9#8) (engineIn .waiting ⟨0#8, 0#32⟩))) := ⟨rfl, rfl⟩

/-- One operation for each line of the table. -/
theorem witness_TimerStateTransitions :
    (after (exec .lapStart State.reset)).engine.timerState = .waiting ∧
      (after (exec .lapStop (running 0#4 ⟨0#8, 0#32⟩))).engine.timerState = .stopped ∧
      exec .lapStart State.reset = .next (after (exec .lapStart State.reset)) ∧
      exec .lapStop (running 0#4 ⟨0#8, 0#32⟩) = .next (after (exec .lapStop (running 0#4 ⟨0#8, 0#32⟩))) ∧
      exec (.lapStep 50#32 124#8) (engineIn .waiting ⟨130#8, 20#32⟩)
        = .next (after (exec (.lapStep 50#32 124#8) (engineIn .waiting ⟨130#8, 20#32⟩))) := ⟨rfl, rfl, rfl, rfl, rfl⟩

/-- A captured peak, a kept one and a reset one. -/
theorem witness_CandidateIsMonotone :
    (after (exec (.lapStep 20#32 130#8) (engineIn .waiting ⟨120#8, 10#32⟩))).engine.cand = ⟨130#8, 20#32⟩ ∧
      (after (exec (.lapStep 30#32 130#8) (engineIn .waiting ⟨130#8, 20#32⟩))).engine.cand = ⟨130#8, 20#32⟩ ∧
      (after (exec (.lapStep 50#32 124#8) (engineIn .waiting ⟨130#8, 20#32⟩))).engine.cand = ⟨0#8, 0#32⟩ := by decide

/-- Vector L3: an equal sample and a drop of 5 are let pass, a drop of 6 confirms. -/
theorem witness_CrossingConfirmedAtTheFall :
    (engineIn .waiting ⟨130#8, 20#32⟩).engine.timerState = .waiting ∧ inputs.policy = 0#4 ∧
    (∀ x ∈ ([(30#32, 130#8), (40#32, 125#8)] : List (Millis × Amp)), x.2 ≤ 130#8 ∧
      (x.2 = 130#8 ∨ (130#8).toNat - x.2.toNat < inputs.minDelta.toNat)) ∧
    124#8 < 130#8 ∧ inputs.minDelta.toNat ≤ (130#8).toNat - (124#8).toNat := by
  refine ⟨rfl, rfl, fun x hx => ?_, by decide, by decide⟩
  rcases List.mem_cons.mp hx with rfl | hx
  · decide
  · rcases List.mem_singleton.mp hx with rfl
    decide

/-- With 101 samples: the first kept is number 1, the last number 100, which lies in slot 0. -/
theorem witness_SampleHistory :
    (1 < 101 ∧ 101 ≤ 1 + 100 ∧ (1 : Fin 100).val = 1 % 100) ∧ (100 < 101 ∧ 101 ≤ 100 + 100 ∧ (0 : Fin 100).val = 100 % 100) ∧
      (99 ≤ (99 : Fin 100).val) := by decide

/-- The maximum at the sample and one below it; a session of each kind. -/
theorem witness_CalUpdateRule :
    (23#8 < 24#8 ∧ ¬ (24#8 : Amp) < 24#8) ∧ (⟨true, 24#8, 65535#16⟩ : Cal).active = true ∧ Cal.cleared.active = false := by
  decide

theorem witness_CalibrationIsObservational :
    runOps [.calNstart, .lapStart, .lapStep 0#32 60#8, .calNstop] State.reset
      = .next (after (runOps [.calNstart, .lapStart, .lapStep 0#32 60#8, .calNstop] State.reset)) := rfl

/-- The last frequency on the way to its verification. -/
theorem witness_StepKeepsInvariant :
    Constraints awaiting.params ∧ awaiting.Inv ∧ step awaiting = .next awaiting :=
  ⟨constraints_testDefaults, awaiting_inv, rfl⟩

theorem witness_EventsPerOperation :
    step { awaiting with arrivals := [.request (.cmd 0x080000040B00000000#69) false] }
      = .next (after (exec (.rxVerify 1035#32) awaiting)) ∧
    step { awaiting with arrivals := [.reset] } = .next (takeReset [] awaiting) ∧
    exec (.lapStep 1010#32 130#8) (running 0#4 ⟨140#8, 1000#32⟩)
        = .next (after (exec (.lapStep 1010#32 130#8) (running 0#4 ⟨140#8, 1000#32⟩))) ∧
      exec (.rxHousekeep 1035#32 5800#16) awaiting = .next (after (exec (.rxHousekeep 1035#32 5800#16) awaiting)) ∧
      exec .lapAvail awaiting = .next awaiting := ⟨rfl, rfl, rfl, rfl, rfl⟩

theorem witness_EnvironmentCannotRefuse :
    exec (.rxVerify 0#32) (driverIn 0#16 0#32 false false) = .refused (.noFrequency 0#16) := rfl

theorem witness_OwnershipOfState :
    exec (.fltStep 9#8) filtering = .next (after (exec (.fltStep 9#8) filtering)) ∧
      exec (.frameWp 0#20) awaiting = .next (after (exec (.frameWp 0#20) awaiting)) ∧
      exec (.lapTick 7#32) ticking = .next (after (exec (.lapTick 7#32) ticking)) := ⟨rfl, rfl, rfl⟩

end Sys2Proof.Tests
end

section
/-! SUPPORT. Proofs about the state of the block (`spec/10_state.md`): what every operation can answer, which parts
of the state each can change (rule R27), and the invariant of rule R52. -/

namespace Sys2Proof.Machine

/-! ## Reset (R51) -/

/-- Settles O13: every clause is the value the reset state's definition gives that field; the empty buffers read 0. -/
theorem resetTable : Obligations.ResetTable :=
  ⟨rfl, fun _ => rfl, rfl, fun _ => rfl, rfl, rfl, rfl, rfl, rfl, rfl, rfl, rfl, rfl, rfl⟩

/-! ## What each operation answers -/

theorem complete_eq_next {v : BitVec 32} {s t : State} : complete v s = .next t ↔ t = s.setRet v := by
  simp [complete, eq_comm]

/-- R112: `FLT.INIT` completes exactly where the measurement noise is not 0. -/
theorem execFltInit_eq_next {rawQ rawR : BitVec 16} {s t : State} :
    execFltInit rawQ rawR s = .next t ↔
      rawR ≠ 0#16 ∧ t = (s.setFilter (initialised rawQ rawR)).setRet 0#32 := by
  unfold execFltInit
  split_ifs with h
  · simp [h]
  · simp [h, complete_eq_next]

/-- R114: the filter after one step on a measurement, the coefficients and the flag as before. -/
def Filter.stepped (n : Config.Numerics) (m : Amp) (f : Filter) : Filter :=
  { f with x := (filterStep n f.qc f.rc f.x f.p m).1, p := (filterStep n f.qc f.rc f.x f.p m).2 }

/-- R114: an answer of `FLT.STEP` is the filter stepped, and a result. -/
theorem execFltStep_next {m : Amp} {s t : State} (h : execFltStep m s = .next t) :
    ∃ r, t = (s.setFilter (s.filter.stepped s.params.numerics m)).setRet r := by
  obtain ⟨_, hm, rfl⟩ := completeOr_eq_next.mp h
  obtain ⟨_, hu, rfl⟩ := map_eq_ok.mp hm
  obtain ⟨_, rfl⟩ := filterUpdate_cases hu
  exact ⟨_, rfl⟩

/-- R152: an answer of `RX.SETFREQ` is what the dispatch leaves, with no result. -/
theorem execRxSetfreq_next {now : Millis} {f : Word16} {s t : State} (h : execRxSetfreq now f s = .next t) :
    ∃ s1, setFreq now f s = .ok s1 ∧ t = s1.setRet 0#32 := by
  obtain ⟨_, hm, rfl⟩ := completeOr_eq_next.mp h
  obtain ⟨s1, hs, rfl⟩ := map_eq_ok.mp hm
  exact ⟨s1, hs, rfl⟩

/-- R156: an answer of `RX.HOUSEKEEP` is what the two steps leave, with no result. -/
theorem execRxHousekeep_next {now : Millis} {f : Word16} {s t : State} (h : execRxHousekeep now f s = .next t) :
    ∃ s1, housekeep now f s = .ok s1 ∧ t = s1.setRet 0#32 := by
  obtain ⟨_, hm, rfl⟩ := completeOr_eq_next.mp h
  obtain ⟨s1, hs, rfl⟩ := map_eq_ok.mp hm
  exact ⟨s1, hs, rfl⟩

/-- R161: an answer of `RX.READRSSI` differs from its state in the environment and the result port alone. -/
theorem execRxReadrssi_next {s t : State} (h : execRxReadrssi s = .next t) :
    ∃ v r, t = { s with env := v, ret := r } := by
  obtain ⟨_, hm, rfl⟩ := completeOr_eq_next.mp h
  obtain ⟨_, hr, rfl⟩ := map_eq_ok.mp hm
  rcases (readRssi_cases hr).2 with ⟨_, rfl⟩ | ⟨_, rfl⟩
  · exact ⟨s.env, _, rfl⟩
  · obtain ⟨v, hv, _⟩ := adcRead_frame s
    exact ⟨v, _, by rw [hv]; rfl⟩

/-- R158: an answer of `RX.VERIFY` is what one attempt leaves. -/
theorem execRxVerify_next {now : Millis} {s t : State} (h : execRxVerify now s = .next t) :
    ∃ r, t = (verifyAttempt now s).2.setRet r := by
  obtain ⟨_, hm, rfl⟩ := completeOr_eq_next.mp h
  obtain ⟨_, hv, rfl⟩ := map_eq_ok.mp hm
  obtain ⟨_, _, rfl⟩ := verify_ok.mp hv
  exact ⟨_, rfl⟩

/-- R184: an answer of `LAP.TICK` is the engine's step in the state the read and the filter's step left. -/
theorem execLapTick_next {now : Millis} {s t : State} (h : execLapTick now s = .next t) :
    ∃ m v sample,
      t = (lapStepOp now sample { s with env := v, filter := s.filter.stepped s.params.numerics m }).setRet 0#32 := by
  obtain ⟨_, hm, rfl⟩ := completeOr_eq_next.mp h
  obtain ⟨_, ht, rfl⟩ := map_eq_ok.mp hm
  obtain ⟨_, _, m, v, _, _, _, _, hu, rfl⟩ := lapTickOp_cases ht
  obtain ⟨_, hf⟩ := filterUpdate_cases hu
  cases congrArg (·.2.filter) hf
  exact ⟨m, v, _, rfl⟩

/-! ## Which parts of the state an operation writes (R27, R73) -/

/-- R27: whose registers an operation writes; the tick is the engine's operation that also reads the amplitude and
runs the filter. -/
inductive Owner where
  | filter
  | driver
  | engine
  | tick

/-- The owner of each operation; a frame belongs to the driver. -/
def Owner.of : Instr → Owner
  | .fltInit _ _ | .fltStep _ => .filter
  | .rxInit | .rxSetfreq _ _ | .rxHousekeep _ _ | .rxReadrssi | .rxVerify _ | .frameWf _ _ | .frameWp _
  | .frameRd _ => .driver
  | .lapStart | .lapStop | .lapStep _ _ | .lapGetrssi | .lapAvail | .lapGettime | .lapSetcb _ | .calNstart
  | .calNstop | .calXstart | .calXstop => .engine
  | .lapTick _ => .tick

/-- The fields in which the state after an operation can differ from the state before it. -/
def Owner.Writes (s t : State) : Owner → Prop
  | .filter => ∃ f r, t = { s with filter := f, ret := r }
  | .driver => ∃ d n tr v r, t = { s with driver := d, pins := n, trace := tr, env := v, ret := r }
  | .engine => ∃ e tr r, t = { s with engine := e, trace := tr, ret := r }
  | .tick => ∃ e f tr v r, t = { s with engine := e, filter := f, trace := tr, env := v, ret := r }

/-- The engine's step writes the engine and the trace alone. -/
theorem lapStepOp_shape (now : Millis) (sample : Amp) (s : State) :
    ∃ e tr, lapStepOp now sample s = { s with engine := e, trace := tr } := by
  obtain ⟨e, es, h⟩ := lapStepOp_local now sample s.cfg s.engine
  exact ⟨e, _, h s rfl rfl⟩

/-- R27: every operation writes its owner's part alone. -/
theorem exec_writes {i : Instr} {s t : State} (h : exec i s = .next t) : (Owner.of i).Writes s t := by
  cases i with
  | fltInit rawQ rawR =>
    obtain ⟨_, rfl⟩ := execFltInit_eq_next.mp h
    exact ⟨_, _, rfl⟩
  | fltStep m =>
    obtain ⟨_, rfl⟩ := execFltStep_next h
    exact ⟨_, _, rfl⟩
  | rxInit =>
    cases complete_eq_next.mp h
    rw [restLines_eq, sendWp_eq]
    exact ⟨_, _, _, _, _, rfl⟩
  | rxSetfreq now f =>
    obtain ⟨_, hs, rfl⟩ := execRxSetfreq_next h
    obtain ⟨_, _, _, rfl⟩ := setFreq_shape hs
    exact ⟨_, _, _, _, _, rfl⟩
  | rxHousekeep now f =>
    obtain ⟨_, hs, rfl⟩ := execRxHousekeep_next h
    obtain ⟨_, _, _, _, rfl, _⟩ := housekeep_shape hs
    exact ⟨_, _, _, _, _, rfl⟩
  | rxReadrssi =>
    obtain ⟨_, _, rfl⟩ := execRxReadrssi_next h
    exact ⟨_, _, _, _, _, rfl⟩
  | rxVerify now =>
    obtain ⟨_, rfl⟩ := execRxVerify_next h
    rw [verifyAttempt_eq]
    exact ⟨_, _, _, _, _, rfl⟩
  | frameWf addr value =>
    cases complete_eq_next.mp h
    rw [sendWf_eq]
    exact ⟨_, _, _, _, _, rfl⟩
  | frameWp mask =>
    cases complete_eq_next.mp h
    rw [sendWp_eq]
    exact ⟨_, _, _, _, _, rfl⟩
  | frameRd addr =>
    cases complete_eq_next.mp h
    rw [sendRd_eq]
    exact ⟨_, _, _, _, _, rfl⟩
  | lapTick now =>
    obtain ⟨m, v, sample, rfl⟩ := execLapTick_next h
    obtain ⟨_, _, hs⟩ :=
      lapStepOp_shape now sample { s with env := v, filter := s.filter.stepped s.params.numerics m }
    rw [hs]
    exact ⟨_, _, _, _, _, rfl⟩
  | lapStep now sample =>
    cases complete_eq_next.mp h
    obtain ⟨_, _, hs⟩ := lapStepOp_shape now sample s
    rw [hs]
    exact ⟨_, _, _, rfl⟩
  | lapStart | lapStop | lapGetrssi | lapAvail | lapGettime | lapSetcb | calNstart | calNstop | calXstart
  | calXstop =>
    cases complete_eq_next.mp h
    exact ⟨_, _, _, rfl⟩

/-- An engine that is the same data is the same to every reader. -/
theorem sameEngine_of_eq {s t : State} (h : t.engine = s.engine) : SameEngine s t := by
  simp [SameEngine, SameMemory, h]

/-- No operation writes parameters, configuration inputs or what has arrived. -/
theorem exec_sameOutside {i : Instr} {s t : State} (h : exec i s = .next t) : SameOutside s t := by
  have hw := exec_writes h
  cases ho : Owner.of i <;> rw [ho] at hw
  case filter => obtain ⟨_, _, rfl⟩ := hw; exact ⟨rfl, rfl, rfl⟩
  case driver => obtain ⟨_, _, _, _, _, rfl⟩ := hw; exact ⟨rfl, rfl, rfl⟩
  case engine => obtain ⟨_, _, _, rfl⟩ := hw; exact ⟨rfl, rfl, rfl⟩
  case tick => obtain ⟨_, _, _, _, _, rfl⟩ := hw; exact ⟨rfl, rfl, rfl⟩

/-- R27: an operation of neither the engine nor the tick leaves the engine. -/
theorem exec_engine {i : Instr} {s t : State} (h : exec i s = .next t)
    (ho : Owner.of i = .filter ∨ Owner.of i = .driver) : t.engine = s.engine := by
  have hw := exec_writes h
  rcases ho with ho | ho <;> rw [ho] at hw
  · obtain ⟨_, _, rfl⟩ := hw; rfl
  · obtain ⟨_, _, _, _, _, rfl⟩ := hw; rfl

/-- R27, R73: an operation of neither the filter nor the tick leaves the filter. -/
theorem exec_filter {i : Instr} {s t : State} (h : exec i s = .next t)
    (ho : Owner.of i = .driver ∨ Owner.of i = .engine) : t.filter = s.filter := by
  have hw := exec_writes h
  rcases ho with ho | ho <;> rw [ho] at hw
  · obtain ⟨_, _, _, _, _, rfl⟩ := hw; rfl
  · obtain ⟨_, _, _, rfl⟩ := hw; rfl

/-- R27, R73: an operation that is not the driver's leaves the driver and the lines. -/
theorem exec_driver_pins {i : Instr} {s t : State} (h : exec i s = .next t) (ho : Owner.of i ≠ .driver) :
    t.driver = s.driver ∧ t.pins = s.pins := by
  have hw := exec_writes h
  cases hi : Owner.of i <;> rw [hi] at hw
  case filter => obtain ⟨_, _, rfl⟩ := hw; exact ⟨rfl, rfl⟩
  case driver => exact absurd hi ho
  case engine => obtain ⟨_, _, _, rfl⟩ := hw; exact ⟨rfl, rfl⟩
  case tick => obtain ⟨_, _, _, _, _, rfl⟩ := hw; exact ⟨rfl, rfl⟩

/-- R225 (1): an operation of the filter, or of the engine other than the tick, draws nothing from the environment. -/
theorem exec_env {i : Instr} {s t : State} (h : exec i s = .next t)
    (ho : Owner.of i = .filter ∨ Owner.of i = .engine) : t.env = s.env := by
  have hw := exec_writes h
  rcases ho with ho | ho <;> rw [ho] at hw
  · obtain ⟨_, _, rfl⟩ := hw; rfl
  · obtain ⟨_, _, _, rfl⟩ := hw; rfl

/-- Settles O60: each clause is the frame lemma of the parts the operation's owner does not write. -/
theorem ownershipOfState : Obligations.OwnershipOfState := by
  intro i s t h
  refine ⟨exec_sameOutside h, ?_⟩
  cases i with
  | fltInit | fltStep =>
    obtain ⟨hd, hn⟩ := exec_driver_pins h nofun
    exact ⟨sameEngine_of_eq (exec_engine h (.inl rfl)), hd, hn, exec_env h (.inl rfl)⟩
  | rxInit | rxSetfreq | rxHousekeep | rxReadrssi | rxVerify | frameWf | frameWp | frameRd =>
    exact ⟨sameEngine_of_eq (exec_engine h (.inr rfl)), exec_filter h (.inl rfl)⟩
  | lapTick => exact exec_driver_pins h nofun
  | lapStart | lapStop | lapStep | lapGetrssi | lapAvail | lapGettime | lapSetcb | calNstart | calNstop | calXstart
  | calXstop =>
    obtain ⟨hd, hn⟩ := exec_driver_pins h nofun
    exact ⟨exec_filter h (.inr rfl), hd, hn, exec_env h (.inr rfl)⟩

/-! ## The candidate (R187) -/

/-- Peak capture keeps the candidate, or replaces it by the sample and its time where the sample is greater. -/
theorem captured_cases (c : Config.Inputs) (ts : TimerState) (now : Millis) (sample : Amp) (k : Candidate) :
    captured c ts now sample k = k ∨ k.peak < sample ∧ captured c ts now sample k = ⟨sample, now⟩ := by
  unfold captured
  split_ifs with h
  · exact .inr ⟨h.2, rfl⟩
  · exact .inl rfl

/-- Settles O48: a step that confirms a crossing resets the candidate, any other keeps or captures it. -/
theorem candidateIsMonotone : Obligations.CandidateIsMonotone := by
  intro s t now sample h
  cases complete_eq_next.mp h
  rw [setRet_engine]
  rcases lapStepOp_cases now sample s with ⟨k, hk, hs⟩ | ⟨_, _, hs⟩ | ⟨_, _, hs⟩ <;> rw [hs]
  · rcases hk with rfl | ⟨_, rfl⟩
    · exact .inr (.inl rfl)
    · rcases captured_cases s.cfg s.engine.timerState now sample s.engine.cand with hc | ⟨hlt, hc⟩ <;>
        rw [setEngine_engine, hc]
      · exact .inr (.inl rfl)
      · exact .inr (.inr ⟨hlt, rfl⟩)
  · exact .inl rfl
  · exact .inl rfl

end Sys2Proof.Machine
end

section
/-! SUPPORT. The invariant of `spec/10_state.md` rule R52: its clauses by the part of the state they speak of, and
what the operations of each part do to them. -/

namespace Sys2Proof.Machine

open Config (Params)

/-! ## The invariant by parts -/

/-- The clauses about the engine: R52 (7) and the canonical form of both buffers. -/
structure EngineInv (e : Engine) : Prop where
  samplesCanonical : Memory.wf 100 e.samples = true
  lapsCanonical : Memory.wf 50 e.laps = true
  stoppedEmpty :
    e.timerState = .stopped →
      e.cand = ⟨0#8, 0#32⟩ ∧ e.lapAvailable = false ∧ e.lapCursor = 0 ∧ ∀ i, readLap e i = 0#32

/-- The clauses about the driver and its lines: R52 (3), (4), R163 (2) and the rest levels of R48. -/
structure DriverInv (p : Params) (d : Driver) (n : Pins) : Prop where
  downAtSentinel : d.poweredDown = true → d.curFreq = p.powerDownFreq
  unsettledTuned : d.recentlyChanged = true → d.poweredDown = true ∨ InRange p d.curFreq
  restPins : d.rxInit = true → n.sel = true ∧ n.clk = false ∧ n.dataDir = .out

/-- The clauses about the filter: the ranges of R115. -/
structure FilterInv (p : Params) (f : Filter) : Prop where
  coefficients : f.fltInit = true → f.qc.toNat ≤ 429490 ∧ 655 ≤ f.rc.toNat ∧ f.rc.toNat ≤ 42949018
  estimateRange : f.fltInit = true → p.numerics = .fixedPoint → f.x.toNat ≤ 0xFF0000
  uncertaintyRange : f.fltInit = true → p.numerics = .fixedPoint → f.p.toNat < 2 ^ 26

/-- The invariant is its three parts. -/
theorem inv_iff_parts {s : State} :
    s.Inv ↔ EngineInv s.engine ∧ DriverInv s.params s.driver s.pins ∧ FilterInv s.params s.filter :=
  ⟨fun ⟨hs, hl, hd, hu, he, hn, hc, hx, hp⟩ => ⟨⟨hs, hl, he⟩, ⟨hd, hu, hn⟩, ⟨hc, hx, hp⟩⟩,
    fun ⟨⟨hs, hl, he⟩, ⟨hd, hu, hn⟩, ⟨hc, hx, hp⟩⟩ => ⟨hs, hl, hd, hu, he, hn, hc, hx, hp⟩⟩

/-- The invariant reads parameters, engine, driver, lines and filter alone. -/
theorem inv_of_same_parts {s t : State} (h : s.Inv) (hp : t.params = s.params) (he : t.engine = s.engine)
    (hd : t.driver = s.driver) (hn : t.pins = s.pins) (hf : t.filter = s.filter) : t.Inv := by
  rw [inv_iff_parts, hp, he, hd, hn, hf]
  exact inv_iff_parts.mp h

/-! ## Reset -/

theorem engineInv_reset : EngineInv Engine.reset := ⟨rfl, rfl, fun _ => ⟨rfl, rfl, rfl, fun _ => rfl⟩⟩

theorem driverInv_reset (p : Params) (n : Pins) : DriverInv p Driver.reset n := ⟨nofun, nofun, nofun⟩

theorem filterInv_reset (p : Params) : FilterInv p Filter.reset := ⟨nofun, nofun, nofun⟩

/-- The state after the reset input meets the invariant, whatever stood before it. -/
theorem takeReset_inv (rest : List Arrival) (s : State) : (takeReset rest s).Inv :=
  inv_iff_parts.mpr ⟨engineInv_reset, driverInv_reset _ _, filterInv_reset _⟩

/-- Settles O57: reset leaves empty buffers and no component initialised; the parameter test of R233 finds no
violation in the test defaults. -/
theorem resetMeetsInvariant : Obligations.ResetMeetsInvariant :=
  ⟨inv_iff_parts.mpr ⟨engineInv_reset, driverInv_reset _ _, filterInv_reset _⟩, paramsViolation_none.mp (by decide)⟩

/-! ## The engine -/

/-- R52 (7) asks nothing of an engine that is not stopped. -/
theorem engineInv_of_active {e : Engine} (hs : Memory.wf 100 e.samples = true) (hl : Memory.wf 50 e.laps = true)
    (ht : e.timerState ≠ .stopped) : EngineInv e :=
  ⟨hs, hl, fun h => absurd h ht⟩

/-- R183: a reset of the engine, in any timer state. -/
theorem engineInv_engineReset (e : Engine) (ts : TimerState) : EngineInv { engineReset e with timerState := ts } :=
  ⟨rfl, rfl, fun _ => ⟨rfl, rfl, rfl, fun _ => rfl⟩⟩

/-- R182: what `LAP.STOP` leaves. -/
theorem engineInv_discardCal (clears : Bool) (e : Engine) (ts : TimerState) :
    EngineInv { discardCal clears (engineReset e) with timerState := ts } := by
  obtain ⟨hs, hl, he⟩ := engineInv_engineReset e ts
  cases clears <;> exact ⟨hs, hl, he⟩

/-- R189: a stored sample keeps the canonical form and touches nothing else the invariant reads. -/
theorem EngineInv.storedAndAdvanced {e : Engine} (h : EngineInv e) (sample : Amp) :
    EngineInv (storedAndAdvanced sample e) :=
  ⟨Memory.wf_write sample e.sampleCursor.isLt h.samplesCanonical, h.lapsCanonical, h.stoppedEmpty⟩

/-- The engine's step keeps the engine's clauses: in `STOPPED` it detects nothing, and elsewhere only the canonical
form is asked for. -/
theorem EngineInv.lapStepOp {s : State} (h : EngineInv s.engine) (now : Millis) (sample : Amp) :
    EngineInv (lapStepOp now sample s).engine := by
  have hst := h.storedAndAdvanced sample
  rcases lapStepOp_cases now sample s with ⟨k, hk, hs⟩ | ⟨_, _, hs⟩ | ⟨_, hr, hs⟩ <;> rw [hs]
  · rcases hk with rfl | ⟨hne, _⟩
    · exact hst
    · exact engineInv_of_active hst.samplesCanonical hst.lapsCanonical hne
  · exact engineInv_of_active hst.samplesCanonical hst.lapsCanonical nofun
  · have hne : s.engine.timerState ≠ .stopped := by simp [hr]
    exact engineInv_of_active hst.samplesCanonical
      (Memory.wf_write _ s.engine.lapCursor.isLt h.lapsCanonical) hne

/-- Every operation keeps the engine's clauses. -/
theorem exec_engineInv {i : Instr} {s t : State} (h : exec i s = .next t) (hi : EngineInv s.engine) :
    EngineInv t.engine := by
  cases i with
  | fltInit | fltStep => rw [exec_engine h (.inl rfl)]; exact hi
  | rxInit | rxSetfreq | rxHousekeep | rxReadrssi | rxVerify | frameWf | frameWp | frameRd =>
    rw [exec_engine h (.inr rfl)]; exact hi
  | lapStart => cases complete_eq_next.mp h; exact engineInv_engineReset _ _
  | lapStop => cases complete_eq_next.mp h; exact engineInv_discardCal _ _ _
  | lapTick now =>
    obtain ⟨m, v, sample, rfl⟩ := execLapTick_next h
    exact EngineInv.lapStepOp (s := { s with env := v, filter := s.filter.stepped s.params.numerics m }) hi now sample
  | lapStep now sample => cases complete_eq_next.mp h; exact hi.lapStepOp now sample
  | lapGetrssi | lapAvail => cases complete_eq_next.mp h; exact hi
  | lapGettime =>
    cases complete_eq_next.mp h
    refine ⟨hi.samplesCanonical, hi.lapsCanonical, fun hst => ?_⟩
    obtain ⟨hc, _, hcur, hl⟩ := hi.stoppedEmpty hst
    exact ⟨hc, rfl, hcur, hl⟩
  | lapSetcb | calNstart | calNstop | calXstart | calXstop =>
    cases complete_eq_next.mp h
    exact ⟨hi.samplesCanonical, hi.lapsCanonical, hi.stoppedEmpty⟩

/-! ## The driver -/

section
variable {p : Params} {d : Driver} {n : Pins}

/-- R134, R135: a write frame ends with the lines at rest and does not turn `DATA`. -/
theorem DriverInv.writeFrame (h : DriverInv p d n) (b : Bool) :
    DriverInv p d { n with sel := true, clk := false, data := b } := by
  refine ⟨h.downAtSentinel, h.unsettledTuned, fun hi => ?_⟩
  obtain ⟨_, _, hdir⟩ := h.restPins hi
  exact ⟨rfl, rfl, hdir⟩

/-- R136: a read frame ends with the lines at rest and `DATA` an output. -/
theorem DriverInv.readFrame (h : DriverInv p d n) : DriverInv p d ⟨true, false, false, .out⟩ :=
  ⟨h.downAtSentinel, h.unsettledTuned, fun _ => ⟨rfl, rfl, rfl⟩⟩

/-- R155, R159: a new write time keeps the clauses, and so does a flag that is cleared or kept. -/
theorem DriverInv.settle (h : DriverInv p d n) (now : Millis) {b : Bool} (hb : b = true → d.recentlyChanged = true) :
    DriverInv p { d with lastWriteMs := now, recentlyChanged := b } n :=
  ⟨h.downAtSentinel, fun hr => h.unsettledTuned (hb hr), h.restPins⟩

end

/-- R152: powering down puts the sentinel into the frequency register. -/
theorem driverInv_powerDownPath {s : State} (h : DriverInv s.params s.driver s.pins) (now : Millis) {f : Word16}
    (hf : f = s.params.powerDownFreq) :
    DriverInv s.params (powerDownPath now f s).driver (powerDownPath now f s).pins := by
  rw [powerDownPath_eq]
  exact ⟨fun _ => hf, fun _ => .inl rfl, (h.writeFrame true).restPins⟩

/-- R153: tuning leaves the receiver powered, at a frequency in range. -/
theorem driverInv_tuningPath {s : State} (h : DriverInv s.params s.driver s.pins) (now : Millis) {f : Word16}
    (hf : InRange s.params f) :
    DriverInv s.params (tuningPath now f s).driver (tuningPath now f s).pins := by
  rw [tuningPath_eq]
  exact ⟨nofun, fun _ => .inr hf, (h.writeFrame false).restPins⟩

theorem driverInv_setFreq {now : Millis} {f : Word16} {s t : State} (h : setFreq now f s = .ok t)
    (hi : DriverInv s.params s.driver s.pins) : DriverInv s.params t.driver t.pins := by
  rcases (setFreq_cases h).2 with ⟨_, rfl⟩ | ⟨_, hf, rfl⟩ | ⟨_, _, hf, rfl⟩
  · exact hi
  · exact driverInv_powerDownPath hi now hf
  · exact driverInv_tuningPath hi now hf

/-- R158: an attempt clears the flag or keeps it. -/
theorem driverInv_verifyAttempt {p : Params} {s : State} (h : DriverInv p s.driver s.pins) (now : Millis) :
    DriverInv p (verifyAttempt now s).2.driver (verifyAttempt now s).2.pins := by
  rw [verifyAttempt_eq]
  refine h.readFrame.settle now ?_
  split_ifs
  · nofun
  · exact id

theorem driverInv_housekeep {now : Millis} {f : Word16} {s t : State} (h : housekeep now f s = .ok t)
    (hi : DriverInv s.params s.driver s.pins) : DriverInv s.params t.driver t.pins := by
  obtain ⟨_, _, s1, hcommit, hverify⟩ := housekeep_cases h
  have h1 : DriverInv s.params s1.driver s1.pins := by
    rcases housekeepCommit_cases hcommit with ⟨_, rfl⟩ | ⟨_, _, hs⟩
    · exact hi
    · exact driverInv_setFreq hs hi
  rcases housekeepVerify_cases hverify with ⟨_, rfl⟩ | ⟨_, _, _, rfl⟩
  · exact h1
  · exact driverInv_verifyAttempt h1 now

/-- Every operation keeps the driver's clauses. -/
theorem exec_driverInv {i : Instr} {s t : State} (h : exec i s = .next t)
    (hi : DriverInv s.params s.driver s.pins) : DriverInv s.params t.driver t.pins := by
  cases i with
  | rxInit =>
    cases complete_eq_next.mp h
    rw [restLines_eq, sendWp_eq]
    exact ⟨nofun, nofun, fun _ => ⟨rfl, rfl, rfl⟩⟩
  | rxSetfreq now f =>
    obtain ⟨_, hs, rfl⟩ := execRxSetfreq_next h
    rw [setRet_driver, setRet_pins]
    exact driverInv_setFreq hs hi
  | rxHousekeep now f =>
    obtain ⟨_, hs, rfl⟩ := execRxHousekeep_next h
    rw [setRet_driver, setRet_pins]
    exact driverInv_housekeep hs hi
  | rxReadrssi =>
    obtain ⟨_, _, rfl⟩ := execRxReadrssi_next h
    exact hi
  | rxVerify now =>
    obtain ⟨_, rfl⟩ := execRxVerify_next h
    exact driverInv_verifyAttempt hi now
  | frameWf addr value =>
    cases complete_eq_next.mp h
    rw [sendWf_eq]
    exact hi.writeFrame false
  | frameWp mask =>
    cases complete_eq_next.mp h
    rw [sendWp_eq]
    exact hi.writeFrame _
  | frameRd addr =>
    cases complete_eq_next.mp h
    rw [sendRd_eq]
    exact hi.readFrame
  | fltInit | fltStep | lapTick | lapStart | lapStop | lapStep | lapGetrssi | lapAvail | lapGettime | lapSetcb
  | calNstart | calNstop | calXstart | calXstop =>
    obtain ⟨hd, hn⟩ := exec_driver_pins h nofun
    rw [hd, hn]
    exact hi

/-! ## The filter -/

/-- R112, R115: the ranges `FLT.INIT` starts from. -/
theorem filterInv_initialised (p : Params) (rawQ : BitVec 16) {rawR : BitVec 16} (hr : rawR ≠ 0#16) :
    FilterInv p (initialised rawQ rawR) := by
  have hq := rawQ.isLt
  have hlt := rawR.isLt
  have hpos : rawR.toNat ≠ 0 := fun h0 => hr (BitVec.eq_of_toNat_eq h0)
  have hx : (initialised rawQ rawR).x.toNat = 0 := rfl
  have hp : (initialised rawQ rawR).p.toNat = 65536 := rfl
  refine ⟨fun _ => ?_, fun _ _ => by omega, fun _ _ => by omega⟩
  simp only [initialised, scaleQ_toNat, scaleR_toNat]
  omega

/-- R115: the estimate never exceeds the greatest amplitude, since it lies between the old one and the measurement. -/
theorem fixedStep_estimate_le (qc rc : Fixed32) {x : Estimate} (p : Fixed32) (m : Amp) (hx : x.toNat ≤ 0xFF0000) :
    (fixedStep qc rc x p m).1.toNat ≤ 0xFF0000 := by
  have hm := m.isLt
  have he := fixedStep_estimate qc rc p x m
  obtain ⟨hup, hdown⟩ := nextEstimate_between qc rc p x m
  rcases Nat.le_total x.toNat (m.toNat * 65536) with hle | hle
  · have := (hup hle).2
    omega
  · have := (hdown hle).2
    omega

/-- R115: one step of either numerics keeps the filter's clauses; the open numerics keep no range. -/
theorem FilterInv.stepped {p : Params} {f : Filter} (h : FilterInv p f) (m : Amp) :
    FilterInv p (f.stepped p.numerics m) := by
  refine ⟨h.coefficients, fun hi hn => ?_, fun hi hn => ?_⟩ <;> rw [hn]
  · exact fixedStep_estimate_le _ _ _ _ (h.estimateRange hi hn)
  · obtain ⟨_, hlo, hhi⟩ := h.coefficients hi
    have hpos : 1 ≤ f.rc.toNat := by omega
    calc (fixedStep f.qc f.rc f.x f.p m).2.toNat
      _ = nextUncertainty f.qc f.rc f.p := fixedStep_uncertainty f.qc f.rc f.p f.x m hpos
      _ < f.rc.toNat := nextUncertainty_lt f.qc f.rc f.p hpos
      _ ≤ 2 ^ 26 := by omega

/-- Every operation keeps the filter's clauses. -/
theorem exec_filterInv {i : Instr} {s t : State} (h : exec i s = .next t) (hi : FilterInv s.params s.filter) :
    FilterInv s.params t.filter := by
  cases i with
  | fltInit rawQ rawR =>
    obtain ⟨hr, rfl⟩ := execFltInit_eq_next.mp h
    exact filterInv_initialised _ rawQ hr
  | fltStep m =>
    obtain ⟨_, rfl⟩ := execFltStep_next h
    exact hi.stepped m
  | lapTick now =>
    obtain ⟨m, v, sample, rfl⟩ := execLapTick_next h
    obtain ⟨_, _, hs⟩ :=
      lapStepOp_shape now sample { s with env := v, filter := s.filter.stepped s.params.numerics m }
    rw [hs]
    exact hi.stepped m
  | rxInit | rxSetfreq | rxHousekeep | rxReadrssi | rxVerify | frameWf | frameWp | frameRd =>
    rw [exec_filter h (.inl rfl)]; exact hi
  | lapStart | lapStop | lapStep | lapGetrssi | lapAvail | lapGettime | lapSetcb | calNstart | calNstop | calXstart
  | calXstop => rw [exec_filter h (.inr rfl)]; exact hi

/-! ## The step -/

/-- Every operation keeps the invariant. -/
theorem exec_inv {i : Instr} {s t : State} (h : exec i s = .next t) (hi : s.Inv) : t.Inv := by
  obtain ⟨he, hd, hf⟩ := inv_iff_parts.mp hi
  obtain ⟨hp, _, _⟩ := exec_sameOutside h
  rw [inv_iff_parts, hp]
  exact ⟨exec_engineInv h he, exec_driverInv h hd, exec_filterInv h hf⟩

/-- Settles O56: an idle step and new inputs leave every part the invariant reads, a reset meets it afresh, and an
operation keeps it. -/
theorem stepKeepsInvariant : Obligations.StepKeepsInvariant := by
  intro s t _ hi h
  obtain ⟨_, ⟨_, rfl⟩ | ⟨c, rest, _, rfl⟩ | ⟨rest, _, rfl⟩ | ⟨_, rest, i, _, _, _, hx⟩⟩ := step_cases h
  · exact ⟨hi, rfl⟩
  · exact ⟨inv_of_same_parts hi rfl rfl rfl rfl rfl, rfl⟩
  · exact ⟨takeReset_inv rest s, rfl⟩
  · have harr : (s.setArrivals rest).Inv := inv_of_same_parts hi rfl rfl rfl rfl rfl
    obtain ⟨hp, _, _⟩ := exec_sameOutside hx
    exact ⟨exec_inv hx harr, hp⟩

end Sys2Proof.Machine
end

section
/-! SUPPORT. Proofs about the port and the order of operations (`spec/20_memory.md`): what a step does with each kind
of arrival (R72, R77), and what a tick reads while the frequency is unsettled (R73). -/

namespace Sys2Proof.Machine

/-! ## What a step finds at the port (R72, R77, R261, R262)

Parameters that meet the constraints pass the test of R233 before any operation, so that the first arrival decides. -/

section
variable {s : State} {w : PortWord} {early : Bool} {rest : List Arrival} {i : Instr}

/-- R261: nothing has arrived. -/
theorem service_idle (hp : Constraints s.params) (ha : s.arrivals = []) : service s = .idle := by
  simp only [service, paramsViolation_none.mpr hp, ha]

/-- R77: new configuration inputs have arrived. -/
theorem service_inputs (hp : Constraints s.params) {c : Config.Inputs} (ha : s.arrivals = .inputs c :: rest) :
    service s = .moved ((s.setInputs c).setArrivals rest) := by
  simp only [service, paramsViolation_none.mpr hp, ha]

/-- R262: the reset input has arrived. -/
theorem service_reset (hp : Constraints s.params) (ha : s.arrivals = .reset :: rest) :
    service s = .moved (takeReset rest s) := by
  simp only [service, paramsViolation_none.mpr hp, ha]

/-- R72: a request has arrived. -/
theorem service_request (hp : Constraints s.params) (ha : s.arrivals = .request w early :: rest) :
    service s = serveRequest w early rest s := by
  simp only [service, paramsViolation_none.mpr hp, ha]

/-- R72: a request the block serves, made after the operation before it had completed, is run. -/
theorem serveRequest_run (hd : decode s.params w = .ok i) (hb : BlockSends s.params i) :
    serveRequest w false rest s = .run i (s.setArrivals rest) := by
  simp [serveRequest, hd, sentByBlock_iff.mpr hb]

/-- R97: a frame the block never sends is turned away, early or not. -/
theorem serveRequest_neverSent (hd : decode s.params w = .ok i) (hb : ¬ BlockSends s.params i) :
    serveRequest w early rest s = .turnedAway (.frameNeverSent i) := by
  simp [serveRequest, hd, sentByBlock_eq_false.mpr hb]

end

/-- Settles O9: the head of the port is the request, and the port's test of R97 decides between running it and turning
it away. -/
theorem stepRunsDecodedRequest : Obligations.StepRunsDecodedRequest := by
  intro s w rest i hp ha hd
  have hs : service s = serveRequest w false rest s := service_request hp ha
  constructor
  · intro hb
    rw [step, hs, serveRequest_run hd hb]
  · intro hb
    rw [step, hs, serveRequest_neverSent hd hb]

/-- Settles O12: one kind of arrival each; the state a step moves to is the one the port gives. -/
theorem idleInputsAndReset : Obligations.IdleInputsAndReset := by
  intro s rest hp
  refine ⟨fun ha => ?_, fun c ha => ?_, fun ha => ?_⟩
  · rw [step, service_idle hp ha]
  · rw [step, service_inputs hp ha]
    rfl
  · rw [step, service_reset hp ha]
    rfl

/-! ## A tick while the frequency is unsettled (R73, R161) -/

/-- R114: `FLT.STEP` of an initialised filter completes, its result the unrounded estimate. -/
theorem execFltStep_initialised {s : State} (h : s.filter.fltInit = true) (m : Amp) :
    execFltStep m s =
      .next ((s.setFilter (s.filter.stepped s.params.numerics m)).setRet
        ((s.filter.stepped s.params.numerics m).x.setWidth 32)) :=
  completeOr_eq_next.mpr ⟨_, map_eq_ok.mpr ⟨_, filterUpdate_eq h, rfl⟩, rfl⟩

/-- R161: while the frequency is unsettled the amplitude read gives 0 and leaves the state as it is. -/
theorem readRssi_unsettled {s : State} {r : Amp × State} (hu : s.driver.recentlyChanged = true)
    (h : readRssi s = .ok r) : r = (0#8, s) := by
  rcases (readRssi_cases h).2 with ⟨_, hr⟩ | ⟨hset, _⟩
  · exact hr
  · rw [hu] at hset
    cases hset

/-- R73, R184: an answer of such a tick is the filter stepped on 0 and the engine's step on the rounded estimate, in the
environment as it was. -/
theorem execLapTick_unsettled {now : Millis} {s t : State} (hu : s.driver.recentlyChanged = true)
    (h : execLapTick now s = .next t) :
    s.filter.fltInit = true ∧
      t = (lapStepOp now (roundEst (s.filter.stepped s.params.numerics 0#8).x)
        (s.setFilter (s.filter.stepped s.params.numerics 0#8))).setRet 0#32 := by
  obtain ⟨_, hm, rfl⟩ := completeOr_eq_next.mp h
  obtain ⟨_, ht, rfl⟩ := map_eq_ok.mp hm
  obtain ⟨_, hf, m, v, est, f, hread, _, hupdate, rfl⟩ := lapTickOp_cases ht
  obtain ⟨rfl, hs⟩ := Prod.mk.inj (readRssi_unsettled hu hread)
  obtain rfl : v = s.env := congrArg State.env hs
  have hstepped := (filterUpdate_cases hupdate).2
  obtain rfl : est = (s.filter.stepped s.params.numerics 0#8).x := congrArg Prod.fst hstepped
  obtain rfl : f = s.filter.stepped s.params.numerics 0#8 := congrArg (·.2.filter) hstepped
  exact ⟨hf, rfl⟩

/-- R189: in every timer state the engine's step stores the sample at its own cursor. -/
theorem lapStepOp_samples (now : Millis) (sample : Amp) (s : State) :
    (lapStepOp now sample s).engine.samples =
      Memory.write s.engine.samples s.engine.sampleCursor.val sample := by
  rcases lapStepOp_cases now sample s with ⟨_, _, hs⟩ | ⟨_, _, hs⟩ | ⟨_, _, hs⟩ <;> rw [hs] <;> rfl

/-- R189: the sample just stored is read back at the cursor the step began with. -/
theorem readSample_lapStepOp_same {s : State} (h : Memory.wf 100 s.engine.samples = true) (now : Millis)
    (sample : Amp) : readSample (lapStepOp now sample s).engine s.engine.sampleCursor = sample := by
  rw [readSample, lapStepOp_samples]
  exact Memory.read_write_same s.engine.sampleCursor.val sample h

/-- Settles O42: such a tick is the filter stepped on 0, as `FLT.STEP` steps it, and the engine's step, which writes
neither environment nor driver nor filter and stores its sample at the cursor. -/
theorem unsettledTickFiltersZero : Obligations.UnsettledTickFiltersZero := by
  intro s t now hu h
  obtain ⟨hf, rfl⟩ := execLapTick_unsettled hu h
  obtain ⟨_, _, hstep⟩ := lapStepOp_shape now (roundEst (s.filter.stepped s.params.numerics 0#8).x)
    (s.setFilter (s.filter.stepped s.params.numerics 0#8))
  refine ⟨?env, ?driver, _, execFltStep_initialised hf 0#8, ?filter, fun hwf => ?sample⟩
  case env => rw [hstep]; rfl
  case driver => rw [hstep]; rfl
  case filter => rw [hstep]; rfl
  case sample =>
    exact readSample_lapStepOp_same (s := s.setFilter (s.filter.stepped s.params.numerics 0#8)) hwf now _

end Sys2Proof.Machine
end

section
/-! SUPPORT. Proofs about the encodings (`spec/30_encoding.md`): the request words and their codes, the cells of the
frame words, the frequency codec, and the read-back. -/

namespace Sys2Proof.Machine

/-! ## Request words (R92, R93) -/

/-- Settles O1: one lemma of the family for each instruction. -/
theorem decodeInvertsEncode : Obligations.DecodeInvertsEncode := by
  intro i
  cases i with
  | fltInit rawQ rawR => exact Laws.DecodeEncode.fltInit rawQ rawR
  | fltStep m => exact Laws.DecodeEncode.fltStep m
  | rxInit => exact Laws.DecodeEncode.rxInit
  | rxSetfreq now f => exact Laws.DecodeEncode.rxSetfreq now f
  | rxHousekeep now f => exact Laws.DecodeEncode.rxHousekeep now f
  | rxReadrssi => exact Laws.DecodeEncode.rxReadrssi
  | rxVerify now => exact Laws.DecodeEncode.rxVerify now
  | lapStart => exact Laws.DecodeEncode.lapStart
  | lapStop => exact Laws.DecodeEncode.lapStop
  | lapTick now => exact Laws.DecodeEncode.lapTick now
  | lapStep now sample => exact Laws.DecodeEncode.lapStep now sample
  | lapGetrssi => exact Laws.DecodeEncode.lapGetrssi
  | lapAvail => exact Laws.DecodeEncode.lapAvail
  | lapGettime => exact Laws.DecodeEncode.lapGettime
  | lapSetcb en => exact Laws.DecodeEncode.lapSetcb en
  | calNstart => exact Laws.DecodeEncode.calNstart
  | calNstop => exact Laws.DecodeEncode.calNstop
  | calXstart => exact Laws.DecodeEncode.calXstart
  | calXstop => exact Laws.DecodeEncode.calXstop
  | frameWf addr value => exact Laws.DecodeEncode.frameWf addr value
  | frameWp mask => exact Laws.DecodeEncode.frameWp mask
  | frameRd addr => exact Laws.DecodeEncode.frameRd addr

/-- Settles O3: the three fields of a request word are what it was assembled from, and the operation map reads its
operands from them. -/
theorem commandCodesAndOperandFields : Obligations.CommandCodesAndOperandFields := by
  intro p now arg
  have hcmd (c : BitVec 5) : cmdField (c ++ now ++ arg) = c := Laws.cmdField_reqWord c now arg
  have hnow (c : BitVec 5) : nowField (c ++ now ++ arg) = now := Laws.nowField_reqWord c now arg
  have harg (c : BitVec 5) : argField (c ++ now ++ arg) = arg := Laws.argField_reqWord c now arg
  simp [decode, decodeCmd, hcmd, hnow, argLow16, argHigh16, argAmp, argEn, harg]

/-! ## Reserved codes (R96) -/

/-- R96: the command codes that the operation map of R93 does not list. -/
def reservedCodes : List Nat := [0x00, 0x03, 0x09, 0x0A, 0x0B, 0x0C, 0x0D, 0x0E, 0x0F, 0x1C, 0x1D, 0x1E, 0x1F]

/-- R93, R96: a word has a reserved code and is refused by it, or has another code and is an operation. -/
theorem decodeCmd_cases (w : ReqWord) :
    ((cmdField w).toNat ∈ reservedCodes ∧ decodeCmd w = .error (.reservedCommand (cmdField w))) ∨
      ((cmdField w).toNat ∉ reservedCodes ∧ ∃ i, decodeCmd w = .ok i) := by
  have hlt : (cmdField w).toNat < 32 := (cmdField w).isLt
  unfold decodeCmd
  split
  -- The map's last arm, reached by the codes that none of its 19 lines names.
  case h_20 =>
    refine .inl ⟨?_, rfl⟩
    simp only [imp_false] at *
    simp only [reservedCodes, List.mem_cons, List.not_mem_nil, or_false]
    omega
  all_goals
    rename_i hc
    exact .inr ⟨by rw [hc]; decide, _, rfl⟩

/-- R96. -/
theorem decodeCmd_reserved {w : ReqWord} (h : (cmdField w).toNat ∈ reservedCodes) :
    decodeCmd w = .error (.reservedCommand (cmdField w)) := by
  rcases decodeCmd_cases w with ⟨_, hd⟩ | ⟨hn, _⟩
  · exact hd
  · exact absurd h hn

/-- R93. -/
theorem decodeCmd_operation {w : ReqWord} (h : (cmdField w).toNat ∉ reservedCodes) : ∃ i, decodeCmd w = .ok i := by
  rcases decodeCmd_cases w with ⟨hr, _⟩ | ⟨_, hd⟩
  · exact absurd hr h
  · exact hd

/-- R234: what the decoder refuses is turned away, early or not. -/
theorem serveRequest_undecodable {s : State} {w : PortWord} {e : DecodeError} (early : Bool) (rest : List Arrival)
    (hd : decode s.params w = .error e) : serveRequest w early rest s = .turnedAway (refusalOf e) := by
  simp only [serveRequest, hd]

/-- Settles O4: the decoder refuses exactly the reserved codes, and the port asks the decoder first. -/
theorem reservedCodesAreRefused : Obligations.ReservedCodesAreRefused := by
  refine ⟨fun s w early rest hp ha hr => ?_, fun _ w hr => decodeCmd_operation hr⟩
  have hd : decode s.params (.cmd w) = .error (.reservedCommand (cmdField w)) := decodeCmd_reserved hr
  rw [step, service_request hp ha, serveRequest_undecodable early rest hd]
  rfl

/-! ## The frequency codec (R87, R88) -/

/-- R87: with `tf = (F - 479) / 2`, `tf / 32` stands above the low seven bits and `tf % 32` in them. -/
theorem encodeFreq_toNat {f : Word16} (h : HasEncoding f) :
    (encodeFreq f).toNat = (f.toNat - 479) / 2 / 32 * 2 ^ 7 + (f.toNat - 479) / 2 % 32 := by
  have hfits : (f.toNat - 479) / 2 / 32 * 2 ^ 7 + (f.toNat - 479) / 2 % 32 < 2 ^ 16 := by omega
  have hlow : (f.toNat - 479) / 2 % 32 < 2 ^ 7 := by omega
  rw [encodeFreq, Config.freqOffset, BitVec.toNat_ofNat, ← Nat.shiftLeft_add_eq_or_of_lt hlow, Nat.shiftLeft_eq,
    Nat.mod_eq_of_lt hfits]

/-- R87: the low part is below 32, so that bits 5 and 6 are 0. -/
theorem encodeFreq_bits_clear {f : Word16} (h : HasEncoding f) {k : Nat} (hk : k = 5 ∨ k = 6) :
    (encodeFreq f).getLsbD k = false := by
  rw [BitVec.getLsbD, encodeFreq_toNat h, Nat.testBit_eq_decide_div_mod_eq, decide_eq_false_iff_not]
  rcases hk with rfl | rfl <;> omega

/-- R87: two frequencies share a register value exactly where they share `tf`. -/
theorem encodeFreq_inj {f g : Word16} (hf : HasEncoding f) (hg : HasEncoding g) :
    encodeFreq f = encodeFreq g ↔ (f.toNat - 479) / 2 = (g.toNat - 479) / 2 := by
  rw [← BitVec.toNat_inj, encodeFreq_toNat hf, encodeFreq_toNat hg]
  omega

/-- Settles O5: the value bounds `tf % 32` below bit 5 and keeps `tf / 32` above bit 6, so it determines `tf`. -/
theorem frequencyEncodingValue : Obligations.FrequencyEncodingValue := fun _ hf =>
  ⟨encodeFreq_toNat hf, encodeFreq_bits_clear hf (.inr rfl), encodeFreq_bits_clear hf (.inl rfl),
    fun _ hg => encodeFreq_inj hf hg⟩

/-- R88: the inverse puts the two parts of a register value together again. -/
theorem decodeFreq_eq (v : Word16) : decodeFreq v = 2 * (32 * (v.toNat / 2 ^ 7) + v.toNat % 2 ^ 7) + 479 := by
  rw [decodeFreq, Config.freqOffset, Nat.shiftRight_eq_div_pow]
  exact congrArg (fun low => 2 * (32 * (v.toNat / 2 ^ 7) + low) + 479) (Nat.and_two_pow_sub_one_eq_mod v.toNat 7)

/-- R88: decoding gives back the even part of `F - 479`. -/
theorem decodeFreq_encodeFreq {f : Word16} (h : HasEncoding f) :
    decodeFreq (encodeFreq f) = 2 * ((f.toNat - 479) / 2) + 479 := by
  rw [decodeFreq_eq, encodeFreq_toNat h]
  omega

/-- Settles O6: decoding loses the parity of `F - 479` alone, and the two frequencies share `tf`. -/
theorem frequencyCodecIsStable : Obligations.FrequencyCodecIsStable := by
  intro f hf
  have hd := decodeFreq_encodeFreq hf
  have hg : (BitVec.ofNat 16 (decodeFreq (encodeFreq f))).toNat = 2 * ((f.toNat - 479) / 2) + 479 := by
    rw [BitVec.toNat_ofNat, hd]
    omega
  constructor
  · omega
  · exact (encodeFreq_inj (by omega) hf).mpr (by omega)

/-! ## The read-back (R89) -/

/-- The bit of weight `2 ^ k` is element k. -/
theorem testBit_bitsToNat (bits : List Bool) : ∀ k, (bitsToNat bits).testBit k = bits.getD k false := by
  induction bits with
  | nil => intro k; simp [bitsToNat]
  | cons b bs ih =>
    intro k
    cases k with
    | zero => cases b <;> simp [bitsToNat, Nat.testBit_zero]
    | succ k =>
      have hhalf : (b.toNat + 2 * bitsToNat bs) / 2 = bitsToNat bs := by
        have := b.toNat_lt
        omega
      rw [bitsToNat, Nat.testBit_succ, hhalf, ih, List.getD_cons_succ]

theorem bitsToNat_lt (bits : List Bool) : bitsToNat bits < 2 ^ bits.length := by
  induction bits with
  | nil => simp [bitsToNat]
  | cons b bs ih =>
    have := b.toNat_lt
    rw [bitsToNat, List.length_cons, Nat.pow_succ]
    omega

/-- Its value is the sum of its elements weighted by their powers of two. -/
theorem bitsToNat_eq_sum (bits : List Bool) :
    bitsToNat bits = ((List.range bits.length).map fun k => (bits.getD k false).toNat * 2 ^ k).sum := by
  induction bits with
  | nil => rfl
  | cons b bs ih =>
    have hweight (k : Nat) : 2 * ((bs.getD k false).toNat * 2 ^ k) = (bs.getD k false).toNat * 2 ^ (k + 1) := by ring
    rw [bitsToNat, ih, List.length_cons, List.range_succ_eq_map, List.map_cons, List.sum_cons, List.map_map,
      ← List.sum_map_mul_left]
    simp only [hweight, Function.comp_def, List.getD_cons_succ, List.getD_cons_zero, pow_zero, mul_one]

/-- R89: the read-back loses nothing of the first 16 samples. -/
theorem readBack_toNat (samples : List Bool) : (readBack samples).toNat = bitsToNat (samples.take 16) := by
  have hlen : 2 ^ (samples.take 16).length ≤ 2 ^ 16 :=
    Nat.pow_le_pow_right (by decide) (List.length_take_le 16 samples)
  rw [readBack, BitVec.toNat_ofNat, Nat.mod_eq_of_lt ((bitsToNat_lt _).trans_le hlen)]

/-- One of the first n elements. -/
theorem getD_take {n k : Nat} (bits : List Bool) (hk : k < n) : (bits.take n).getD k false = bits.getD k false := by
  rw [List.getD_eq_getElem?_getD, List.getD_eq_getElem?_getD, List.getElem?_take_of_lt hk]

/-- Settles O7: the read-back is the number the first 16 samples are the binary digits of. -/
theorem readBackAssembly : Obligations.ReadBackAssembly := by
  intro samples hlen
  constructor
  · intro k hk
    rw [BitVec.getLsbD, readBack_toNat, testBit_bitsToNat, getD_take samples hk]
  · have htake : (samples.take 16).length = 16 := by rw [List.length_take, hlen]; rfl
    rw [readBack_toNat, bitsToNat_eq_sum, htake]
    congr 1
    exact List.map_congr_left fun k hk => by rw [getD_take samples (List.mem_range.mp hk)]

/-! ## The cells of a frame word (R80, R82 to R84) -/

/-- The bits of a word, most significant first: the order in which a frame word's cells are sent. -/
def msbFirst {n : Nat} (x : BitVec n) : List Bool := (List.range n).map fun k => x.getMsbD k

/-- R80. -/
theorem cellsOf_eq (w : FrameWord) : cellsOf w = msbFirst w := rfl

theorem msbFirst_length {n : Nat} (x : BitVec n) : (msbFirst x).length = n := by
  simp [msbFirst]

/-- A concatenation is sent part after part. -/
theorem msbFirst_append {m n : Nat} (x : BitVec m) (y : BitVec n) : msbFirst (x ++ y) = msbFirst x ++ msbFirst y := by
  rw [msbFirst, List.range_add, List.map_append, List.map_map]
  congr 1
  · exact List.map_congr_left fun k hk => by
      rw [BitVec.getMsbD_append, if_neg (Nat.not_le.mpr (List.mem_range.mp hk))]
  · exact List.map_congr_left fun k _ => by
      rw [Function.comp_apply, BitVec.getMsbD_append, if_pos (Nat.le_add_right m k), Nat.add_sub_cancel_left]

/-- A field that stands reversed in the word is sent bit 0 first. -/
theorem msbFirst_reverse {n : Nat} (x : BitVec n) : msbFirst x.reverse = (List.range n).map fun k => x.getLsbD k := by
  simp only [msbFirst, BitVec.getMsbD_reverse]

theorem msbFirst_ofBool (b : Bool) : msbFirst (BitVec.ofBool b) = [b] := by
  cases b <;> rfl

theorem msbFirst_zero (n : Nat) : msbFirst 0#n = List.replicate n false := by
  simp [msbFirst]

/-- R80: the header of every frame, its address and its indicator. -/
theorem msbFirst_header (addr : RegAddr) (b : Bool) :
    msbFirst (addr.reverse ++ BitVec.ofBool b) = addrCells addr ++ [b] := by
  rw [msbFirst_append, msbFirst_reverse, msbFirst_ofBool, addrCells]

/-- R82: the payload of a frequency write, in the order the parameter chooses. -/
theorem msbFirst_payload (p : Config.Params) (value : Word16) :
    msbFirst (if p.payloadMsbFirst then value else value.reverse) = payloadCells p value := by
  cases hp : p.payloadMsbFirst
  · simp [msbFirst_reverse, payloadCells, hp]
  · simp only [if_true, msbFirst, payloadCells, hp]
    exact List.map_congr_left fun k hk => by
      rw [BitVec.getMsbD, decide_eq_true (List.mem_range.mp hk), Bool.true_and]

/-- R82. -/
theorem cellsOf_wfWord (p : Config.Params) (addr : RegAddr) (value : Word16) :
    cellsOf (wfWord p addr value) = wfCells p addr value := by
  rw [cellsOf_eq, wfWord, msbFirst_append, msbFirst_append, msbFirst_header, msbFirst_payload, msbFirst_zero, wfCells]

/-- R84. -/
theorem cellsOf_wpWord (p : Config.Params) (mask : PowerMask) : cellsOf (wpWord p mask) = wpCells p mask := by
  rw [cellsOf_eq, wpWord, msbFirst_append, msbFirst_header, msbFirst_reverse, wpCells]

/-- R83: the driven cells of a read frame. -/
theorem cellsOf_rdWord_take (p : Config.Params) (addr : RegAddr) :
    (cellsOf (rdWord p addr)).take 5 = rdCells p addr := by
  rw [cellsOf_eq, rdWord, msbFirst_append, List.take_left' (msbFirst_length _), msbFirst_header, rdCells]

/-- Settles O8: the bit sequence of a frame is its driven cells and then the samples, and the driven cells are those of
its word. -/
theorem framesCarryTheirEncodedWord : Obligations.FramesCarryTheirEncodedWord := by
  intro p addr value mask d samples hlen
  refine ⟨⟨_, rfl, ?wf⟩, ⟨_, rfl, ?wp⟩, ⟨_, rfl, ?rd⟩⟩
  case wf => rw [bitSequence_write, cellsOf_wfWord]
  case wp => rw [bitSequence_write, cellsOf_wpWord]
  case rd => rw [bitSequence_read d samples _ hlen, cellsOf_rdWord_take]

end Sys2Proof.Machine
end

section
/-! SUPPORT. Proofs about the Signal Filter (`spec/40_signal_filter.md`): what `FLT.INIT` and `FLT.STEP` answer and
leave, the exact values of the default step, and the range of the rounded estimate. -/

namespace Sys2Proof.Machine

/-! ## What the filter's operations answer and leave (R110, R112) -/

/-- R27, R110: an operation of the filter writes the filter and the result port alone. -/
theorem exec_filter_frame {i : Instr} {s t : State} (h : exec i s = .next t) (ho : Owner.of i = .filter) :
    t.trace = s.trace ∧ t.env = s.env ∧ t.driver = s.driver ∧ t.pins = s.pins ∧ SameOutside s t ∧ SameEngine s t := by
  have hw := exec_writes h
  rw [ho] at hw
  obtain ⟨_, _, rfl⟩ := hw
  exact ⟨rfl, rfl, rfl, rfl, ⟨rfl, rfl, rfl⟩, sameEngine_of_eq rfl⟩

/-- R112: `FLT.INIT` refuses a measurement noise of 0. -/
theorem execFltInit_zero (rawQ : BitVec 16) (s : State) :
    execFltInit rawQ 0#16 s = .refused (.badCoefficient 0#16) :=
  if_pos rfl

/-- R110: `FLT.STEP` refuses before `FLT.INIT`. -/
theorem execFltStep_uninitialised {s : State} (h : s.filter.fltInit = false) (m : Amp) :
    execFltStep m s = .refused (.notInitialised .flt) :=
  completeOr_eq_refused.mpr (map_eq_error.mpr (if_pos h))

/-- Settles O29: the answer is the initialised filter, whose coefficients keep the scaled values, and the frame of the
filter's operations is the rest. -/
theorem fltInitEffect : Obligations.FltInitEffect := by
  intro s rawQ rawR
  constructor
  · rintro rfl
    exact execFltInit_zero rawQ s
  · intro hr
    have hexec : exec (.fltInit rawQ rawR) s = .next ((s.setFilter (initialised rawQ rawR)).setRet 0#32) :=
      execFltInit_eq_next.mpr ⟨hr, rfl⟩
    exact ⟨_, hexec, rfl, rfl, rfl, scaleQ_toNat rawQ, scaleR_toNat rawR, rfl, exec_filter_frame hexec rfl⟩

/-! ## The default step, value by value (R114) -/

/-- The two inequalities by which R114's quotients are known. -/
theorem quotient_bounds (a : Nat) {b : Nat} (h : 0 < b) : a / b * b ≤ a ∧ a < (a / b + 1) * b :=
  ⟨Nat.div_mul_le_self a b, (Nat.div_lt_iff_lt_mul h).mp (Nat.lt_succ_self _)⟩

section
variable (qc rc p : Fixed32) (x : Estimate) (m : Amp)

/-- R114: the gain is a quotient rounded down. -/
theorem gain_bounds (h : 1 ≤ rc.toNat) :
    gain qc rc p * (predicted qc p + rc.toNat) ≤ predicted qc p * 65536 ∧
      predicted qc p * 65536 < (gain qc rc p + 1) * (predicted qc p + rc.toNat) := by
  rw [gain_eq]
  exact quotient_bounds _ (by omega)

/-- R114: the new uncertainty is a quotient rounded down. -/
theorem nextUncertainty_bounds (h : 1 ≤ rc.toNat) :
    nextUncertainty qc rc p * (predicted qc p + rc.toNat) ≤ rc.toNat * predicted qc p ∧
      rc.toNat * predicted qc p < (nextUncertainty qc rc p + 1) * (predicted qc p + rc.toNat) := by
  rw [nextUncertainty]
  exact quotient_bounds _ (by omega)

/-- R114: the estimate moves by the product shifted right arithmetically, the floor of its quotient by 65536. -/
theorem nextEstimate_bounds :
    (nextEstimate qc rc x p m - x.toNat) * 65536 ≤ ((m.toNat : Int) * 65536 - x.toNat) * gain qc rc p ∧
      ((m.toNat : Int) * 65536 - x.toNat) * gain qc rc p < (nextEstimate qc rc x p m - x.toNat + 1) * 65536 := by
  rw [nextEstimate, Int.fdiv_eq_ediv_of_nonneg _ (by decide), Nat.cast_mul, Nat.cast_ofNat]
  omega

end

/-- The estimate after a default step, exactly. -/
theorem Filter.stepped_fixedPoint_x (f : Filter) (m : Amp) :
    ((f.stepped .fixedPoint m).x.toNat : Int) = nextEstimate f.qc f.rc f.x f.p m :=
  fixedStep_estimate f.qc f.rc f.p f.x m

/-- The uncertainty after a default step, exactly. -/
theorem Filter.stepped_fixedPoint_p {f : Filter} (h : 1 ≤ f.rc.toNat) (m : Amp) :
    (f.stepped .fixedPoint m).p.toNat = nextUncertainty f.qc f.rc f.p :=
  fixedStep_uncertainty f.qc f.rc f.p f.x m h

/-- Settles O30: the registers hold the exact values of the rule, and each is a quotient rounded down. -/
theorem fltStepFixedPoint : Obligations.FltStepFixedPoint := by
  intro s m hi hn hrc
  have hexec : exec (.fltStep m) s = _ := execFltStep_initialised hi m
  rw [hn] at hexec
  obtain ⟨hklo, hkhi⟩ := gain_bounds s.filter.qc s.filter.rc s.filter.p hrc
  obtain ⟨hplo, hphi⟩ := nextUncertainty_bounds s.filter.qc s.filter.rc s.filter.p hrc
  obtain ⟨hxlo, hxhi⟩ := nextEstimate_bounds s.filter.qc s.filter.rc s.filter.p s.filter.x m
  rw [← Filter.stepped_fixedPoint_p hrc m] at hplo hphi
  rw [← Filter.stepped_fixedPoint_x s.filter m] at hxlo hxhi
  exact ⟨_, gain s.filter.qc s.filter.rc s.filter.p, hexec, hklo, hkhi, hplo, hphi, hxlo, hxhi,
    BitVec.toNat_setWidth_of_le (by decide), rfl, rfl, hi, exec_filter_frame hexec rfl⟩

/-- Settles O31: the estimate register holds the exact value, which lies between the old estimate and the
measurement. -/
theorem estimateStaysBetween : Obligations.EstimateStaysBetween := by
  intro s t m hn h
  obtain ⟨_, rfl⟩ := execFltStep_next h
  rw [hn, setRet_filter, setFilter_filter]
  have hx := Filter.stepped_fixedPoint_x s.filter m
  obtain ⟨hup, hdown⟩ := nextEstimate_between s.filter.qc s.filter.rc s.filter.p s.filter.x m
  constructor
  · intro hle
    have := hup hle
    omega
  · intro hle
    have := hdown hle
    omega

/-! ## Every numerics (R110, R113) -/

/-- R113: under either numerics the new estimate rounds to at most 255, under the default one from an estimate of at
most the greatest amplitude. -/
theorem Filter.stepped_x_lt {n : Config.Numerics} {f : Filter} (h : n = .fixedPoint → f.x.toNat ≤ 0xFF0000)
    (m : Amp) : (f.stepped n m).x.toNat < 0xFF8000 := by
  cases n with
  | fixedPoint =>
    calc (fixedStep f.qc f.rc f.x f.p m).1.toNat
      _ ≤ 0xFF0000 := fixedStep_estimate_le f.qc f.rc f.p m (h rfl)
      _ < 0xFF8000 := by decide
  | open_ => exact openStep_range f.qc f.rc f.p f.x m

/-- R110 (b): where filter and numerics agree, `FLT.STEP` leaves the same filter and the same result. -/
theorem execFltStep_congr {s s2 : State} (hi : s.filter.fltInit = true) (hf : s2.filter = s.filter)
    (hn : s2.params.numerics = s.params.numerics) (m : Amp) :
    ∃ t2, execFltStep m s2 = .next t2 ∧ t2.filter = s.filter.stepped s.params.numerics m ∧
      t2.ret = (s.filter.stepped s.params.numerics m).x.setWidth 32 := by
  have hexec := execFltStep_initialised (hf ▸ hi) m
  rw [hf, hn] at hexec
  exact ⟨_, hexec, rfl, rfl⟩

/-- Settles O32: the answer of an initialised step is the filter stepped, in range under either numerics, and a function
of filter, numerics and measurement. -/
theorem fltStepUnderEveryNumerics : Obligations.FltStepUnderEveryNumerics := by
  intro s m
  constructor
  · intro hi
    exact execFltStep_uninitialised hi m
  · intro hi hx
    have hexec : exec (.fltStep m) s = _ := execFltStep_initialised hi m
    have hrange : ((s.filter.stepped s.params.numerics m).x.toNat + 0x8000) / 65536 ≤ 255 := by
      have := Filter.stepped_x_lt hx m
      omega
    obtain ⟨htrace, henv, hdriver, hpins, hout, heng⟩ := exec_filter_frame hexec rfl
    exact ⟨_, hexec, hrange, rfl, rfl, hi, htrace, henv, hdriver, hpins, hout, heng,
      fun _ hf hn => execFltStep_congr hi hf hn m⟩

/-! ## The rounding (R117) -/

/-- R117: an estimate in range loses nothing when its rounded value is narrowed to a sample. -/
theorem roundEst_toNat {est : Estimate} (h : est.toNat < 0xFF8000) :
    (roundEst est).toNat = (est.toNat + 0x8000) / 65536 := by
  have hfits : (est.toNat + 0x8000) / 65536 < 2 ^ 8 := by omega
  rw [roundEst, BitVec.toNat_ofNat, Nat.shiftRight_eq_div_pow]
  exact Nat.mod_eq_of_lt hfits

/-- Settles O33: adding a half and rounding down is rounding to the nearest, a half up. -/
theorem roundingIsNearest : Obligations.RoundingIsNearest := by
  intro est h
  rw [roundEst_toNat h]
  omega

end Sys2Proof.Machine
end

section
/-! SUPPORT. Proofs about the serial bus (`spec/41_receiver_bus.md`): what each frame asked of the transport answers and
leaves, what the reference receiver stores from a write frame, and a verification attempt against it. -/

namespace Sys2Proof.Machine

/-! ## The frames asked of the transport (R134 to R136) -/

/-- Three events for each driven cell. -/
theorem flatMap_cellEvents_length (cells : List Bool) : (cells.flatMap cellEvents).length = 3 * cells.length := by
  induction cells with
  | nil => rfl
  | cons b bs ih =>
    have hcell : (cellEvents b).length = 3 := rfl
    rw [List.flatMap_cons, List.length_append, ih, hcell, List.length_cons]
    omega

/-- The cells of a write frame stand between two events that begin it and one that ends it. -/
theorem writeFrameEvents_length (cells : List Bool) : (writeFrameEvents cells).length = 3 * cells.length + 3 := by
  rw [writeFrameEvents, List.length_append, List.length_append, flatMap_cellEvents_length, List.length_cons,
    List.length_cons, List.length_cons, List.length_nil]
  omega

/-- R134: the 25 cells of a frequency write, one by one. -/
theorem wfCells_eq (p : Config.Params) (a : RegAddr) (v : Word16) :
    wfCells p a v =
      [a.getLsbD 0, a.getLsbD 1, a.getLsbD 2, a.getLsbD 3, p.writeInd]
        ++ (if p.payloadMsbFirst then
              [v.getLsbD 15, v.getLsbD 14, v.getLsbD 13, v.getLsbD 12, v.getLsbD 11, v.getLsbD 10, v.getLsbD 9,
                v.getLsbD 8, v.getLsbD 7, v.getLsbD 6, v.getLsbD 5, v.getLsbD 4, v.getLsbD 3, v.getLsbD 2,
                v.getLsbD 1, v.getLsbD 0]
            else
              [v.getLsbD 0, v.getLsbD 1, v.getLsbD 2, v.getLsbD 3, v.getLsbD 4, v.getLsbD 5, v.getLsbD 6,
                v.getLsbD 7, v.getLsbD 8, v.getLsbD 9, v.getLsbD 10, v.getLsbD 11, v.getLsbD 12, v.getLsbD 13,
                v.getLsbD 14, v.getLsbD 15])
        ++ [false, false, false, false] := by
  cases hp : p.payloadMsbFirst <;> simp only [wfCells, payloadCells, hp] <;> rfl

theorem wfCells_length (p : Config.Params) (a : RegAddr) (v : Word16) : (wfCells p a v).length = 25 := rfl

theorem wpCells_length (p : Config.Params) (m : PowerMask) : (wpCells p m).length = 25 := rfl

/-- Settles O14: the frame as one equation on the whole state, its cells written out. -/
theorem frameWfEffect : Obligations.FrameWfEffect := by
  intro s a v
  constructor
  · rw [← wfCells_eq, List.append_assoc s.trace, List.append_assoc s.trace]
    exact congrArg (complete 0#32) (sendWf_eq a v s)
  · rw [writeFrameEvents_length, wfCells_length]

/-- Settles O15: the frame as one equation on the whole state; its cells are the ones written out. -/
theorem frameWpEffect : Obligations.FrameWpEffect := by
  intro s m
  constructor
  · rw [List.append_assoc s.trace, List.append_assoc s.trace]
    exact congrArg (complete 0#32) (sendWp_eq m s)
  · rw [writeFrameEvents_length, wpCells_length]

/-- R136: all that a read frame asked of the transport does. -/
theorem execFrameRd_eq (a : RegAddr) (s : State) :
    execFrameRd a s =
      .next { s with
        ret := (readBack (dataAnswers 20 s.env).1).setWidth 32
        pins := ⟨true, false, false, .out⟩
        trace := s.trace ++ readFrameEvents (rdCells s.params a)
        env := (dataAnswers 20 s.env).2 } := by
  rw [execFrameRd, sendRd_eq]
  rfl

/-- Settles O16: the frame as one equation on the whole state, and what 20 draws answer, in general and where 20 answers
are scripted. -/
theorem frameRdEffect : Obligations.FrameRdEffect := by
  intro s a
  have hdraws := dataAnswers_eq 20 s.env
  refine ⟨execFrameRd_eq a s, rfl, congrArg Prod.fst hdraws, congrArg Prod.snd hdraws, ?scripted⟩
  case scripted =>
    intro bits rest hdata hlen
    have hbits := dataAnswers_of_append bits rest s.env hdata
    rw [hlen] at hbits
    exact (execFrameRd_eq a s).trans (by rw [hbits])

/-! ## What the reference receiver stores (R140) -/

/-- The binary digits of a word, least significant first, are the word. -/
theorem bitsToNat_lsbFirst {n : Nat} (x : BitVec n) : bitsToNat ((List.range n).map fun k => x.getLsbD k) = x.toNat := by
  refine Nat.eq_of_testBit_eq fun k => ?_
  rw [testBit_bitsToNat, List.getD_eq_getElem?_getD, List.getElem?_map, BitVec.testBit_toNat]
  by_cases hk : k < n
  · rw [List.getElem?_range hk]
    rfl
  · rw [List.getElem?_eq_none (by simpa using hk), BitVec.getLsbD_of_ge x k (Nat.not_lt.mp hk)]
    rfl

/-- Cells of 0 in the highest places add nothing. -/
theorem bitsToNat_append_false (bits : List Bool) (n : Nat) :
    bitsToNat (bits ++ List.replicate n false) = bitsToNat bits := by
  induction bits with
  | nil =>
    induction n with
    | zero => rfl
    | succ n ih => simpa [List.replicate_succ, bitsToNat] using ih
  | cons b bs ih => rw [List.cons_append, bitsToNat, ih, bitsToNat]

/-- R140: the data bits that cells 5 to 24 of a write frame to a register carry. -/
def carriedBits (p : Config.Params) (addr : RegAddr) (body : List Bool) : List Bool :=
  if p.payloadMsbFirst = true ∧ addr ≠ p.powerRegAddr then (body.take 16).reverse ++ body.drop 16 else body

theorem cellsData_eq (p : Config.Params) (addr : RegAddr) (b : Bool) (body : List Bool) :
    cellsData p (addrCells addr ++ [b] ++ body) = carriedBits p addr body := by
  have hbody : (addrCells addr ++ [b] ++ body).drop 5 = body := List.drop_left' rfl
  rw [cellsData, hbody, List.append_assoc, cellsAddr_addrCells, carriedBits]
  simp [BitVec.toNat_inj]

/-- R140: the receiver at rest stores the data bits of a write frame in the register it addresses, and is at rest
again. -/
theorem observeAll_writeFrame (p : Config.Params) {addr : RegAddr} {body : List Bool} {r : RxRef} (hs : r.sel = true)
    (hc : r.clk = false) (hbody : body.length = 20) :
    r.observeAll p (writeFrameEvents (addrCells addr ++ [p.writeInd] ++ body)) =
      { r with
        regs := Memory.write r.regs addr.toNat (BitVec.ofNat 20 (bitsToNat (carriedBits p addr body)))
        data := body.getLastD false
        input := false
        cells := [] } := by
  obtain ⟨bs, b, rfl⟩ : ∃ bs b, body = bs ++ [b] :=
    ⟨_, _, (List.dropLast_append_getLast (List.ne_nil_of_length_pos (by omega))).symm⟩
  have hlen : (addrCells addr ++ [p.writeInd] ++ bs).length = 24 := by
    simp [addrCells] at hbody ⊢
    omega
  have hind : (addrCells addr ++ [p.writeInd] ++ bs ++ [b])[4]? = some p.writeInd := rfl
  rw [← cellsData_eq p addr p.writeInd, ← List.append_assoc, observeAll_write p _ b hs hc hlen hind,
    List.append_assoc, List.append_assoc, cellsAddr_addrCells, List.getLastD_concat]

/-- R140: under either payload order the receiver stores the value of a frequency write. -/
theorem carriedBits_payload {p : Config.Params} {addr : RegAddr} (ha : addr ≠ p.powerRegAddr) (value : Word16) :
    bitsToNat (carriedBits p addr (payloadCells p value ++ List.replicate 4 false)) = value.toNat := by
  have horder : carriedBits p addr (payloadCells p value ++ List.replicate 4 false)
      = ((List.range 16).map fun k => value.getLsbD k) ++ List.replicate 4 false := by
    cases hp : p.payloadMsbFirst
    · simp [carriedBits, payloadCells, hp]
    · simp only [carriedBits, payloadCells, hp, ha, ne_eq, not_false_eq_true, and_self, if_true]
      rfl
  rw [horder, bitsToNat_append_false, bitsToNat_lsbFirst]

/-- R140: the receiver stores the mask of a power-control write. -/
theorem carriedBits_mask (p : Config.Params) (mask : PowerMask) :
    bitsToNat (carriedBits p p.powerRegAddr ((List.range 20).map fun j => mask.getLsbD j)) = mask.toNat := by
  rw [carriedBits, if_neg (fun h => h.2 rfl), bitsToNat_lsbFirst]

/-- R134, R140: the receiver after a frequency write. -/
theorem observeAll_wf (p : Config.Params) {addr : RegAddr} (ha : addr ≠ p.powerRegAddr) (value : Word16) {r : RxRef}
    (hs : r.sel = true) (hc : r.clk = false) :
    r.observeAll p (writeFrameEvents (wfCells p addr value)) =
      { r with
        regs := Memory.write r.regs addr.toNat (value.setWidth 20), data := false, input := false, cells := [] } := by
  rw [wfCells, List.append_assoc, observeAll_writeFrame p hs hc rfl, carriedBits_payload ha, BitVec.ofNat_toNat]
  rfl

/-- R135, R140: the receiver after a power-control write. -/
theorem observeAll_wp (p : Config.Params) (mask : PowerMask) {r : RxRef} (hs : r.sel = true) (hc : r.clk = false) :
    r.observeAll p (writeFrameEvents (wpCells p mask)) =
      { r with
        regs := Memory.write r.regs p.powerRegAddr.toNat mask
        data := mask.getLsbD 19
        input := false
        cells := [] } := by
  rw [wpCells, observeAll_writeFrame p hs hc rfl, carriedBits_mask, BitVec.ofNat_toNat, BitVec.setWidth_eq]
  rfl

/-- R140, R153: the tuning path, from sleep or not, leaves the receiver at rest with its failures, the frequency's
register value in the frequency register. -/
theorem observeAll_tuning {s : State} {r : RxRef} (ha : s.params.freqRegAddr ≠ s.params.powerRegAddr) (f : Word16)
    (hs : r.sel = true) (hc : r.clk = false) (hm : Memory.wf 16 r.regs = true) :
    ∃ r', r.observeAll s.params (tuningEvents f s) = r' ∧ r'.sel = true ∧ r'.clk = false ∧ r'.fail = r.fail ∧
      Memory.read r'.regs s.params.freqRegAddr.toNat = (encodeFreq f).setWidth 20 := by
  obtain ⟨r1, h1, hs1, hc1, hf1, hm1⟩ : ∃ r1, r.observeAll s.params
      (if s.driver.poweredDown then writeFrameEvents (wpCells s.params s.params.powerMaskNormal) else []) = r1 ∧
      r1.sel = true ∧ r1.clk = false ∧ r1.fail = r.fail ∧ Memory.wf 16 r1.regs = true := by
    cases s.driver.poweredDown
    · exact ⟨r, rfl, hs, hc, rfl, hm⟩
    · exact ⟨_, observeAll_wp s.params s.params.powerMaskNormal hs hc, hs, hc, rfl,
        Memory.wf_write _ s.params.powerRegAddr.isLt hm⟩
  rw [tuningEvents, observeAll_append, h1]
  exact ⟨_, observeAll_wf s.params ha (encodeFreq f) hs1 hc1, hs1, hc1, hf1, Memory.read_write_same _ _ hm1⟩

/-! ## A verification attempt against the reference receiver (R140, R141, R158) -/

/-- R140, R141: what the receiver answers to the 20 samples of a read frame (`answersOver_read`). -/
def RxRef.readAnswers (r : RxRef) (addr : RegAddr) : List Bool := (List.range 20).map (r.dataBit addr)

theorem RxRef.readAnswers_length (r : RxRef) (addr : RegAddr) : (r.readAnswers addr).length = 20 := by
  rw [RxRef.readAnswers, List.length_map, List.length_range]

theorem RxRef.readAnswers_getD (r : RxRef) (addr : RegAddr) {k : Nat} (hk : k < 20) :
    (r.readAnswers addr).getD k false = r.dataBit addr k := by
  rw [RxRef.readAnswers, List.getD_eq_getElem?_getD, List.getElem?_map, List.getElem?_range hk]
  rfl

/-- R140, R141: what a read of a register that holds a 16-bit value gives: the value, or its complement while failures
remain. -/
theorem readBack_readAnswers {r : RxRef} {addr : RegAddr} {v : Word16}
    (hv : Memory.read r.regs addr.toNat = v.setWidth 20) :
    readBack (r.readAnswers addr) = if 0 < r.fail then ~~~v else v := by
  refine BitVec.eq_of_getLsbD_eq fun k hk => ?_
  obtain ⟨hbits, _⟩ := readBackAssembly (r.readAnswers addr) (r.readAnswers_length addr)
  have hk20 : k < 20 := Nat.lt_trans hk (by decide)
  have hbit : r.dataBit addr k = (v.getLsbD k != decide (0 < r.fail)) := by simp [RxRef.dataBit, hv, hk20]
  rw [hbits k hk, r.readAnswers_getD addr hk20, hbit]
  split_ifs with hf
  · simp [hf, hk]
  · simp [hf]

/-- R158: an attempt that is not refused completes with its outcome. -/
theorem execRxVerify_initialised {s : State} (hi : s.driver.rxInit = true) (he : HasEncoding s.driver.curFreq)
    (now : Millis) :
    execRxVerify now s =
      .next ((verifyAttempt now s).2.setRet (if (verifyAttempt now s).1 then 1#32 else 0#32)) := by
  rw [execRxVerify, verify_ok.mpr ⟨hi, he, rfl⟩]
  rfl

/-- The events an operation appends, known from the trace it leaves. -/
theorem appended_eq {i : Instr} {s t : State} {es : List Event} (h : exec i s = .next t)
    (ht : t.trace = s.trace ++ es) : appended i s = es := by
  simp only [appended, h, ht, List.drop_left]

/-- R140, R158: the receiver at rest answers the samples of an attempt by the data bits of the frequency register. -/
theorem withReceiver_rxVerify {s : State} {r : RxRef} (hi : s.driver.rxInit = true)
    (he : HasEncoding s.driver.curFreq) (hs : r.sel = true) (hc : r.clk = false) (now : Millis) :
    s.withReceiver r (.rxVerify now) =
      s.setEnv { s.env with data := r.readAnswers s.params.freqRegAddr ++ s.env.data } := by
  have htrace : appended (.rxVerify now) s = readFrameEvents (rdCells s.params s.params.freqRegAddr) :=
    appended_eq (execRxVerify_initialised hi he now) (by rw [verifyAttempt_eq]; rfl)
  rw [State.withReceiver, htrace, answersOver_read s.params r _ s hs hc]
  rfl

/-- R140, R141, R158: an attempt against the receiver at rest whose frequency register holds the encoding of the current
frequency: a match exactly where no failure is left. -/
theorem execRxVerify_withReceiver {s : State} {r : RxRef} (hi : s.driver.rxInit = true)
    (he : HasEncoding s.driver.curFreq) (hs : r.sel = true) (hc : r.clk = false)
    (hv : Memory.read r.regs s.params.freqRegAddr.toNat = (encodeFreq s.driver.curFreq).setWidth 20) (now : Millis) :
    ∃ u, execRxVerify now (s.withReceiver r (.rxVerify now)) = .next u ∧
      u.driver =
        { s.driver with
          lastWriteMs := now
          recentlyChanged := if r.fail = 0 then false else s.driver.recentlyChanged } ∧
      u.ret = if r.fail = 0 then 1#32 else 0#32 := by
  have hanswers := dataAnswers_of_append (r.readAnswers s.params.freqRegAddr) s.env.data
    { s.env with data := r.readAnswers s.params.freqRegAddr ++ s.env.data } rfl
  rw [RxRef.readAnswers_length] at hanswers
  have hmatch : readBack (r.readAnswers s.params.freqRegAddr) = encodeFreq s.driver.curFreq ↔ r.fail = 0 := by
    rw [readBack_readAnswers hv]
    split_ifs with hf
    · simp [Nat.ne_of_gt hf]
    · simp [Nat.eq_zero_of_not_pos hf]
  rw [withReceiver_rxVerify hi he hs hc now, execRxVerify_initialised (by exact hi) (by exact he), verifyAttempt_eq]
  refine ⟨_, rfl, ?_, ?_⟩ <;> simp [hanswers, hmatch]

/-! ## Tuning and then verifying (R153, R158, R159) -/

/-- R233: under the parameter constraints every frequency of the receiver's range has an encoding. -/
theorem hasEncoding_of_inRange {p : Config.Params} (hp : Constraints p) {f : Word16} (hf : InRange p f) :
    HasEncoding f :=
  ⟨hp.minEncodable.trans hf.1, le_trans hf.2 hp.maxEncodable⟩

/-- R152, R153: `RX.SETFREQ` to another frequency in range is the tuning path. -/
theorem execRxSetfreq_inRange {s t : State} {now : Millis} {f : Word16} (hp : Constraints s.params)
    (hf : InRange s.params f) (hne : f ≠ s.driver.curFreq) (h : execRxSetfreq now f s = .next t) :
    t = (tuningPath now f s).setRet 0#32 := by
  obtain ⟨_, hset, rfl⟩ := execRxSetfreq_next h
  rcases (setFreq_cases hset).2 with ⟨hsame, _⟩ | ⟨_, hdown, _⟩ | ⟨_, _, _, rfl⟩
  · exact absurd hsame hne
  · exact absurd (hdown ▸ hf) hp.sentinelOutside
  · rfl

/-- R140, R141, R153, R158: the attempt after a tuning, against the receiver that was at rest before it: the flag is
cleared exactly where no failure is left. -/
theorem verify_after_tuning {s t : State} {r : RxRef} {now : Millis} {f : Word16} {es : List Event}
    (hp : Constraints s.params) (hi : s.driver.rxInit = true) (hf : InRange s.params f) (hne : f ≠ s.driver.curFreq)
    (hs : r.sel = true) (hc : r.clk = false) (hm : Memory.wf 16 r.regs = true)
    (h : exec (.rxSetfreq now f) s = .next t) (ht : t.trace = s.trace ++ es) (later : Millis) :
    ∃ u, exec (.rxVerify later) (t.withReceiver (r.observeAll s.params es) (.rxVerify later)) = .next u ∧
      u.driver = ⟨f, later, decide (r.fail ≠ 0), false, true⟩ ∧ u.ret = if r.fail = 0 then 1#32 else 0#32 := by
  have htuned : t = _ := execRxSetfreq_inRange hp hf hne h
  rw [tuningPath_eq] at htuned
  have hes : es = tuningEvents f s := List.append_cancel_left (ht.symm.trans (by rw [htuned]; rfl))
  have hparams : t.params = s.params := by rw [htuned]; rfl
  have htd : t.driver = ⟨f, now, true, false, true⟩ := by rw [htuned, ← hi]; rfl
  obtain ⟨r', hr', hs', hc', hfail, hread⟩ := observeAll_tuning hp.addresses f hs hc hm
  obtain ⟨u, hu, hdriver, hret⟩ := execRxVerify_withReceiver (s := t) (by rw [htd])
    (by rw [htd]; exact hasEncoding_of_inRange hp hf) hs' hc' (by rw [hparams, htd, hread]) later
  rw [hes, hr', ← hfail]
  refine ⟨u, hu, ?_, hret⟩
  rw [hdriver, htd]
  by_cases h0 : r'.fail = 0 <;> simp [h0]

/-- Settles O27: with no failure left the attempt after the tuning is a match. -/
theorem referenceReceiverVerifies : Obligations.ReferenceReceiverVerifies := by
  intro s t r now later f es hp hi hf hne hs hc hfail hm h ht
  obtain ⟨u, hu, hdriver, hret⟩ := verify_after_tuning hp hi hf hne hs hc hm h ht later
  exact ⟨u, hu, by simp [hdriver, hfail], by rw [hdriver], by simp [hret, hfail]⟩

/-- Settles O28: with a failure left the attempt after the tuning is a mismatch. -/
theorem failingReceiverLeavesTheFlag : Obligations.FailingReceiverLeavesTheFlag := by
  intro s t r now later f es hp hi hf hne hs hc hfail hm h ht
  obtain ⟨u, hu, hdriver, hret⟩ := verify_after_tuning hp hi hf hne hs hc hm h ht later
  have hleft : r.fail ≠ 0 := Nat.ne_of_gt hfail
  exact ⟨u, hu, by simp [hdriver, hleft], by rw [hdriver], by simp [hret, hleft]⟩

end Sys2Proof.Machine
end

section
/-! SUPPORT. Proofs about tuning, power and the amplitude read (`spec/42_receiver_tuning.md`): what each operation of the
driver answers, the two steps of housekeeping, and who writes the driver's registers. -/

namespace Sys2Proof.Machine

/-! ## The frame of the driver's operations (R27) -/

/-- R27: an operation of the driver leaves the engine, the filter and what is outside the block. -/
theorem onlyDriver_of_exec {i : Instr} {s t : State} (h : exec i s = .next t) (ho : Owner.of i = .driver) :
    OnlyDriver s t :=
  ⟨exec_sameOutside h, sameEngine_of_eq (exec_engine h (.inr ho)), exec_filter h (.inl ho)⟩

/-! ## Initialisation (R151) -/

/-- R151: the driver after `RX.INIT`. -/
def Driver.initialised : Driver := ⟨0#16, 0#32, false, false, true⟩

/-- R151: all that `RX.INIT` does. -/
theorem execRxInit_eq (s : State) :
    execRxInit s =
      .next { s with
        driver := Driver.initialised
        pins := ⟨true, false, s.params.powerMaskNormal.getLsbD 19, .out⟩
        trace := s.trace ++ [.pin .sel true, .pin .clk false, .pin .data false]
          ++ writeFrameEvents (wpCells s.params s.params.powerMaskNormal)
        ret := 0#32 } := by
  rw [execRxInit, restLines_eq, sendWp_eq]
  rfl

/-- Settles O17: the operation as one equation on the whole state. -/
theorem rxInitEffect : Obligations.RxInitEffect := fun s =>
  ⟨_, execRxInit_eq s, rfl, rfl, rfl, rfl, onlyDriver_of_exec (i := .rxInit) (execRxInit_eq s) rfl, rfl⟩

/-! ## Tuning (R152 to R154) -/

/-- R152, R99: what `RX.SETFREQ` answers, by the class of its operand. -/
theorem execRxSetfreq_eq (now : Millis) (f : Word16) (s : State) :
    execRxSetfreq now f s =
      if s.driver.rxInit = false then .refused (.notInitialised .rx)
      else if f = s.driver.curFreq then .next (s.setRet 0#32)
      else if f = s.params.powerDownFreq then .next ((powerDownPath now f s).setRet 0#32)
      else if InRange s.params f then .next ((tuningPath now f s).setRet 0#32)
      else .refused (.freqOutOfRange f) := by
  simp only [execRxSetfreq, setFreq, inRange_eq_false]
  split_ifs <;> rfl

/-- Settles O18: each class is one branch of the dispatch, each path one equation on the whole state. -/
theorem setFreqByOperandClass : Obligations.SetFreqByOperandClass := by
  intro s now f
  have hexec : exec (.rxSetfreq now f) s = _ := execRxSetfreq_eq now f s
  by_cases hi : s.driver.rxInit = false
  · rw [if_pos hi] at hexec ⊢
    exact hexec
  rw [if_neg hi] at hexec ⊢
  by_cases hcur : f = s.driver.curFreq
  · rw [if_pos hcur] at hexec ⊢
    exact hexec
  rw [if_neg hcur] at hexec ⊢
  by_cases hdown : f = s.params.powerDownFreq
  · rw [if_pos hdown] at hexec ⊢
    have hframe := onlyDriver_of_exec hexec rfl
    rw [powerDownPath_eq] at hexec hframe
    exact ⟨_, hexec, rfl, rfl, rfl, rfl, hframe, rfl⟩
  rw [if_neg hdown] at hexec ⊢
  by_cases hrange : InRange s.params f
  · rw [if_pos hrange] at hexec ⊢
    have hframe := onlyDriver_of_exec hexec rfl
    rw [tuningPath_eq] at hexec hframe
    exact ⟨_, hexec, rfl, (List.append_assoc _ _ _).symm, rfl, rfl, hframe, rfl⟩
  · rw [if_neg hrange] at hexec ⊢
    exact hexec

/-! ## Verification (R158) -/

/-- Settles O19: the two refusals in their order, then the attempt as one equation on the whole state. -/
theorem verifyEffect : Obligations.VerifyEffect := by
  intro s now
  by_cases hi : s.driver.rxInit = false
  · rw [if_pos hi]
    exact completeOr_eq_refused.mpr (map_eq_error.mpr (if_pos hi))
  rw [if_neg hi]
  by_cases he : ¬ HasEncoding s.driver.curFreq
  · rw [if_pos he]
    exact completeOr_eq_refused.mpr
      (map_eq_error.mpr ((if_neg hi).trans (if_pos (encodable_eq_false.mpr he))))
  · rw [if_neg he]
    have hexec : exec (.rxVerify now) s = _ := execRxVerify_initialised (by simpa using hi) (not_not.mp he) now
    have hframe := onlyDriver_of_exec hexec rfl
    rw [verifyAttempt_eq] at hexec hframe
    exact ⟨_, hexec, rfl, by simp only [setRet_ret, decide_eq_true_eq], rfl, rfl, hframe, rfl⟩

/-- Settles O20: the effect of an attempt (O19), on a match and on a mismatch. -/
theorem verifyCompletesForEveryReceiver : Obligations.VerifyCompletesForEveryReceiver := by
  intro s now hi he
  have heffect := verifyEffect s now
  rw [if_neg (by simp [hi]), if_neg (not_not.mpr he)] at heffect
  obtain ⟨t, hexec, hdriver, hret, _, _, hframe, henv⟩ := heffect
  refine ⟨t, hexec, by rw [hdriver], by rw [hdriver], by rw [hdriver], by rw [hdriver]; exact hi, ?outcome, hframe,
    by rw [henv, dataAnswers_adc]⟩
  case outcome =>
    rw [hret, hdriver]
    split_ifs
    · exact .inl ⟨rfl, rfl⟩
    · exact .inr ⟨rfl, rfl⟩

/-- R158: an attempt neither reads nor writes the result port. -/
theorem verifyAttempt_setRet (now : Millis) (s : State) (r : BitVec 32) :
    verifyAttempt now (s.setRet r) = ((verifyAttempt now s).1, (verifyAttempt now s).2.setRet r) := by
  rw [verifyAttempt_eq, verifyAttempt_eq]
  rfl

/-- R158: the result port decides neither whether an attempt is refused nor what it leaves elsewhere. -/
theorem verify_setRet (now : Millis) (s : State) (r : BitVec 32) :
    verify now (s.setRet r) = (verify now s).map fun x => (x.1, x.2.setRet r) := by
  rw [verify, verify, setRet_driver, verifyAttempt_setRet]
  split_ifs <;> rfl

/-- R150: an attempt that clears the flag has read the encoding of the current frequency. -/
theorem readBack_of_cleared {now : Millis} {s : State} (hs : s.driver.recentlyChanged = true)
    (hc : (verifyAttempt now s).2.driver.recentlyChanged = false) :
    readBack (dataAnswers 20 s.env).1 = encodeFreq (verifyAttempt now s).2.driver.curFreq := by
  rw [verifyAttempt_eq] at hc ⊢
  by_contra hne
  rw [if_neg hne, hs] at hc
  cases hc

/-! ## Housekeeping (R156, R163) -/

/-- R156: an initialised driver runs an acceptable request as its two steps. -/
theorem execRxHousekeep_steps {now : Millis} {f : Word16} {s s1 : State} (hi : s.driver.rxInit = true)
    (ha : Acceptable s f) (hc : housekeepCommit now f s = .ok s1) :
    execRxHousekeep now f s = completeOr ((housekeepVerify now s1).map fun s2 => (0#32, s2)) := by
  have hrange : ¬ (f ≠ s.driver.curFreq ∧ f ≠ s.params.powerDownFreq ∧ inRange s.params f = false) := by
    rintro ⟨hcur, hdown, hout⟩
    rcases ha with h | h | h
    · exact hcur h
    · exact hdown h
    · exact inRange_eq_false.mp hout h
  rw [execRxHousekeep, housekeep, if_neg (by simp [hi]), if_neg hrange, hc]
  rfl

/-- R156: step 2 without an attempt that is due. -/
theorem housekeepVerify_notDue {now : Millis} {s : State} (hd : ¬ AttemptDue s.params s.driver now) :
    housekeepVerify now s = .ok s :=
  if_neg fun h => hd (verifyDue_iff.mp h)

/-- R156: step 2 where an attempt is due. -/
theorem housekeepVerify_due {now : Millis} {s : State} (hd : AttemptDue s.params s.driver now) :
    housekeepVerify now s = (verify now s).map Prod.snd :=
  if_pos (verifyDue_iff.mpr hd)

/-- R156: the state after step 1, from the state after the operation it names: the result port alone can differ. -/
theorem housekeepCommit_of_exec {now : Millis} {f : Word16} {s s1 : State}
    (h : if f ≠ s.driver.curFreq ∧ s.params.tBusBusy ≤ now - s.driver.lastWriteMs then
        exec (.rxSetfreq now f) s = .next s1 else s1 = s) :
    ∃ u r, housekeepCommit now f s = .ok u ∧ s1 = u.setRet r := by
  simp only [housekeepCommit, busFree_iff]
  split_ifs at h ⊢
  · obtain ⟨u, hu, rfl⟩ := execRxSetfreq_next h
    exact ⟨u, _, hu, rfl⟩
  · exact ⟨s, s.ret, rfl, h⟩

/-- Settles O21: the states of the two steps differ from those of the operations they name in the result port alone,
which an attempt does not read. -/
theorem housekeepIsCommitThenVerify : Obligations.HousekeepIsCommitThenVerify := by
  intro s now f
  refine ⟨fun hi => ?uninitialised, fun hi ha => ?outOfRange, fun hi ha s1 hs1 => ?steps⟩
  case uninitialised => exact completeOr_eq_refused.mpr (map_eq_error.mpr (if_pos hi))
  case outOfRange =>
    simp only [Acceptable, not_or] at ha
    obtain ⟨hcur, hdown, hrange⟩ := ha
    exact completeOr_eq_refused.mpr (map_eq_error.mpr
      ((if_neg (by simp [hi])).trans (if_pos ⟨hcur, hdown, inRange_eq_false.mpr hrange⟩)))
  case steps =>
    obtain ⟨u, r, hcommit, rfl⟩ := housekeepCommit_of_exec hs1
    have hexec : exec (.rxHousekeep now f) s = _ := execRxHousekeep_steps hi ha hcommit
    rw [hexec]
    refine ⟨fun hd => ?notDue, fun hd s2 h2 => ?answered, fun hd e he => ?refused⟩
    case notDue =>
      rw [housekeepVerify_notDue (s := u) hd]
      rfl
    case answered =>
      obtain ⟨_, hm, rfl⟩ := completeOr_eq_next.mp h2
      obtain ⟨_, hv, rfl⟩ := map_eq_ok.mp hm
      rw [verify_setRet] at hv
      obtain ⟨_, hu, rfl⟩ := map_eq_ok.mp hv
      rw [housekeepVerify_due (s := u) hd, hu]
      rfl
    case refused =>
      have hv := map_eq_error.mp (completeOr_eq_refused.mp he)
      rw [verify_setRet, map_eq_error] at hv
      rw [housekeepVerify_due (s := u) hd, hv]
      rfl

/-- R156: step 1 writes the driver, the lines and the trace alone. -/
theorem housekeepCommit_shape {now : Millis} {f : Word16} {s t : State} (h : housekeepCommit now f s = .ok t) :
    ∃ d p tr, t = { s with driver := d, pins := p, trace := tr } := by
  rcases housekeepCommit_cases h with ⟨_, rfl⟩ | ⟨_, _, hs⟩
  · exact ⟨_, _, _, rfl⟩
  · exact setFreq_shape hs

/-- R163 (2): step 1 keeps the driver's clauses of the invariant. -/
theorem driverInv_housekeepCommit {now : Millis} {f : Word16} {s t : State} (h : housekeepCommit now f s = .ok t)
    (hi : DriverInv s.params s.driver s.pins) : DriverInv s.params t.driver t.pins := by
  rcases housekeepCommit_cases h with ⟨_, rfl⟩ | ⟨_, _, hs⟩
  · exact hi
  · exact driverInv_setFreq hs hi

/-- R163 (2), R233: where an attempt is due, the current frequency has an encoding. -/
theorem hasEncoding_of_attemptDue {p : Config.Params} {d : Driver} {n : Pins} {now : Millis} (hp : Constraints p)
    (hi : DriverInv p d n) (hd : AttemptDue p d now) : HasEncoding d.curFreq := by
  obtain ⟨hflag, _, hpower⟩ := hd
  rcases hi.unsettledTuned hflag with hdown | hrange
  · have hverify : p.verifyWhenDown = true := hpower.resolve_left (by simp [hdown])
    rw [hi.downAtSentinel hdown]
    exact hp.sentinelEncodable hverify
  · exact hasEncoding_of_inRange hp hrange

/-- R163 (4): an acceptable request to an initialised driver is not refused; the refusal nested in step 2 is
unreachable. -/
theorem housekeep_total {now : Millis} {f : Word16} {s : State} (hp : Constraints s.params) (hinv : s.Inv)
    (hi : s.driver.rxInit = true) (ha : Acceptable s f) : ∃ t, housekeep now f s = .ok t := by
  cases h : housekeep now f s with
  | ok t => exact ⟨t, rfl⟩
  | error e =>
    rcases housekeep_error h with ⟨_, hn⟩ | ⟨_, hn⟩ | ⟨_, _, s1, hcommit, hd, _, hn⟩
    · rw [hi] at hn
      cases hn
    · exact absurd ha hn
    · obtain ⟨_, hdriver, _⟩ := inv_iff_parts.mp hinv
      have hdriver1 := driverInv_housekeepCommit hcommit hdriver
      obtain ⟨_, _, _, rfl⟩ := housekeepCommit_shape hcommit
      exact absurd (hasEncoding_of_attemptDue hp hdriver1 hd) hn

/-- R155: `RX.SETFREQ`, where it is not refused, is a no-op, or records its time and its frequency. -/
theorem setFreq_writes {now : Millis} {f : Word16} {s t : State} (h : setFreq now f s = .ok t) :
    f = s.driver.curFreq ∧ t = s ∨ t.driver.lastWriteMs = now ∧ t.driver.curFreq = f := by
  rcases (setFreq_cases h).2 with hsame | ⟨_, _, rfl⟩ | ⟨_, _, _, rfl⟩
  · exact .inl hsame
  · rw [powerDownPath_eq]
    exact .inr ⟨rfl, rfl⟩
  · rw [tuningPath_eq]
    exact .inr ⟨rfl, rfl⟩

/-- R152: either way it leaves the frequency it was asked for. -/
theorem setFreq_curFreq {now : Millis} {f : Word16} {s t : State} (h : setFreq now f s = .ok t) :
    t.driver.curFreq = f := by
  rcases setFreq_writes h with ⟨hcur, rfl⟩ | ⟨_, hfreq⟩
  · exact hcur.symm
  · exact hfreq

/-- R158: step 2 of R156 leaves the frequency. -/
theorem housekeepVerify_curFreq {now : Millis} {s t : State} (h : housekeepVerify now s = .ok t) :
    t.driver.curFreq = s.driver.curFreq := by
  rcases housekeepVerify_cases h with ⟨_, rfl⟩ | ⟨_, _, _, rfl⟩
  · rfl
  · rw [verifyAttempt_eq]

/-- Settles O22: neither step is refused; step 1 leaves the requested frequency unless it finds the bus busy, and step 2
leaves the frequency. -/
theorem housekeepCompletes : Obligations.HousekeepCompletes := by
  intro s now f hp hinv hi ha
  obtain ⟨t, ht⟩ := housekeep_total (now := now) hp hinv hi ha
  have hexec : exec (.rxHousekeep now f) s = .next (t.setRet 0#32) :=
    completeOr_eq_next.mpr ⟨_, map_eq_ok.mpr ⟨t, ht, rfl⟩, rfl⟩
  refine ⟨_, hexec, ?frequency, rfl, onlyDriver_of_exec hexec rfl, ?analog⟩
  case frequency =>
    obtain ⟨_, _, s1, hcommit, hverify⟩ := housekeep_cases ht
    rw [setRet_driver, housekeepVerify_curFreq hverify]
    rcases housekeepCommit_cases hcommit with ⟨hcur | hbusy, rfl⟩ | ⟨_, _, hset⟩
    · exact .inl hcur.symm
    · exact .inr ⟨rfl, hbusy⟩
    · exact .inl (setFreq_curFreq hset)
  case analog =>
    obtain ⟨_, _, _, v, rfl, hadc⟩ := housekeep_shape ht
    exact hadc

/-- R163 (3): step 1 sends nothing, the power-down mask, or what the tuning path sends. -/
theorem housekeepCommit_trace {now : Millis} {f : Word16} {s t : State} (h : housekeepCommit now f s = .ok t) :
    ∃ writes, t.trace = s.trace ++ writes ∧
      (writes = [] ∨ writes = writeFrameEvents (wpCells s.params 0xFFFFF#20) ∨ writes = tuningEvents f s) := by
  rcases housekeepCommit_cases h with ⟨_, rfl⟩ | ⟨_, _, hset⟩
  · exact ⟨[], (List.append_nil _).symm, .inl rfl⟩
  · rcases (setFreq_cases hset).2 with ⟨_, rfl⟩ | ⟨_, _, rfl⟩ | ⟨_, _, _, rfl⟩
    · exact ⟨[], (List.append_nil _).symm, .inl rfl⟩
    · rw [powerDownPath_eq]
      exact ⟨_, rfl, .inr (.inl rfl)⟩
    · rw [tuningPath_eq]
      exact ⟨_, rfl, .inr (.inr rfl)⟩

/-- R163 (3): step 2 sends at most one read frame. -/
theorem housekeepVerify_trace {now : Millis} {s t : State} (h : housekeepVerify now s = .ok t) :
    ∃ reads, t.trace = s.trace ++ reads ∧
      (reads = [] ∨ reads = readFrameEvents (rdCells s.params s.params.freqRegAddr)) := by
  rcases housekeepVerify_cases h with ⟨_, rfl⟩ | ⟨_, _, _, rfl⟩
  · exact ⟨[], (List.append_nil _).symm, .inl rfl⟩
  · rw [verifyAttempt_eq]
    exact ⟨_, rfl, .inr rfl⟩

/-- Settles O23: what step 1 sends, the wake from power-down or not, and then what step 2 sends. -/
theorem housekeepSendsAtMostThreeFrames : Obligations.HousekeepSendsAtMostThreeFrames := by
  intro s t now f h
  obtain ⟨_, hk, rfl⟩ := execRxHousekeep_next h
  obtain ⟨_, _, s1, hcommit, hverify⟩ := housekeep_cases hk
  obtain ⟨writes, htrace, hwrites⟩ := housekeepCommit_trace hcommit
  obtain ⟨reads, htrace2, hreads⟩ := housekeepVerify_trace hverify
  obtain ⟨_, _, _, rfl⟩ := housekeepCommit_shape hcommit
  refine ⟨writes, reads, by rw [setRet_trace, htrace2, htrace], ?_, hreads⟩
  rcases hwrites with hnone | hdown | htuned
  · exact .inl hnone
  · exact .inr (.inl hdown)
  · rw [htuned, tuningEvents]
    split_ifs
    · exact .inr (.inr (.inl rfl))
    · exact .inr (.inr (.inr rfl))

/-! ## Who writes the driver's registers (R26, R150, R155) -/

/-- R26: what each operation leaves in the driver's registers. -/
theorem exec_driver_cases {i : Instr} {s t : State} (h : exec i s = .next t) :
    t.driver = s.driver ∨ i = .rxInit ∧ t.driver = Driver.initialised ∨
      (∃ now f u, i = .rxSetfreq now f ∧ setFreq now f s = .ok u ∧ t.driver = u.driver) ∨
      (∃ now f u, i = .rxHousekeep now f ∧ housekeep now f s = .ok u ∧ t.driver = u.driver) ∨
      ∃ now, i = .rxVerify now ∧ t.driver = (verifyAttempt now s).2.driver := by
  cases i with
  | rxInit =>
    cases (execRxInit_eq s).symm.trans h
    exact .inr (.inl ⟨rfl, rfl⟩)
  | rxSetfreq now f =>
    obtain ⟨u, hu, rfl⟩ := execRxSetfreq_next h
    exact .inr (.inr (.inl ⟨now, f, u, rfl, hu, rfl⟩))
  | rxHousekeep now f =>
    obtain ⟨u, hu, rfl⟩ := execRxHousekeep_next h
    exact .inr (.inr (.inr (.inl ⟨now, f, u, rfl, hu, rfl⟩)))
  | rxVerify now =>
    obtain ⟨_, rfl⟩ := execRxVerify_next h
    exact .inr (.inr (.inr (.inr ⟨now, rfl, rfl⟩)))
  | rxReadrssi =>
    obtain ⟨_, _, rfl⟩ := execRxReadrssi_next h
    exact .inl rfl
  | frameWf addr value =>
    cases complete_eq_next.mp h
    rw [sendWf_eq]
    exact .inl rfl
  | frameWp mask =>
    cases complete_eq_next.mp h
    rw [sendWp_eq]
    exact .inl rfl
  | frameRd addr =>
    cases complete_eq_next.mp h
    rw [sendRd_eq]
    exact .inl rfl
  | fltInit | fltStep | lapTick | lapStart | lapStop | lapStep | lapGetrssi | lapAvail | lapGettime | lapSetcb
  | calNstart | calNstop | calXstart | calXstop => exact .inl (exec_driver_pins h nofun).1

/-- R150: tuning and powering down never clear the flag. -/
theorem setFreq_keeps_flag {now : Millis} {f : Word16} {s t : State} (h : setFreq now f s = .ok t)
    (hs : s.driver.recentlyChanged = true) : t.driver.recentlyChanged = true := by
  rcases (setFreq_cases h).2 with ⟨_, rfl⟩ | ⟨_, _, rfl⟩ | ⟨_, _, _, rfl⟩
  · exact hs
  · rw [powerDownPath_eq]
    exact hs
  · rw [tuningPath_eq]

/-- R150: housekeeping clears the flag only by an attempt that read the encoding of the frequency it leaves; step 1
neither clears it nor draws an answer. -/
theorem housekeep_cleared {now : Millis} {f : Word16} {s t : State} (h : housekeep now f s = .ok t)
    (hs : s.driver.recentlyChanged = true) (ht : t.driver.recentlyChanged = false) :
    readBack (dataAnswers 20 s.env).1 = encodeFreq t.driver.curFreq := by
  obtain ⟨_, _, s1, hcommit, hverify⟩ := housekeep_cases h
  have hflag : s1.driver.recentlyChanged = true := by
    rcases housekeepCommit_cases hcommit with ⟨_, rfl⟩ | ⟨_, _, hset⟩
    · exact hs
    · exact setFreq_keeps_flag hset hs
  have henv : s1.env = s.env := by
    obtain ⟨_, _, _, rfl⟩ := housekeepCommit_shape hcommit
    rfl
  rcases housekeepVerify_cases hverify with ⟨_, rfl⟩ | ⟨_, _, _, rfl⟩
  · rw [hflag] at ht
    cases ht
  · rw [← henv]
    exact readBack_of_cleared hflag ht

/-- Settles O25: of all that a step serves, only the reset input and the writers of the driver's registers can change the
flag; of these `RX.SETFREQ` never clears it, and an attempt, asked for or due in housekeeping, only on a match. -/
theorem flagClearedOnlyByAMatch : Obligations.FlagClearedOnlyByAMatch := by
  intro s t h hs ht
  obtain ⟨_, ⟨_, rfl⟩ | ⟨_, _, _, rfl⟩ | ⟨rest, ha, _⟩ | ⟨w, rest, i, ha, hd, _, hexec⟩⟩ := step_cases h
  · rw [hs] at ht
    cases ht
  · rw [hs] at ht
    cases ht
  · exact .inl ⟨rest, ha⟩
  · refine .inr ⟨w, rest, i, ha, hd, ?_⟩
    rcases exec_driver_cases hexec with
      hkept | ⟨rfl, _⟩ | ⟨now, f, u, rfl, hu, hdr⟩ | ⟨now, f, u, rfl, hu, hdr⟩ | ⟨now, rfl, hdr⟩
    · rw [hkept, setArrivals_driver, hs] at ht
      cases ht
    · exact .inl rfl
    · rw [hdr, setFreq_keeps_flag hu hs] at ht
      cases ht
    · rw [hdr] at ht ⊢
      exact .inr ⟨.inr ⟨now, f, rfl⟩, housekeep_cleared (s := s.setArrivals rest) hu hs ht⟩
    · rw [hdr] at ht ⊢
      exact .inr ⟨.inl ⟨now, rfl⟩, readBack_of_cleared (s := s.setArrivals rest) hs ht⟩

/-- R155: housekeeping leaves time and frequency, or records its time, the frequency its own or the one before. -/
theorem housekeep_writes {now : Millis} {f : Word16} {s t : State} (h : housekeep now f s = .ok t) :
    t.driver.lastWriteMs = s.driver.lastWriteMs ∧ t.driver.curFreq = s.driver.curFreq ∨
      t.driver.lastWriteMs = now ∧ (t.driver.curFreq = f ∨ t.driver.curFreq = s.driver.curFreq) := by
  obtain ⟨_, _, s1, hcommit, hverify⟩ := housekeep_cases h
  have hfirst : s1 = s ∨ s1.driver.lastWriteMs = now ∧ s1.driver.curFreq = f := by
    rcases housekeepCommit_cases hcommit with ⟨_, rfl⟩ | ⟨_, _, hset⟩
    · exact .inl rfl
    · exact (setFreq_writes hset).imp_left And.right
  rcases housekeepVerify_cases hverify with ⟨_, rfl⟩ | ⟨_, _, _, rfl⟩
  · rcases hfirst with rfl | ⟨htime, hfreq⟩
    · exact .inl ⟨rfl, rfl⟩
    · exact .inr ⟨htime, .inl hfreq⟩
  · rw [verifyAttempt_eq]
    rcases hfirst with rfl | ⟨_, hfreq⟩
    · exact .inr ⟨rfl, .inr rfl⟩
    · exact .inr ⟨rfl, .inl hfreq⟩

/-- Settles O26: the operations that leave the driver's registers leave both, and each writer records its own time. -/
theorem lastWriteTimeWriters : Obligations.LastWriteTimeWriters := by
  intro i s t h
  rcases exec_driver_cases h with
    hkept | ⟨rfl, hdr⟩ | ⟨now, f, u, rfl, hu, hdr⟩ | ⟨now, f, u, rfl, hu, hdr⟩ | ⟨now, rfl, hdr⟩
  · exact .inl (by rw [hkept]; exact ⟨rfl, rfl⟩)
  · exact .inr (.inl (by rw [hdr]; exact ⟨rfl, rfl, rfl⟩))
  · rw [hdr]
    rcases setFreq_writes hu with ⟨_, rfl⟩ | ⟨htime, hfreq⟩
    · exact .inl ⟨rfl, rfl⟩
    · exact .inr (.inr (.inl ⟨now, f, .inl rfl, htime, .inl hfreq⟩))
  · rw [hdr]
    rcases housekeep_writes hu with hkept | ⟨htime, hfreq⟩
    · exact .inl hkept
    · exact .inr (.inr (.inl ⟨now, f, .inr rfl, htime, hfreq⟩))
  · rw [hdr, verifyAttempt_eq]
    exact .inr (.inr (.inr ⟨now, rfl, rfl, rfl⟩))

/-! ## The amplitude read (R161) -/

/-- R161: what `RX.READRSSI` answers. -/
theorem execRxReadrssi_eq (s : State) :
    execRxReadrssi s =
      if s.driver.rxInit = false then .refused (.notInitialised .rx)
      else if s.driver.recentlyChanged = true then .next (s.setRet 0#32)
      else .next ((adcRead s).2.setRet ((rescale s.params.rssiClampMax (adcRead s).1).setWidth 32)) := by
  rw [execRxReadrssi, readRssi]
  split_ifs <;> rfl

/-- A scripted analog answer is the next one, `ADC_BITS` wide. -/
theorem adcRead_scripted {s : State} {raw : Nat} {rest : List Nat} (h : s.env.adc = raw :: rest) :
    adcRead s = (raw % 2 ^ s.params.adcBits, s.setEnv { s.env with adc := rest }) := by
  simp only [adcRead, h]

/-- Settles O24: a refusal, 0 without a draw, or one draw rescaled; a draw touches the analog answers alone. -/
theorem readRssiEffect : Obligations.ReadRssiEffect := by
  intro s
  have hexec : exec .rxReadrssi s = _ := execRxReadrssi_eq s
  refine ⟨fun hi => ?uninitialised, fun hi hr => ?unsettled, fun hi hr => ?settled⟩
  case uninitialised => rw [hexec, if_pos hi]
  case unsettled =>
    rw [hexec, if_neg (by simp [hi]), if_pos hr]
    rfl
  case settled =>
    rw [if_neg (by simp [hi]), if_neg (by simp [hr])] at hexec
    have hframe := onlyDriver_of_exec hexec rfl
    obtain ⟨v, hv, hdata⟩ := adcRead_frame s
    refine ⟨_, hexec, ?bound, hframe, by rw [hv]; rfl, by rw [hv]; rfl, by rw [hv]; rfl, by rw [hv]; exact hdata,
      fun raw rest hadc => ?scripted⟩
    case bound =>
      rw [setRet_ret, BitVec.toNat_setWidth_of_le (by decide)]
      exact Nat.le_of_lt_succ (BitVec.isLt _)
    case scripted =>
      rw [adcRead_scripted hadc, setRet_ret, BitVec.toNat_setWidth_of_le (by decide)]
      exact ⟨rescale_toNat, rfl⟩

end Sys2Proof.Machine
end

section
/-! SUPPORT. Proofs about the Lap Detection Engine (`spec/43_lap_engine.md`): starting and stopping it, one step of it
in each timer state, the tick, the reads of its registers, and the timer state over all operations. -/

namespace Sys2Proof.Machine

/-! ## The frame of the engine's operations (R27) -/

/-- R27: an operation of the engine other than the tick leaves filter, driver, lines and what is outside the block. -/
theorem onlyEngine_of_exec {i : Instr} {s t : State} (h : exec i s = .next t) (ho : Owner.of i = .engine) :
    OnlyEngine s t := by
  obtain ⟨hd, hn⟩ := exec_driver_pins h (by rw [ho]; nofun)
  exact ⟨exec_sameOutside h, exec_filter h (.inr ho), hd, hn, exec_env h (.inr ho)⟩

/-! ## Start and stop (R181 to R183) -/

/-- R236: a notification appends its two pulses. -/
theorem notify_eq (kind : NotifyKind) (s : State) : notify kind s = { s with trace := s.trace ++ pulses kind } := by
  simp [notify, State.emit, pulses]

/-- R181: all that `LAP.START` does. -/
theorem execLapStart_eq (s : State) :
    execLapStart s =
      .next { s with
        engine := { engineReset s.engine with timerState := .waiting }
        trace := s.trace ++ pulses .start
        ret := 0#32 } := by
  rw [execLapStart, notify_eq]
  rfl

/-- R182, `STOP_CLEARS_CAL`: the stop writes the two sessions, or nothing. -/
theorem discardCal_eq (clears : Bool) (e : Engine) :
    discardCal clears e =
      { e with
        noiseCal := if clears then Cal.cleared else e.noiseCal
        crossCal := if clears then Cal.cleared else e.crossCal } := by
  cases clears <;> rfl

/-- R182: all that `LAP.STOP` does. -/
theorem execLapStop_eq (s : State) :
    execLapStop s =
      .next { s with
        engine :=
          { engineReset s.engine with
            timerState := .stopped
            noiseCal := if s.params.stopClearsCal then Cal.cleared else s.engine.noiseCal
            crossCal := if s.params.stopClearsCal then Cal.cleared else s.engine.crossCal }
        trace := s.trace ++ pulses .stop
        ret := 0#32 } := by
  rw [execLapStop, notify_eq, discardCal_eq]
  rfl

/-- Settles O34: the operation as one equation on the whole state; the emptied buffers read 0. -/
theorem lapStartEffect : Obligations.LapStartEffect := fun s =>
  ⟨_, execLapStart_eq s, rfl, fun _ => rfl, fun _ => rfl, rfl, rfl, rfl, rfl, rfl, rfl, rfl, rfl, rfl, rfl,
    onlyEngine_of_exec (i := .lapStart) (execLapStart_eq s) rfl⟩

/-- Settles O35: the operation as one equation on the whole state; the emptied buffers read 0. -/
theorem lapStopEffect : Obligations.LapStopEffect := fun s =>
  ⟨_, execLapStop_eq s, rfl, fun _ => rfl, fun _ => rfl, rfl, rfl, rfl, rfl, rfl, rfl, rfl, rfl, rfl, rfl,
    onlyEngine_of_exec (i := .lapStop) (execLapStop_eq s) rfl⟩

/-! ## What every step stores (R189 steps 1, 2, 3 and 5) -/

/-- R189: a step of the engine completes, with no result. -/
theorem exec_lapStep (now : Millis) (sample : Amp) (s : State) :
    exec (.lapStep now sample) s = .next ((lapStepOp now sample s).setRet 0#32) := rfl

/-- R189: what a step of the engine leaves outside the engine. -/
theorem onlyEngine_lapStep (now : Millis) (sample : Amp) (s : State) :
    OnlyEngine s ((lapStepOp now sample s).setRet 0#32) :=
  onlyEngine_of_exec (exec_lapStep now sample s) rfl

section
variable (now : Millis) (sample : Amp) (s : State)

/-- R189: whatever the dispatch on the timer state does, it leaves the registration and what steps 1, 2, 3 and 5
write. -/
theorem lapStepOp_engine :
    ∃ laps lapCursor cand lapStart timerState lapAvailable, (lapStepOp now sample s).engine =
      { storedAndAdvanced sample s.engine with
        laps := laps
        lapCursor := lapCursor
        cand := cand
        lapStart := lapStart
        timerState := timerState
        lapAvailable := lapAvailable } := by
  rcases lapStepOp_cases now sample s with ⟨_, _, hs⟩ | ⟨_, _, hs⟩ | ⟨_, _, hs⟩ <;> rw [hs] <;>
    exact ⟨_, _, _, _, _, _, rfl⟩

theorem lapStepOp_sampleCursor :
    (lapStepOp now sample s).engine.sampleCursor = nextSample s.engine.sampleCursor := by
  obtain ⟨_, _, _, _, _, _, he⟩ := lapStepOp_engine now sample s
  rw [he]
  rfl

theorem lapStepOp_noiseCal : (lapStepOp now sample s).engine.noiseCal = calAfter sample s.engine.noiseCal := by
  obtain ⟨_, _, _, _, _, _, he⟩ := lapStepOp_engine now sample s
  rw [he]
  rfl

theorem lapStepOp_crossCal : (lapStepOp now sample s).engine.crossCal = calAfter sample s.engine.crossCal := by
  obtain ⟨_, _, _, _, _, _, he⟩ := lapStepOp_engine now sample s
  rw [he]
  rfl

theorem lapStepOp_cbRegistered : (lapStepOp now sample s).engine.cbRegistered = s.engine.cbRegistered := by
  obtain ⟨_, _, _, _, _, _, he⟩ := lapStepOp_engine now sample s
  rw [he]
  rfl

/-- R189: every other slot of the sample buffer reads as before. -/
theorem readSample_lapStepOp_other {i : Fin 100} (h : i ≠ s.engine.sampleCursor) :
    readSample (lapStepOp now sample s).engine i = readSample s.engine i := by
  rw [readSample, lapStepOp_samples]
  exact readSample_writeSample_other h sample

end

/-- Settles O36: the store at the cursor, and the fields the dispatch on the timer state leaves. -/
theorem lapStepStoresAndAdvances : Obligations.LapStepStoresAndAdvances := by
  intro s now sample hwf
  refine ⟨_, exec_lapStep now sample s, readSample_lapStepOp_same hwf now sample,
    fun _ hi => readSample_lapStepOp_other now sample s hi, ?cursor, lapStepOp_noiseCal now sample s,
    lapStepOp_crossCal now sample s, lapStepOp_cbRegistered now sample s, rfl, onlyEngine_lapStep now sample s⟩
  case cursor =>
    rw [setRet_engine, lapStepOp_sampleCursor]
    rfl

/-! ## Calibration updates (R185) -/

/-- R185: the count rises by 1 and saturates, in an active session and in one that is not. -/
theorem calUpdate_count (sample : Amp) (c : Cal) :
    (calUpdate sample c).count.toNat = min (c.count.toNat + 1) 65535 := by
  have hactive : (calUpdate sample c).count = BitVec.ofNat 16 (min (c.count.toNat + 1) 65535) :=
    congrArg Cal.count (calUpdate_active (c := { c with active := true }) rfl sample)
  rw [hactive, BitVec.toNat_ofNat]
  omega

/-- R185: what a step does to a session, in the terms of its own update. -/
theorem calAfter_eq_calUpdate (sample : Amp) (c : Cal) :
    calAfter sample c = if c.active then calUpdate sample c else c := by
  by_cases h : c.active = true
  · rw [if_pos h, calUpdate_active h]
  · rw [if_neg h, calAfter, if_neg h]

/-- Settles O53: the update's three fields, and the engine's step as the update of each active session. -/
theorem calUpdateRule : Obligations.CalUpdateRule := by
  refine ⟨fun c sample => ⟨calUpdate_count sample c, fun h => if_pos h, fun h => if_neg h, rfl⟩,
    fun s now sample => ⟨_, exec_lapStep now sample s, ?noise, ?cross⟩⟩
  case noise => rw [setRet_engine, lapStepOp_noiseCal, calAfter_eq_calUpdate]
  case cross => rw [setRet_engine, lapStepOp_crossCal, calAfter_eq_calUpdate]

/-! ## The step in each timer state (R194 to R196)

Two of the theorems are named under `LapEngine`: the model's own functions have the plain names. -/

/-- Settles O37: in `STOPPED` the step is the store and the advance alone. -/
theorem stoppedStepDetectsNothing : Obligations.StoppedStepDetectsNothing := by
  intro s now sample hst
  have hframe := onlyEngine_lapStep now sample s
  refine ⟨_, exec_lapStep now sample s, ?_⟩
  rw [lapStepOp_stopped hst] at hframe ⊢
  exact ⟨rfl, hst, rfl, rfl, rfl, rfl, fun _ => rfl, hframe⟩

/-- Settles O38: the two cases of the step in `WAITING`, by the crossing predicate on the candidate after capture. -/
theorem LapEngine.waitingStep : Obligations.WaitingStep := by
  intro s now sample hst
  obtain ⟨hnone, hcross⟩ := lapStepOp_waiting hst now sample rfl
  have hframe := onlyEngine_lapStep now sample s
  refine ⟨_, exec_lapStep now sample s, ?_⟩
  by_cases hc : Crosses s.cfg .waiting s.engine.lapStart now sample
      (captured s.cfg .waiting now sample s.engine.cand)
  · rw [hcross hc] at hframe ⊢
    exact ⟨rfl, rfl, fun _ => rfl, hframe, fun _ => ⟨rfl, rfl, rfl, rfl⟩, fun hn => absurd hc hn⟩
  · rw [hnone hc] at hframe ⊢
    exact ⟨rfl, rfl, fun _ => rfl, hframe, fun h => absurd h hc, fun _ => ⟨hst, rfl, rfl, rfl⟩⟩

/-- Settles O39: the two cases of the step in `RUNNING`, by the crossing predicate on the candidate the guard leaves; a
finished lap is stored at the lap cursor alone. -/
theorem LapEngine.runningStep : Obligations.RunningStep := by
  intro s now sample k hst hwf hk
  obtain ⟨hnone, hcross⟩ := lapStepOp_running hst now sample hk
  have hframe := onlyEngine_lapStep now sample s
  refine ⟨_, exec_lapStep now sample s, ?_⟩
  by_cases hc : Crosses s.cfg .running s.engine.lapStart now sample k
  · rw [hcross hc] at hframe ⊢
    refine ⟨hst, hframe, fun _ => ⟨?stored, fun _ hi => ?kept, rfl, rfl, rfl, rfl, rfl⟩, fun hn => absurd hc hn⟩
    case stored => exact readLap_writeLap_same s.engine.lapCursor _ hwf
    case kept => exact readLap_writeLap_other hi _
  · rw [hnone hc] at hframe ⊢
    exact ⟨hst, hframe, fun h => absurd h hc, fun _ => ⟨fun _ => rfl, rfl, rfl, rfl, rfl, rfl⟩⟩

/-! ## A crossing under the baseline policy (R190, R202) -/

/-- R187: a sample that does not exceed the peak captures nothing. -/
theorem captured_of_le {sample : Amp} {k : Candidate} (h : sample ≤ k.peak) (c : Config.Inputs) (ts : TimerState)
    (now : Millis) : captured c ts now sample k = k :=
  if_neg fun hc => BitVec.not_lt.mpr h hc.2

/-- R190: under the baseline policy a crossing in `WAITING` is a fall below the peak by at least the minimum delta. -/
theorem crosses_waiting_baseline {c : Config.Inputs} (h : c.policy = 0#4) {lapStart now : Millis} {sample : Amp}
    {k : Candidate} :
    Crosses c .waiting lapStart now sample k ↔
      sample < k.peak ∧ c.minDelta.toNat + sample.toNat ≤ k.peak.toNat := by
  simp [Crosses, Falls, inForce, h]

/-- The engine still waits, with the candidate it had, and nothing was announced. -/
def StillWaiting (s t : State) : Prop :=
  t.engine.timerState = .waiting ∧ t.engine.cand = s.engine.cand ∧ t.trace = s.trace ∧ t.cfg = s.cfg

/-- R190: a sample of at most the peak, at it or less than the minimum delta below it. -/
def BeforeTheFall (c : Config.Inputs) (k : Candidate) (sample : Amp) : Prop :=
  sample ≤ k.peak ∧ (sample = k.peak ∨ k.peak.toNat - sample.toNat < c.minDelta.toNat)

/-- R202 (2): one sample before the fall leaves the engine waiting for it. -/
theorem lapStep_beforeTheFall {s : State} (hst : s.engine.timerState = .waiting) (hp : s.cfg.policy = 0#4)
    {sample : Amp} (h : BeforeTheFall s.cfg s.engine.cand sample) (now : Millis) :
    ∃ t, exec (.lapStep now sample) s = .next t ∧ StillWaiting s t := by
  obtain ⟨hle, hdrop⟩ := h
  have hno : ¬ Crosses s.cfg .waiting s.engine.lapStart now sample s.engine.cand := by
    rw [crosses_waiting_baseline hp]
    rintro ⟨hlt, hfall⟩
    rcases hdrop with rfl | hdrop
    · exact BitVec.lt_irrefl _ hlt
    · omega
  have hs := (lapStepOp_waiting hst now sample (captured_of_le hle s.cfg .waiting now).symm).1 hno
  refine ⟨_, exec_lapStep now sample s, ?_⟩
  rw [hs]
  exact ⟨hst, rfl, rfl, rfl⟩

/-- R202 (2): so does any number of them. -/
theorem runOps_beforeTheFall (before : List (Millis × Amp)) :
    ∀ {s : State}, s.engine.timerState = .waiting → s.cfg.policy = 0#4 →
      (∀ x ∈ before, BeforeTheFall s.cfg s.engine.cand x.2) →
      ∃ t, runOps (before.map fun x => .lapStep x.1 x.2) s = .next t ∧ StillWaiting s t := by
  induction before with
  | nil => intro s hst _ _; exact ⟨s, rfl, hst, rfl, rfl, rfl⟩
  | cons x xs ih =>
    intro s hst hp hall
    rw [List.forall_mem_cons] at hall
    obtain ⟨hx, hxs⟩ := hall
    obtain ⟨s1, hstep, hst1, hcand1, htrace1, hcfg1⟩ := lapStep_beforeTheFall hst hp hx x.1
    obtain ⟨t, hrun, hst2, hcand2, htrace2, hcfg2⟩ := ih hst1 (by rw [hcfg1, hp]) (by rw [hcfg1, hcand1]; exact hxs)
    refine ⟨t, ?_, hst2, hcand2.trans hcand1, htrace2.trans htrace1, hcfg2.trans hcfg1⟩
    rw [List.map_cons, runOps, hstep]
    exact hrun

/-- Settles O49: the samples before the fall leave the engine waiting with its candidate, which the falling sample does
not exceed, so the crossing is judged on it. -/
theorem crossingConfirmedAtTheFall : Obligations.CrossingConfirmedAtTheFall := by
  intro s before now sample hst hp hall hlt hdrop
  obtain ⟨t, hrun, htst, htcand, httrace, htcfg⟩ := runOps_beforeTheFall before hst hp hall
  have hkeep : t.engine.cand = captured t.cfg .waiting now sample t.engine.cand :=
    (captured_of_le (by rw [htcand]; exact BitVec.le_of_lt hlt) _ _ _).symm
  have hcross : Crosses t.cfg .waiting t.engine.lapStart now sample t.engine.cand := by
    rw [crosses_waiting_baseline (by rw [htcfg, hp]), htcand, htcfg]
    have hlt' : sample.toNat < s.engine.cand.peak.toNat := hlt
    exact ⟨hlt, by omega⟩
  have hs := (lapStepOp_waiting htst now sample hkeep).2 hcross
  refine ⟨t, _, hrun, htst, htcand, httrace, exec_lapStep now sample t, ?_⟩
  rw [hs, ← httrace, ← htcand]
  exact ⟨rfl, rfl, rfl, rfl⟩

/-! ## The tick (R184) -/

/-- R184, R234: the driver's test comes first. -/
theorem execLapTick_uninitialisedRx {s : State} (hr : s.driver.rxInit = false) (now : Millis) :
    execLapTick now s = .refused (.notInitialised .rx) :=
  completeOr_eq_refused.mpr (map_eq_error.mpr (if_pos hr))

/-- R184, R234: the filter's test comes second, before any draw. -/
theorem execLapTick_uninitialisedFlt {s : State} (hr : s.driver.rxInit = true) (hf : s.filter.fltInit = false)
    (now : Millis) : execLapTick now s = .refused (.notInitialised .flt) := by
  have htick : lapTickOp now s = .error (.notInitialised .flt) := by
    rw [lapTickOp, if_neg (by simp [hr]), if_pos hf]
  exact completeOr_eq_refused.mpr (map_eq_error.mpr htick)

/-- Settles O41: the two tests in their order. -/
theorem tickRefusals : Obligations.TickRefusals := fun _ now =>
  ⟨fun hr => execLapTick_uninitialisedRx hr now, fun hr hf => execLapTick_uninitialisedFlt hr hf now⟩

/-- R184: with both components initialised a tick is not refused. -/
theorem lapTickOp_total {s : State} (hr : s.driver.rxInit = true) (hf : s.filter.fltInit = true) (now : Millis) :
    ∃ t, lapTickOp now s = .ok t := by
  cases h : lapTickOp now s with
  | ok t => exact ⟨t, rfl⟩
  | error e =>
    rcases lapTickOp_error h with ⟨_, hn⟩ | ⟨_, _, hn⟩
    · rw [hr] at hn
      cases hn
    · rw [hf] at hn
      cases hn

theorem setFilter_setRet (f : Filter) (r : BitVec 32) (s : State) :
    (s.setRet r).setFilter f = (s.setFilter f).setRet r := rfl

/-- The engine's step does not see the result port, and overwrites it. -/
theorem exec_lapStep_setRet (now : Millis) (sample : Amp) (s : State) (r : BitVec 32) :
    exec (.lapStep now sample) (s.setRet r) = exec (.lapStep now sample) s := by
  obtain ⟨_, _, h⟩ := lapStepOp_local now sample s.cfg s.engine
  rw [exec_lapStep, exec_lapStep, h s rfl rfl, h (s.setRet r) rfl rfl]
  rfl

/-- R92: a value put on the wider result port is read back from its low bits. -/
theorem extractLsb'_setWidth_self {v w : Nat} (x : BitVec w) (h : w ≤ v) : (x.setWidth v).extractLsb' 0 w = x := by
  rw [← BitVec.setWidth_eq_extractLsb' h, BitVec.setWidth_setWidth_of_le x h, BitVec.setWidth_eq]

/-- R184: all that a tick of the initialised block does: the read, which leaves the filter initialised, the filter
stepped on the amplitude read, and the engine's step on the rounded estimate. -/
theorem execLapTick_initialised {s : State} (hr : s.driver.rxInit = true) (hf : s.filter.fltInit = true)
    (now : Millis) :
    ∃ m u, readRssi s = .ok (m, u) ∧ u.filter.fltInit = true ∧
      execLapTick now s =
        .next ((lapStepOp now (roundEst (u.filter.stepped u.params.numerics m).x)
          (u.setFilter (u.filter.stepped u.params.numerics m))).setRet 0#32) := by
  obtain ⟨t, ht⟩ := lapTickOp_total hr hf now
  obtain ⟨_, _, m, v, est, f, hread, _, hupdate, rfl⟩ := lapTickOp_cases ht
  have hstepped := (filterUpdate_cases hupdate).2
  obtain rfl : est = (s.filter.stepped s.params.numerics m).x := congrArg Prod.fst hstepped
  obtain rfl : f = s.filter.stepped s.params.numerics m := congrArg (·.2.filter) hstepped
  exact ⟨m, _, hread, hf, completeOr_eq_next.mpr ⟨_, map_eq_ok.mpr ⟨_, ht, rfl⟩, rfl⟩⟩

/-- Settles O40: the read and the filter update of the tick are what the two operations compute; all that differs
between the states is the result port, which the engine's step does not see and then overwrites. -/
theorem tickIsReadFilterStep : Obligations.TickIsReadFilterStep := by
  intro s now hr hf
  obtain ⟨m, u, hread, hu, htick⟩ := execLapTick_initialised hr hf now
  have hrssi : exec .rxReadrssi s = .next (u.setRet (m.setWidth 32)) :=
    completeOr_eq_next.mpr ⟨_, map_eq_ok.mpr ⟨_, hread, rfl⟩, rfl⟩
  have hflt : exec (.fltStep m) (u.setRet (m.setWidth 32)) = _ :=
    execFltStep_initialised (s := u.setRet (m.setWidth 32)) hu m
  have hamp : (u.setRet (m.setWidth 32)).ret.extractLsb' 0 8 = m := extractLsb'_setWidth_self m (by decide)
  refine ⟨_, _, _, hrssi, (congrArg (fun a => exec (.fltStep a) _) hamp).trans hflt, ?engineStep, htick⟩
  rw [exec_lapStep_setRet, setFilter_setRet, exec_lapStep_setRet, setRet_ret, extractLsb'_setWidth_self _ (by decide)]
  rfl

/-! ## Reads of the engine's registers (R197 to R200) -/

/-- Settles O43: the flag goes to the result port alone, and a start clears it. -/
theorem lapAvailEffect : Obligations.LapAvailEffect := by
  refine ⟨fun s => rfl, fun s t h => ?_⟩
  obtain rfl := Host.Outcome.next.inj ((execLapStart_eq s).symm.trans h)
  exact ⟨_, rfl, rfl⟩

/-- R65: the slot behind the advanced cursor is the one the cursor stood at. -/
theorem lastSample_nextSample (c : Fin 100) : lastSample (nextSample c) = c := by
  have hc := c.isLt
  apply Fin.ext
  simp only [lastSample, nextSample, Fin.val_ofNat]
  omega

/-- Settles O44: the slot behind the cursor, which a step has just filled and a start has emptied. -/
theorem getRssiReturnsLastSample : Obligations.GetRssiReturnsLastSample := by
  refine ⟨fun s => ⟨lastSample s.engine.sampleCursor, rfl, rfl⟩, fun s t now sample hwf h => ?afterStep,
    fun s t h => ?afterStart⟩
  case afterStep =>
    obtain rfl := Host.Outcome.next.inj ((exec_lapStep now sample s).symm.trans h)
    refine ⟨_, rfl, ?_⟩
    rw [setRet_ret, setRet_engine, lapStepOp_sampleCursor, lastSample_nextSample,
      readSample_lapStepOp_same hwf]
  case afterStart =>
    obtain rfl := Host.Outcome.next.inj ((execLapStart_eq s).symm.trans h)
    exact ⟨_, rfl, rfl⟩

/-- Settles O45: the slot behind the lap cursor, which the call moves neither the first nor the second time. -/
theorem getTimeClearsAvailability : Obligations.GetTimeClearsAvailability := fun s =>
  ⟨lastLap s.engine.lapCursor, _, _, rfl, rfl, rfl, rfl, rfl, rfl, rfl⟩

/-- Settles O46: neither the stop nor the start writes the registration. -/
theorem setCbEffect : Obligations.SetCbEffect := fun _ _ =>
  ⟨_, _, _, rfl, rfl, execLapStop_eq _, rfl, execLapStart_eq _, rfl⟩

/-! ## The timer state over all operations (R180) -/

/-- R194, R195: a step of the engine keeps the timer state, or takes it from `WAITING` to `RUNNING`. -/
theorem lapStepOp_timerState (now : Millis) (sample : Amp) (s : State) :
    (lapStepOp now sample s).engine.timerState = s.engine.timerState ∨
      s.engine.timerState = .waiting ∧ (lapStepOp now sample s).engine.timerState = .running := by
  rcases lapStepOp_cases now sample s with ⟨_, _, hs⟩ | ⟨_, hst, hs⟩ | ⟨_, _, hs⟩ <;> rw [hs]
  · exact .inl rfl
  · exact .inr ⟨hst, rfl⟩
  · exact .inl rfl

/-- Settles O47: the start, the stop and the engine's step, alone or in a tick, have the table's lines; no other
operation writes the timer state. -/
theorem timerStateTransitions : Obligations.TimerStateTransitions := by
  intro i s t h
  cases i with
  | fltInit | fltStep => exact .inl (by rw [exec_engine h (.inl rfl)])
  | rxInit | rxSetfreq | rxHousekeep | rxReadrssi | rxVerify | frameWf | frameWp | frameRd =>
    exact .inl (by rw [exec_engine h (.inr rfl)])
  | lapStart =>
    obtain rfl := Host.Outcome.next.inj ((execLapStart_eq s).symm.trans h)
    exact .inr (.inl ⟨rfl, rfl⟩)
  | lapStop =>
    obtain rfl := Host.Outcome.next.inj ((execLapStop_eq s).symm.trans h)
    exact .inr (.inr (.inl ⟨rfl, rfl⟩))
  | lapTick now =>
    obtain ⟨m, v, sample, rfl⟩ := execLapTick_next h
    rcases lapStepOp_timerState now sample { s with env := v, filter := s.filter.stepped s.params.numerics m } with
      hkept | hcross
    · exact .inl hkept
    · exact .inr (.inr (.inr ⟨.inl ⟨now, rfl⟩, hcross⟩))
  | lapStep now sample =>
    cases complete_eq_next.mp h
    rcases lapStepOp_timerState now sample s with hkept | hcross
    · exact .inl hkept
    · exact .inr (.inr (.inr ⟨.inr ⟨now, sample, rfl⟩, hcross⟩))
  | lapGetrssi | lapAvail | lapGettime | lapSetcb | calNstart | calNstop | calXstart | calXstop =>
    cases complete_eq_next.mp h
    exact .inl rfl

end Sys2Proof.Machine
end

section
/-! SUPPORT. Proofs about the calibration sessions (`spec/44_calibration.md`): starting and stopping one, and what it has
recorded after any number of engine steps. -/

namespace Sys2Proof.Machine

/-! ## Start and stop (R221 to R224) -/

theorem execCalNstart_eq (s : State) :
    execCalNstart s =
      .next { s with
        ret := 0#32
        engine := { s.engine with noiseCal := Cal.started }
        trace := s.trace ++ pulses .calOn } := by
  rw [execCalNstart, notify_eq]
  rfl

theorem execCalXstart_eq (s : State) :
    execCalXstart s =
      .next { s with
        ret := 0#32
        engine := { s.engine with crossCal := Cal.started }
        trace := s.trace ++ pulses .calOn } := by
  rw [execCalXstart, notify_eq]
  rfl

theorem execCalNstop_eq (s : State) :
    execCalNstop s =
      .next { s with
        ret := s.engine.noiseCal.max.setWidth 32
        engine := { s.engine with noiseCal := s.engine.noiseCal.ended }
        trace := s.trace ++ pulses .calOff } := by
  rw [execCalNstop, notify_eq]
  rfl

theorem execCalXstop_eq (s : State) :
    execCalXstop s =
      .next { s with
        ret := s.engine.crossCal.max.setWidth 32
        engine := { s.engine with crossCal := s.engine.crossCal.ended }
        trace := s.trace ++ pulses .calOff } := by
  rw [execCalXstop, notify_eq]
  rfl

/-- Settles O51: each start as one equation on the whole state. -/
theorem calStartEffect : Obligations.CalStartEffect := fun s => ⟨execCalNstart_eq s, execCalXstart_eq s⟩

/-- Settles O52: each stop as one equation on the whole state. -/
theorem calStopEffect : Obligations.CalStopEffect := fun s => ⟨execCalNstop_eq s, execCalXstop_eq s⟩

/-! ## Runs -/

/-- A run completes exactly where its first operation does and the rest does after it. -/
theorem runOps_cons_eq_next {i : Instr} {is : List Instr} {s t : State} :
    runOps (i :: is) s = .next t ↔ ∃ s1, exec i s = .next s1 ∧ runOps is s1 = .next t := by
  rw [runOps]
  cases exec i s <;> simp

/-! ## What a session has recorded (R225 (4)) -/

/-- A session after the samples of a list, one by one. -/
def calAfterAll (xs : List (Millis × Amp)) (c : Cal) : Cal := xs.foldl (fun c x => calAfter x.2 c) c

/-- R185: one sample in an active session. -/
theorem calAfter_active {c : Cal} (h : c.active = true) (sample : Amp) :
    (calAfter sample c).active = true ∧
      (calAfter sample c).count.toNat = min (c.count.toNat + 1) 65535 ∧
      (calAfter sample c).max.toNat = max c.max.toNat sample.toNat := by
  rw [← calUpdate_active h]
  refine ⟨h, calUpdate_count sample c, ?max⟩
  simp only [calUpdate]
  split_ifs with hlt
  · exact (Nat.max_eq_right (Nat.le_of_lt hlt)).symm
  · exact (Nat.max_eq_left (Nat.not_lt.mp hlt)).symm

/-- R225 (4): any number of samples in an active session. -/
theorem calAfterAll_active (xs : List (Millis × Amp)) : ∀ {c : Cal}, c.active = true →
    (calAfterAll xs c).active = true ∧
      (calAfterAll xs c).count.toNat = min (c.count.toNat + xs.length) 65535 ∧
      (calAfterAll xs c).max.toNat = (xs.map fun x => x.2.toNat).foldl max c.max.toNat := by
  induction xs with
  | nil =>
    intro c h
    have hc := c.count.isLt
    exact ⟨h, (Nat.min_eq_left (Nat.le_of_lt_succ hc)).symm, rfl⟩
  | cons x xs ih =>
    intro c h
    obtain ⟨hactive, hcount, hmax⟩ := calAfter_active h x.2
    obtain ⟨hactives, hcounts, hmaxs⟩ := ih hactive
    refine ⟨hactives, hcounts.trans ?count, hmaxs.trans ?max⟩
    case count => rw [hcount, List.length_cons]; omega
    case max => rw [hmax]; rfl

/-- R189: a run of engine steps completes, and shows every sample to both sessions. -/
theorem runOps_lapSteps (xs : List (Millis × Amp)) : ∀ s : State,
    ∃ t, runOps (xs.map fun x => .lapStep x.1 x.2) s = .next t ∧
      t.engine.noiseCal = calAfterAll xs s.engine.noiseCal ∧
      t.engine.crossCal = calAfterAll xs s.engine.crossCal := by
  induction xs with
  | nil => exact fun s => ⟨s, rfl, rfl, rfl⟩
  | cons x xs ih =>
    intro s
    obtain ⟨t, hrun, hnoise, hcross⟩ := ih ((lapStepOp x.1 x.2 s).setRet 0#32)
    rw [setRet_engine, lapStepOp_noiseCal] at hnoise
    rw [setRet_engine, lapStepOp_crossCal] at hcross
    exact ⟨t, runOps_cons_eq_next.mpr ⟨_, exec_lapStep x.1 x.2 s, hrun⟩, hnoise, hcross⟩

/-- R225 (4): what a session holds that was started and then shown the samples of a list. -/
theorem calAfterAll_started (xs : List (Millis × Amp)) :
    (calAfterAll xs Cal.started).active = true ∧
      (calAfterAll xs Cal.started).count.toNat = min xs.length 65535 ∧
      (calAfterAll xs Cal.started).max.toNat = (xs.map fun x => x.2.toNat).foldl max 0 := by
  obtain ⟨hactive, hcount, hmax⟩ := calAfterAll_active xs (c := Cal.started) rfl
  exact ⟨hactive, hcount.trans (congrArg (min · 65535) (Nat.zero_add _)), hmax⟩

/-- Settles O54: the start clears its session, and the steps after it show that session every sample. -/
theorem sessionMaximumAndCount : Obligations.SessionMaximumAndCount := by
  intro s xs
  refine ⟨?noise, ?cross⟩
  case noise =>
    obtain ⟨t, hrun, hnoise, _⟩ := runOps_lapSteps xs _
    refine ⟨t, runOps_cons_eq_next.mpr ⟨_, execCalNstart_eq s, hrun⟩, ?_⟩
    rw [hnoise]
    exact calAfterAll_started xs
  case cross =>
    obtain ⟨t, hrun, _, hcross⟩ := runOps_lapSteps xs _
    refine ⟨t, runOps_cons_eq_next.mpr ⟨_, execCalXstart_eq s, hrun⟩, ?_⟩
    rw [hcross]
    exact calAfterAll_started xs

end Sys2Proof.Machine
end

section
/-! SUPPORT. Proofs that the calibration sessions are observers (`spec/44_calibration.md` rule R225 (1), (2)): every
operation commutes with the view that hides the sessions, their pulses and the last result. -/

namespace Sys2Proof.Machine

/-! ## Events that are no calibration pulse -/

/-- Events the view of R225 (2) keeps. -/
def NoCalPulse (es : List Event) : Prop := ∀ e ∈ es, e.isCalPulse = false

theorem NoCalPulse.append {es fs : List Event} (he : NoCalPulse es) (hf : NoCalPulse fs) : NoCalPulse (es ++ fs) :=
  List.forall_mem_append.mpr ⟨he, hf⟩

theorem noCalPulse_cells (cells : List Bool) : NoCalPulse (cells.flatMap cellEvents) := by
  simp [NoCalPulse, cellEvents, Event.isCalPulse, or_imp, forall_and]

theorem noCalPulse_clocks (n : Nat) : NoCalPulse (List.replicate n clockEvents).flatten := by
  simp [NoCalPulse, clockEvents, Event.isCalPulse, or_imp, forall_and]

/-- R134, R135: a write frame. -/
theorem noCalPulse_writeFrame (cells : List Bool) : NoCalPulse (writeFrameEvents cells) :=
  .append (.append (by simp [NoCalPulse, Event.isCalPulse]) (noCalPulse_cells cells))
    (by simp [NoCalPulse, Event.isCalPulse])

/-- R136: a read frame. -/
theorem noCalPulse_readFrame (driven : List Bool) : NoCalPulse (readFrameEvents driven) :=
  .append
    (.append
      (.append (.append (by simp [NoCalPulse, Event.isCalPulse]) (noCalPulse_cells driven))
        (by simp [NoCalPulse, Event.isCalPulse]))
      (noCalPulse_clocks 20))
    (by simp [NoCalPulse, Event.isCalPulse])

/-- R236: the pulses of any occasion but the two calibration toggles. -/
theorem noCalPulse_pulses {kind : NotifyKind} (hon : kind ≠ .calOn) (hoff : kind ≠ .calOff) :
    NoCalPulse (pulses kind) := by
  cases kind <;> simp_all [NoCalPulse, pulses, Event.isCalPulse]

/-! ## The view (R225 (2))

The sub-operations of the block commute with the view: hiding the sessions, their pulses and the last result before a
sub-operation or after it gives the same state. -/

/-- An engine without its two sessions. -/
def Engine.withoutCal (e : Engine) : Engine := { e with noiseCal := Cal.cleared, crossCal := Cal.cleared }

section
variable (s : State)

@[simp] theorem detectionView_params : (detectionView s).params = s.params := rfl
@[simp] theorem detectionView_cfg : (detectionView s).cfg = s.cfg := rfl
@[simp] theorem detectionView_engine : (detectionView s).engine = s.engine.withoutCal := rfl
@[simp] theorem detectionView_filter : (detectionView s).filter = s.filter := rfl
@[simp] theorem detectionView_driver : (detectionView s).driver = s.driver := rfl
@[simp] theorem detectionView_env : (detectionView s).env = s.env := rfl

theorem setEngine_detectionView (e : Engine) :
    (detectionView s).setEngine e.withoutCal = detectionView (s.setEngine e) := rfl

theorem setFilter_detectionView (f : Filter) :
    (detectionView s).setFilter f = detectionView (s.setFilter f) := rfl

theorem setDriver_detectionView (d : Driver) :
    (detectionView s).setDriver d = detectionView (s.setDriver d) := rfl

end

@[simp] theorem detectionView_idem (s : State) : detectionView (detectionView s) = detectionView s := by
  simp [detectionView, List.filter_filter]

/-- Appending events the view keeps commutes with it. -/
theorem detectionView_append {es : List Event} (h : NoCalPulse es) (s : State) :
    { detectionView s with trace := (detectionView s).trace ++ es } =
      detectionView { s with trace := s.trace ++ es } := by
  have hkept : es.filter (fun e => !e.isCalPulse) = es :=
    List.filter_eq_self.mpr fun e he => by rw [h e he]; rfl
  simp only [detectionView, List.filter_append, hkept]

/-! ### The driver -/

theorem sendWf_detectionView (addr : RegAddr) (value : Word16) (s : State) :
    sendWf addr value (detectionView s) = detectionView (sendWf addr value s) := by
  rw [sendWf_eq, sendWf_eq]
  exact detectionView_append (noCalPulse_writeFrame _)
    { s with pins := { s.pins with sel := true, clk := false, data := false } }

theorem sendWp_detectionView (mask : PowerMask) (s : State) :
    sendWp mask (detectionView s) = detectionView (sendWp mask s) := by
  rw [sendWp_eq, sendWp_eq]
  exact detectionView_append (noCalPulse_writeFrame _)
    { s with pins := { s.pins with sel := true, clk := false, data := mask.getLsbD 19 } }

theorem sendRd_detectionView (addr : RegAddr) (s : State) :
    sendRd addr (detectionView s) = ((sendRd addr s).1, detectionView (sendRd addr s).2) := by
  rw [sendRd_eq, sendRd_eq]
  exact congrArg (Prod.mk _) (detectionView_append (noCalPulse_readFrame _)
    { s with pins := ⟨true, false, false, .out⟩, env := (dataAnswers 20 s.env).2 })

theorem restLines_detectionView (s : State) : restLines (detectionView s) = detectionView (restLines s) := by
  rw [restLines_eq, restLines_eq]
  exact detectionView_append (by simp [NoCalPulse, Event.isCalPulse]) { s with pins := ⟨true, false, false, .out⟩ }

theorem powerDownPath_detectionView (now : Millis) (f : Word16) (s : State) :
    powerDownPath now f (detectionView s) = detectionView (powerDownPath now f s) := by
  simp only [powerDownPath, sendWp_detectionView, detectionView_driver, setDriver_detectionView]

theorem wake_detectionView (s : State) : wake (detectionView s) = detectionView (wake s) := by
  simp only [wake, hold_eq, detectionView_params, sendWp_detectionView, detectionView_driver, setDriver_detectionView]

theorem tuningPath_detectionView (now : Millis) (f : Word16) (s : State) :
    tuningPath now f (detectionView s) = detectionView (tuningPath now f s) := by
  simp only [tuningPath, detectionView_driver, wake_detectionView, ← apply_ite detectionView, detectionView_params,
    sendWf_detectionView, setDriver_detectionView]

theorem setFreq_detectionView (now : Millis) (f : Word16) (s : State) :
    setFreq now f (detectionView s) = (setFreq now f s).map detectionView := by
  simp only [setFreq, detectionView_driver, detectionView_params, powerDownPath_detectionView,
    tuningPath_detectionView]
  split_ifs <;> rfl

theorem verifyAttempt_detectionView (now : Millis) (s : State) :
    verifyAttempt now (detectionView s) = ((verifyAttempt now s).1, detectionView (verifyAttempt now s).2) := by
  simp only [verifyAttempt, detectionView_params, detectionView_driver, sendRd_detectionView,
    setDriver_detectionView]

theorem verify_detectionView (now : Millis) (s : State) :
    verify now (detectionView s) = (verify now s).map fun r => (r.1, detectionView r.2) := by
  simp only [verify, detectionView_driver, verifyAttempt_detectionView]
  split_ifs <;> rfl

theorem housekeepCommit_detectionView (now : Millis) (f : Word16) (s : State) :
    housekeepCommit now f (detectionView s) = (housekeepCommit now f s).map detectionView := by
  simp only [housekeepCommit, detectionView_driver, detectionView_params, setFreq_detectionView]
  split_ifs <;> rfl

theorem housekeepVerify_detectionView (now : Millis) (s : State) :
    housekeepVerify now (detectionView s) = (housekeepVerify now s).map detectionView := by
  simp only [housekeepVerify, detectionView_driver, detectionView_params, verify_detectionView]
  split_ifs
  · cases verify now s <;> rfl
  · rfl

theorem housekeep_detectionView (now : Millis) (f : Word16) (s : State) :
    housekeep now f (detectionView s) = (housekeep now f s).map detectionView := by
  simp only [housekeep, detectionView_driver, detectionView_params, housekeepCommit_detectionView]
  split_ifs
  · rfl
  · rfl
  · cases housekeepCommit now f s with
    | error e => rfl
    | ok s1 => exact housekeepVerify_detectionView now s1

theorem adcRead_detectionView (s : State) :
    adcRead (detectionView s) = ((adcRead s).1, detectionView (adcRead s).2) := by
  simp only [adcRead, detectionView_env]
  cases s.env.adc <;> rfl

theorem readRssi_detectionView (s : State) :
    readRssi (detectionView s) = (readRssi s).map fun r => (r.1, detectionView r.2) := by
  simp only [readRssi, detectionView_driver, detectionView_params, adcRead_detectionView]
  split_ifs <;> rfl

/-! ### The filter -/

theorem filterUpdate_detectionView (m : Amp) (s : State) :
    filterUpdate m (detectionView s) = (filterUpdate m s).map fun r => (r.1, detectionView r.2) := by
  unfold filterUpdate
  rw [detectionView_filter]
  split_ifs <;> rfl

/-! ### The engine -/

/-- R236: an announcement of anything but a calibration toggle. -/
theorem notify_detectionView {kind : NotifyKind} (hon : kind ≠ .calOn) (hoff : kind ≠ .calOff) (s : State) :
    notify kind (detectionView s) = detectionView (notify kind s) := by
  rw [notify_eq, notify_eq]
  exact detectionView_append (noCalPulse_pulses hon hoff) s

/-- R235. -/
theorem emit_lapCompleted_detectionView (d : Millis) (s : State) :
    (detectionView s).emit (.lapCompleted d) = detectionView (s.emit (.lapCompleted d)) :=
  detectionView_append (by simp [NoCalPulse, Event.isCalPulse]) s

theorem storeSample_withoutCal (sample : Amp) (e : Engine) :
    storeSample sample e.withoutCal = (storeSample sample e).withoutCal := rfl

theorem advanceCursor_withoutCal (e : Engine) : advanceCursor e.withoutCal = (advanceCursor e).withoutCal := rfl

theorem peakCapture_withoutCal (c : Config.Inputs) (now : Millis) (sample : Amp) (e : Engine) :
    peakCapture c now sample e.withoutCal = (peakCapture c now sample e).withoutCal := by
  rw [peakCapture_eq, peakCapture_eq]
  rfl

theorem captureEnabled_withoutCal (c : Config.Inputs) (e : Engine) (now : Millis) :
    captureEnabled c e.withoutCal now = captureEnabled c e now := rfl

theorem confirmCrossing_withoutCal (c : Config.Inputs) (e : Engine) (now : Millis) (sample : Amp) :
    confirmCrossing c e.withoutCal now sample = confirmCrossing c e now sample := rfl

theorem startLap_detectionView (s : State) : startLap (detectionView s) = detectionView (startLap s) :=
  notify_detectionView (kind := .lapStart) nofun nofun
    (s.setEngine { s.engine with lapStart := s.engine.cand.ts, cand := Candidate.empty })

theorem finishLap_detectionView (s : State) : finishLap (detectionView s) = detectionView (finishLap s) := by
  have hrecord : recordLap s.engine.withoutCal = (recordLap s.engine).withoutCal := rfl
  have hduration : lapDuration s.engine.withoutCal = lapDuration s.engine := rfl
  have hregistered : s.engine.withoutCal.cbRegistered = s.engine.cbRegistered := rfl
  simp only [finishLap, detectionView_engine, hrecord, hduration, hregistered, setEngine_detectionView,
    notify_detectionView (kind := .lapFinish) nofun nofun, emit_lapCompleted_detectionView, apply_ite detectionView]

theorem waitingStep_detectionView (now : Millis) (sample : Amp) (s : State) :
    waitingStep now sample (detectionView s) = detectionView (waitingStep now sample s) := by
  have hrun : ∀ t : State, (detectionView t).setEngine { t.engine.withoutCal with timerState := .running } =
      detectionView (t.setEngine { t.engine with timerState := .running }) := fun _ => rfl
  simp only [waitingStep, detectionView_engine, detectionView_cfg, peakCapture_withoutCal, setEngine_detectionView,
    confirmCrossing_withoutCal, hrun, startLap_detectionView, apply_ite detectionView]

theorem runningStep_detectionView (now : Millis) (sample : Amp) (s : State) :
    runningStep now sample (detectionView s) = detectionView (runningStep now sample s) := by
  simp only [runningStep, detectionView_engine, detectionView_cfg, peakCapture_withoutCal, setEngine_detectionView,
    captureEnabled_withoutCal, ← apply_ite detectionView, confirmCrossing_withoutCal, finishLap_detectionView,
    startLap_detectionView]

theorem dispatchStep_detectionView (now : Millis) (sample : Amp) (s : State) :
    dispatchStep now sample (detectionView s) = detectionView (dispatchStep now sample s) := by
  have htimer : s.engine.withoutCal.timerState = s.engine.timerState := rfl
  simp only [dispatchStep, detectionView_engine, htimer]
  cases s.engine.timerState with
  | stopped => rfl
  | waiting => exact waitingStep_detectionView now sample s
  | running => exact runningStep_detectionView now sample s

/-- R225 (1): the engine's step detects the same without the sessions. -/
theorem lapStepOp_detectionView (now : Millis) (sample : Amp) (s : State) :
    lapStepOp now sample (detectionView s) = detectionView (lapStepOp now sample s) := by
  simp only [lapStepOp, detectionView_engine, storeSample_withoutCal, setEngine_detectionView,
    dispatchStep_detectionView, advanceCursor_withoutCal]

theorem lapTickOp_detectionView (now : Millis) (s : State) :
    lapTickOp now (detectionView s) = (lapTickOp now s).map detectionView := by
  simp only [lapTickOp, detectionView_driver, detectionView_filter, readRssi_detectionView]
  split_ifs
  · rfl
  · rfl
  · cases readRssi s with
    | error e => rfl
    | ok r =>
      simp only [Except.map, Except.bind, filterUpdate_detectionView]
      cases filterUpdate r.1 r.2 with
      | error e => rfl
      | ok u => exact congrArg Except.ok (lapStepOp_detectionView now (roundEst u.1) u.2)

/-! ### The operations -/

/-- What an answer shows of the state it leaves. -/
def viewOf : Answer → Answer
  | .next t => .next (detectionView t)
  | .fault r => .fault r
  | .refused r => .refused r

theorem viewOf_eq_next {r : Answer} {v : State} : viewOf r = .next v ↔ ∃ t, r = .next t ∧ detectionView t = v := by
  cases r <;> simp [viewOf]

theorem viewOf_complete_congr {s t : State} (a b : BitVec 32) (h : s = detectionView t) :
    viewOf (complete a s) = viewOf (complete b t) := by
  rw [h]
  exact congrArg Host.Outcome.next (detectionView_idem t)

/-- The view of an operation that can be refused, where what it computes commutes with the view. -/
theorem viewOf_completeOr_map {α : Type} (q : Except Refusal α) (value : α → BitVec 32) (state : α → State)
    (g : α → α) (h : ∀ x, state (g x) = detectionView (state x)) :
    viewOf (completeOr ((q.map g).map fun x => (value x, state x))) =
      viewOf (completeOr (q.map fun x => (value x, state x))) := by
  cases q with
  | error e => rfl
  | ok x => exact viewOf_complete_congr _ _ (h x)

/-- R225 (2): a calibration operation leaves the view as it was. -/
theorem viewOf_exec_cal {i : Instr} (h : isCal i = true) (s : State) : viewOf (exec i s) = .next (detectionView s) := by
  refine viewOf_eq_next.mpr ?_
  cases i with
  | calNstart => exact ⟨_, execCalNstart_eq s, by simp [detectionView, pulses, Event.isCalPulse]⟩
  | calNstop => exact ⟨_, execCalNstop_eq s, by simp [detectionView, pulses, Event.isCalPulse]⟩
  | calXstart => exact ⟨_, execCalXstart_eq s, by simp [detectionView, pulses, Event.isCalPulse]⟩
  | calXstop => exact ⟨_, execCalXstop_eq s, by simp [detectionView, pulses, Event.isCalPulse]⟩
  | _ => cases h

theorem discardCal_withoutCal (clears : Bool) (e : Engine) :
    discardCal clears e.withoutCal = (discardCal clears e).withoutCal := by
  cases clears <;> rfl

theorem viewOf_execFltInit (rawQ rawR : BitVec 16) (s : State) :
    viewOf (execFltInit rawQ rawR (detectionView s)) = viewOf (execFltInit rawQ rawR s) := by
  unfold execFltInit
  split_ifs
  · rfl
  · exact viewOf_complete_congr _ _ (setFilter_detectionView s _)

theorem viewOf_execLapStop (s : State) : viewOf (execLapStop (detectionView s)) = viewOf (execLapStop s) := by
  have hreset : engineReset s.engine.withoutCal = (engineReset s.engine).withoutCal := rfl
  unfold execLapStop
  rw [detectionView_engine, detectionView_params, hreset, discardCal_withoutCal]
  exact viewOf_complete_congr _ _ (notify_detectionView (kind := .stop) nofun nofun
    (s.setEngine { discardCal s.params.stopClearsCal (engineReset s.engine) with timerState := .stopped }))

/-- R225 (1), (2): no operation sees the sessions, the calibration pulses or the last result. -/
theorem viewOf_exec_detectionView (i : Instr) (s : State) : viewOf (exec i (detectionView s)) = viewOf (exec i s) := by
  cases i with
  | fltInit rawQ rawR => exact viewOf_execFltInit rawQ rawR s
  | fltStep m =>
    rw [exec, exec, execFltStep, execFltStep, filterUpdate_detectionView]
    exact viewOf_completeOr_map _ _ _ _ fun _ => rfl
  | rxInit =>
    refine viewOf_complete_congr _ _ ?_
    simp only [detectionView_params, restLines_detectionView, sendWp_detectionView, setDriver_detectionView]
  | rxSetfreq now f =>
    rw [exec, exec, execRxSetfreq, execRxSetfreq, setFreq_detectionView]
    exact viewOf_completeOr_map _ _ _ _ fun _ => rfl
  | rxHousekeep now f =>
    rw [exec, exec, execRxHousekeep, execRxHousekeep, housekeep_detectionView]
    exact viewOf_completeOr_map _ _ _ _ fun _ => rfl
  | rxReadrssi =>
    rw [exec, exec, execRxReadrssi, execRxReadrssi, readRssi_detectionView]
    exact viewOf_completeOr_map _ _ _ _ fun _ => rfl
  | rxVerify now =>
    rw [exec, exec, execRxVerify, execRxVerify, verify_detectionView]
    exact viewOf_completeOr_map _ _ _ _ fun _ => rfl
  | frameWf addr value => exact viewOf_complete_congr _ _ (sendWf_detectionView addr value s)
  | frameWp mask => exact viewOf_complete_congr _ _ (sendWp_detectionView mask s)
  | frameRd addr => exact viewOf_complete_congr _ _ (congrArg Prod.snd (sendRd_detectionView addr s))
  | lapStart =>
    exact viewOf_complete_congr _ _ (notify_detectionView (kind := .start) nofun nofun
      (s.setEngine { engineReset s.engine with timerState := .waiting }))
  | lapStop => exact viewOf_execLapStop s
  | lapTick now =>
    rw [exec, exec, execLapTick, execLapTick, lapTickOp_detectionView]
    exact viewOf_completeOr_map _ _ _ _ fun _ => rfl
  | lapStep now sample => exact viewOf_complete_congr _ _ (lapStepOp_detectionView now sample s)
  | lapGetrssi | lapAvail | lapGettime | lapSetcb => exact viewOf_complete_congr _ _ rfl
  | calNstart | calNstop | calXstart | calXstop => rw [viewOf_exec_cal rfl, viewOf_exec_cal rfl, detectionView_idem]

/-- R225 (2): operations from states of one view complete together, and leave states of one view. -/
theorem exec_of_same_view {i : Instr} {s t u : State} (hview : detectionView s = detectionView t)
    (h : exec i s = .next u) : ∃ v, exec i t = .next v ∧ detectionView u = detectionView v := by
  have hanswers : viewOf (exec i t) = .next (detectionView u) := by
    calc viewOf (exec i t)
      _ = viewOf (exec i (detectionView t)) := (viewOf_exec_detectionView i t).symm
      _ = viewOf (exec i s) := by rw [← hview, viewOf_exec_detectionView]
      _ = .next (detectionView u) := by rw [h]; rfl
  obtain ⟨v, hv, heq⟩ := viewOf_eq_next.mp hanswers
  exact ⟨v, hv, heq.symm⟩

/-- R225 (2): a run, and the run without its calibration operations from a state of the same view. -/
theorem runOps_without_cal (ops : List Instr) : ∀ {s t u : State}, detectionView s = detectionView t →
    runOps ops s = .next u →
    ∃ v, runOps (ops.filter fun i => !isCal i) t = .next v ∧ detectionView u = detectionView v := by
  induction ops with
  | nil =>
    intro s t u hview h
    obtain rfl := Host.Outcome.next.inj h
    exact ⟨t, rfl, hview⟩
  | cons i is ih =>
    intro s t u hview h
    obtain ⟨s1, hfirst, hrest⟩ := runOps_cons_eq_next.mp h
    cases hc : isCal i with
    | true =>
      have hkept : detectionView s1 = detectionView s :=
        Host.Outcome.next.inj ((congrArg viewOf hfirst).symm.trans (viewOf_exec_cal hc s))
      rw [List.filter_cons_of_neg (by simp [hc])]
      exact ih (hkept.trans hview) hrest
    | false =>
      obtain ⟨t1, hfirst', hview1⟩ := exec_of_same_view hview hfirst
      obtain ⟨v, hrest', hviews⟩ := ih hview1 hrest
      rw [List.filter_cons_of_pos (by simp [hc])]
      exact ⟨v, runOps_cons_eq_next.mpr ⟨t1, hfirst', hrest'⟩, hviews⟩

/-- Settles O55: a calibration operation leaves the view, and no other operation sees more than the view. -/
theorem calibrationIsObservational : Obligations.CalibrationIsObservational :=
  fun ops _ _ h => runOps_without_cal ops rfl h

end Sys2Proof.Machine
end

section
/-! SUPPORT. Proofs about refusals (`spec/60_exceptions.md`): which requests are refused before any operation, which
operation refuses what (R233), and that the environment decides none of it (R232); and the samples a run of the engine
keeps (R256). -/

namespace Sys2Proof.Machine

/-! ## Requests refused before any operation (R233, R234, R241) -/

/-- R241: an early request that the decoder and the port's test of R97 let pass is turned away. -/
theorem serveRequest_early {s : State} {w : PortWord} {i : Instr} (rest : List Arrival) (hd : decode s.params w = .ok i)
    (hb : BlockSends s.params i) : serveRequest w true rest s = .turnedAway .reentrant := by
  simp [serveRequest, hd, sentByBlock_iff.mpr hb]

/-- Settles O10: the head of the port is the early request, and it is turned away before its operation's own test. -/
theorem earlyRequestIsReentrant : Obligations.EarlyRequestIsReentrant := by
  intro s w rest i hp ha hd hb
  rw [step, service_request hp ha, serveRequest_early rest hd hb]

/-! ## Which operation refuses what (R233) -/

theorem complete_ne_refused (v : BitVec 32) (s : State) (e : Refusal) : complete v s ≠ .refused e := nofun

theorem filterUpdate_eq_error {m : Amp} {s : State} {e : Refusal} :
    filterUpdate m s = .error e ↔ s.filter.fltInit = false ∧ e = .notInitialised .flt := by
  unfold filterUpdate
  split_ifs with h <;> simp [h, eq_comm]

theorem setFreq_eq_error {now : Millis} {f : Word16} {s : State} {e : Refusal} :
    setFreq now f s = .error e ↔
      s.driver.rxInit = false ∧ e = .notInitialised .rx ∨
        s.driver.rxInit = true ∧ ¬ Acceptable s f ∧ e = .freqOutOfRange f := by
  constructor
  · intro h
    rcases setFreq_error h with ⟨he, hi⟩ | ⟨he, ha⟩
    · exact .inl ⟨hi, he⟩
    · cases hi : s.driver.rxInit with
      | false => exact .inl ⟨rfl, Except.error.inj (h.symm.trans (if_pos hi))⟩
      | true => exact .inr ⟨rfl, ha, he⟩
  · rintro (⟨hi, rfl⟩ | ⟨hi, ha, rfl⟩)
    · exact if_pos hi
    · simp only [Acceptable, not_or] at ha
      obtain ⟨hcur, hdown, hrange⟩ := ha
      rw [setFreq, if_neg (by simp [hi]), if_neg hcur, if_neg hdown, if_pos (inRange_eq_false.mpr hrange)]

theorem verify_eq_error {now : Millis} {s : State} {e : Refusal} :
    verify now s = .error e ↔
      s.driver.rxInit = false ∧ e = .notInitialised .rx ∨
        s.driver.rxInit = true ∧ ¬ HasEncoding s.driver.curFreq ∧ e = .noFrequency s.driver.curFreq := by
  constructor
  · intro h
    rcases verify_error h with ⟨he, hi⟩ | ⟨he, hn⟩
    · exact .inl ⟨hi, he⟩
    · cases hi : s.driver.rxInit with
      | false => exact .inl ⟨rfl, Except.error.inj (h.symm.trans (if_pos hi))⟩
      | true => exact .inr ⟨rfl, hn, he⟩
  · rintro (⟨hi, rfl⟩ | ⟨hi, hn, rfl⟩)
    · exact if_pos hi
    · rw [verify, if_neg (by simp [hi]), if_pos (encodable_eq_false.mpr hn)]

theorem readRssi_eq_error {s : State} {e : Refusal} :
    readRssi s = .error e ↔ s.driver.rxInit = false ∧ e = .notInitialised .rx := by
  rw [readRssi_eq]
  split_ifs with hi <;> simp [hi, eq_comm]

/-- R233: what each operation refuses, and under which refusal: it depends on parameters, driver and filter alone. -/
def RefusedWith (s : State) : Instr → Refusal → Prop
  | .fltInit _ rawR, e => rawR = 0#16 ∧ e = .badCoefficient rawR
  | .fltStep _, e => s.filter.fltInit = false ∧ e = .notInitialised .flt
  | .rxSetfreq _ f, e =>
    s.driver.rxInit = false ∧ e = .notInitialised .rx ∨
      s.driver.rxInit = true ∧ ¬ Acceptable s f ∧ e = .freqOutOfRange f
  | .rxHousekeep now f, e =>
    s.driver.rxInit = false ∧ e = .notInitialised .rx ∨
      s.driver.rxInit = true ∧ ¬ Acceptable s f ∧ e = .freqOutOfRange f ∨
      s.driver.rxInit = true ∧ Acceptable s f ∧ ∃ s1, housekeepCommit now f s = .ok s1 ∧
        AttemptDue s1.params s1.driver now ∧ ¬ HasEncoding s1.driver.curFreq ∧ e = .noFrequency s1.driver.curFreq
  | .rxReadrssi, e => s.driver.rxInit = false ∧ e = .notInitialised .rx
  | .rxVerify _, e =>
    s.driver.rxInit = false ∧ e = .notInitialised .rx ∨
      s.driver.rxInit = true ∧ ¬ HasEncoding s.driver.curFreq ∧ e = .noFrequency s.driver.curFreq
  | .lapTick _, e =>
    s.driver.rxInit = false ∧ e = .notInitialised .rx ∨
      s.driver.rxInit = true ∧ s.filter.fltInit = false ∧ e = .notInitialised .flt
  | .rxInit, _ | .lapStart, _ | .lapStop, _ | .lapStep _ _, _ | .lapGetrssi, _ | .lapAvail, _ | .lapGettime, _
  | .lapSetcb _, _ | .calNstart, _ | .calNstop, _ | .calXstart, _ | .calXstop, _ | .frameWf _ _, _ | .frameWp _, _
  | .frameRd _, _ => False

/-- R156: the three refusals of housekeeping, in their order; the last is that of the attempt it invokes. -/
theorem execRxHousekeep_eq_refused {now : Millis} {f : Word16} {s : State} {e : Refusal} :
    execRxHousekeep now f s = .refused e ↔ RefusedWith s (.rxHousekeep now f) e := by
  constructor
  · intro h
    rcases housekeep_error (map_eq_error.mp (completeOr_eq_refused.mp h)) with
      ⟨he, hi⟩ | ⟨he, ha⟩ | ⟨hi, ha, s1, hc, hd, he, hn⟩
    · exact .inl ⟨hi, he⟩
    · cases hi : s.driver.rxInit with
      | false =>
        have hfirst : execRxHousekeep now f s = .refused (.notInitialised .rx) :=
          completeOr_eq_refused.mpr (map_eq_error.mpr (if_pos hi))
        exact .inl ⟨hi, Host.Outcome.refused.inj (h.symm.trans hfirst)⟩
      | true => exact .inr (.inl ⟨hi, ha, he⟩)
    · exact .inr (.inr ⟨hi, ha, s1, hc, hd, hn, he⟩)
  · obtain ⟨huninit, hrange, _⟩ := housekeepIsCommitThenVerify s now f
    rintro (⟨hi, rfl⟩ | ⟨hi, ha, rfl⟩ | ⟨hi, ha, s1, hc, hd, hn, rfl⟩)
    · exact huninit hi
    · exact hrange hi ha
    · have hi1 : s1.driver.rxInit = true := (housekeepCommit_rxInit hc).trans hi
      have hv : verify now s1 = .error (.noFrequency s1.driver.curFreq) := verify_eq_error.mpr (.inr ⟨hi1, hn, rfl⟩)
      rw [execRxHousekeep_steps hi ha hc, housekeepVerify_due hd, hv]
      rfl

/-- R233: every operation refuses exactly what `RefusedWith` lists. -/
theorem exec_eq_refused {i : Instr} {s : State} {e : Refusal} : exec i s = .refused e ↔ RefusedWith s i e := by
  cases i with
  | fltInit rawQ rawR =>
    rw [exec, execFltInit]
    split_ifs with h
    · simp [RefusedWith, h, eq_comm]
    · exact iff_of_false (complete_ne_refused _ _ _) fun hr => h hr.1
  | fltStep m => exact completeOr_eq_refused.trans (map_eq_error.trans filterUpdate_eq_error)
  | rxSetfreq now f => exact completeOr_eq_refused.trans (map_eq_error.trans setFreq_eq_error)
  | rxHousekeep now f => exact execRxHousekeep_eq_refused
  | rxReadrssi => exact completeOr_eq_refused.trans (map_eq_error.trans readRssi_eq_error)
  | rxVerify now => exact completeOr_eq_refused.trans (map_eq_error.trans verify_eq_error)
  | lapTick now =>
    constructor
    · intro h
      rcases lapTickOp_error (map_eq_error.mp (completeOr_eq_refused.mp h)) with ⟨he, hr⟩ | ⟨he, hr, hf⟩
      · exact .inl ⟨hr, he⟩
      · exact .inr ⟨hr, hf, he⟩
    · rintro (⟨hr, rfl⟩ | ⟨hr, hf, rfl⟩)
      · exact execLapTick_uninitialisedRx hr now
      · exact execLapTick_uninitialisedFlt hr hf now
  | rxInit | lapStart | lapStop | lapStep | lapGetrssi | lapAvail | lapGettime | lapSetcb | calNstart | calNstop
  | calXstart | calXstop | frameWf | frameWp | frameRd =>
    exact ⟨fun h => complete_ne_refused _ _ _ h, False.elim⟩

/-! ## Violated parameter constraints (R233 `BadConfig`) -/

/-- No operation refuses by `BadConfig`. -/
theorem exec_ne_badConfig (i : Instr) (s : State) (v : Config.Violation) : exec i s ≠ .refused (.badConfig v) := by
  intro h
  have hr := exec_eq_refused.mp h
  cases i <;> simp [RefusedWith] at hr

/-- No request is turned away by `BadConfig` once the parameters have passed their test. -/
theorem serveRequest_ne_badConfig (w : PortWord) (early : Bool) (rest : List Arrival) (s : State)
    (v : Config.Violation) : serveRequest w early rest s ≠ .turnedAway (.badConfig v) := by
  unfold serveRequest
  split
  next e _ => cases e <;> simp [refusalOf]
  next i _ => split_ifs <;> simp

/-- R233: parameters that meet the constraints are never refused. -/
theorem step_ne_badConfig {s : State} (hp : Constraints s.params) (v : Config.Violation) :
    step s ≠ .refused (.badConfig v) := by
  match ha : s.arrivals with
  | [] => rw [step, service_idle hp ha]; nofun
  | .inputs c :: rest => rw [step, service_inputs hp ha]; nofun
  | .reset :: rest => rw [step, service_reset hp ha]; nofun
  | .request w early :: rest =>
    rw [step, service_request hp ha]
    split
    next => nofun
    next => nofun
    next r hr =>
      rintro ⟨⟩
      exact serveRequest_ne_badConfig w early rest s v hr
    next i s1 _ => exact exec_ne_badConfig i s1 v

/-- Settles O11: the first test of a step finds a violated constraint, and no later one refuses by that name. -/
theorem badConfigExactly : Obligations.BadConfigExactly := by
  intro s
  constructor
  · rintro ⟨v, h⟩ hp
    exact step_ne_badConfig hp v h
  · intro hp
    obtain ⟨v, hv⟩ := Option.ne_none_iff_exists'.mp (mt paramsViolation_none.mp hp)
    exact ⟨v, by rw [step, service, hv]⟩

/-! ## The environment and refusals (R232) -/

/-- R152: the answers to come do not take part in tuning. -/
theorem setFreq_setEnv (now : Millis) (f : Word16) (v : Env) (s : State) :
    setFreq now f (s.setEnv v) = (setFreq now f s).map (State.setEnv v) := by
  simp only [setFreq, powerDownPath_eq, tuningPath_eq, setEnv_driver, setEnv_params]
  split_ifs <;> rfl

/-- R156: the answers to come do not take part in step 1 of housekeeping. -/
theorem housekeepCommit_setEnv (now : Millis) (f : Word16) (v : Env) (s : State) :
    housekeepCommit now f (s.setEnv v) = (housekeepCommit now f s).map (State.setEnv v) := by
  simp only [housekeepCommit, setFreq_setEnv, setEnv_driver, setEnv_params]
  split_ifs <;> rfl

/-- R232: what an operation refuses is the same in every environment. -/
theorem RefusedWith.setEnv {s : State} {i : Instr} {e : Refusal} (h : RefusedWith s i e) (v : Env) :
    RefusedWith (s.setEnv v) i e := by
  cases i with
  | rxHousekeep now f =>
    rcases h with h | h | ⟨hi, ha, s1, hc, hd, hn, he⟩
    · exact .inl h
    · exact .inr (.inl h)
    · exact .inr (.inr ⟨hi, ha, s1.setEnv v, by rw [housekeepCommit_setEnv, hc]; rfl, hd, hn, he⟩)
  | _ => exact h

/-- Settles O59: the conditions under which operations refuse do not speak of the environment. -/
theorem environmentCannotRefuse : Obligations.EnvironmentCannotRefuse := fun _ _ v _ h =>
  exec_eq_refused.mpr ((exec_eq_refused.mp h).setEnv v)

/-! ## The samples a run keeps (R65, R202, R256) -/

/-- R256 (3): the sample buffer after the samples of a list: each of the last 100 in the slot of its number modulo 100,
and 0 in the slots not yet reached. -/
structure KeepsLast (hist : List Amp) (e : Engine) : Prop where
  canonical : Memory.wf 100 e.samples = true
  cursor : e.sampleCursor.val = hist.length % 100
  kept : ∀ (k : Nat) (i : Fin 100), k < hist.length → hist.length ≤ k + 100 → i.val = k % 100 →
    some (readSample e i) = hist[k]?
  unreached : ∀ i : Fin 100, hist.length ≤ i.val → readSample e i = 0#8

/-- R181: a start empties the buffer. -/
theorem keepsLast_engineReset (e : Engine) (ts : TimerState) : KeepsLast [] { engineReset e with timerState := ts } :=
  ⟨rfl, rfl, fun _ _ hk => absurd hk (Nat.not_lt_zero _), fun _ _ => rfl⟩

/-- R65: a step stores the next sample over the one 100 before it, or in a slot not yet reached. -/
theorem KeepsLast.lapStepOp {hist : List Amp} {s : State} (h : KeepsLast hist s.engine) (now : Millis) (sample : Amp) :
    KeepsLast (hist ++ [sample]) (lapStepOp now sample s).engine := by
  have hcur := h.cursor
  have hlen : (hist ++ [sample]).length = hist.length + 1 := List.length_append
  refine ⟨?canonical, ?cursor, fun k i hk hlast hi => ?kept, fun i hi => ?unreached⟩
  case canonical =>
    rw [lapStepOp_samples]
    exact Memory.wf_write sample s.engine.sampleCursor.isLt h.canonical
  case cursor =>
    rw [lapStepOp_sampleCursor, nextSample, Fin.val_ofNat, hlen]
    omega
  case kept =>
    rw [hlen] at hk hlast
    rcases Nat.lt_succ_iff_lt_or_eq.mp hk with hold | rfl
    · have hne : i ≠ s.engine.sampleCursor := by
        rintro rfl
        omega
      rw [readSample_lapStepOp_other now sample s hne, List.getElem?_append_left hold]
      exact h.kept k i hold (by omega) hi
    · have heq : i = s.engine.sampleCursor := Fin.ext (hi.trans hcur.symm)
      rw [heq, readSample_lapStepOp_same h.canonical, List.getElem?_concat_length]
  case unreached =>
    rw [hlen] at hi
    have hne : i ≠ s.engine.sampleCursor := by
      rintro rfl
      omega
    rw [readSample_lapStepOp_other now sample s hne]
    exact h.unreached i (by omega)

/-- R256 (3): a run of engine steps completes, and keeps its samples behind those already kept. -/
theorem runOps_keepsLast (xs : List (Millis × Amp)) : ∀ {hist : List Amp} {s : State}, KeepsLast hist s.engine →
    ∃ t, runOps (xs.map fun x => .lapStep x.1 x.2) s = .next t ∧ KeepsLast (hist ++ xs.map Prod.snd) t.engine := by
  induction xs with
  | nil => exact fun {_ s} h => ⟨s, rfl, by simpa using h⟩
  | cons x xs ih =>
    intro hist s h
    obtain ⟨t, hrun, ht⟩ := ih (s := (Machine.lapStepOp x.1 x.2 s).setRet 0#32) (h.lapStepOp x.1 x.2)
    exact ⟨t, runOps_cons_eq_next.mpr ⟨_, exec_lapStep x.1 x.2 s, hrun⟩, by simpa using ht⟩

/-- Settles O50: the start empties the buffer, and the steps after it fill it. -/
theorem sampleHistory : Obligations.SampleHistory := by
  intro s xs
  obtain ⟨t, hrun, ht⟩ := runOps_keepsLast xs
    (s := { s with
      engine := { engineReset s.engine with timerState := .waiting }
      trace := s.trace ++ pulses .start
      ret := 0#32 })
    (keepsLast_engineReset s.engine .waiting)
  rw [List.nil_append] at ht
  obtain ⟨_, hcursor, hkept, hunreached⟩ := ht
  rw [List.length_map] at hcursor hkept hunreached
  simp only [List.getElem?_map] at hkept
  exact ⟨t, runOps_cons_eq_next.mpr ⟨_, execLapStart_eq s, hrun⟩, hcursor, hkept, hunreached⟩

end Sys2Proof.Machine
end

section
/-! SUPPORT. Proofs about the output trace (`spec/60_exceptions.md` rules R238, R239): the events each operation appends,
and the frames among them (R97). -/

namespace Sys2Proof.Machine

/-! ## The events of a frame (R131 to R136) -/

/-- Events of the serial bus alone. -/
def PinsOnly (es : List Event) : Prop := ∀ e ∈ es, e.isPin = true

theorem PinsOnly.append {es fs : List Event} (he : PinsOnly es) (hf : PinsOnly fs) : PinsOnly (es ++ fs) :=
  List.forall_mem_append.mpr ⟨he, hf⟩

theorem pinsOnly_cells (cells : List Bool) : PinsOnly (cells.flatMap cellEvents) := by
  simp [PinsOnly, cellEvents, Event.isPin, or_imp, forall_and]

theorem pinsOnly_clocks (n : Nat) : PinsOnly (List.replicate n clockEvents).flatten := by
  simp [PinsOnly, clockEvents, Event.isPin, or_imp, forall_and]

/-- R134, R135: a write frame. -/
theorem pinsOnly_writeFrame (cells : List Bool) : PinsOnly (writeFrameEvents cells) :=
  .append (.append (by simp [PinsOnly, Event.isPin]) (pinsOnly_cells cells)) (by simp [PinsOnly, Event.isPin])

/-- R136: a read frame. -/
theorem pinsOnly_readFrame (driven : List Bool) : PinsOnly (readFrameEvents driven) :=
  .append
    (.append
      (.append (.append (by simp [PinsOnly, Event.isPin]) (pinsOnly_cells driven)) (by simp [PinsOnly, Event.isPin]))
      (pinsOnly_clocks 20))
    (by simp [PinsOnly, Event.isPin])

/-- R235: a completed lap is no event of the bus. -/
theorem PinsOnly.no_lap {es : List Event} (h : PinsOnly es) : es.filter Event.isLap = [] := by
  refine List.filter_eq_nil_iff.mpr fun e he => ?_
  have hpin := h e he
  cases e <;> simp_all [Event.isPin, Event.isLap]

/-! ## What each operation appends (R50, R97, R238, R239)

An operation appends events of its own, none of them a rising clock edge, and then whole frames. -/

/-- R151: the lines brought to rest. -/
def restEvents : List Event := [.pin .sel true, .pin .clk false, .pin .data false]

/-- R238: what a step of the engine may append: no event of the bus, and at most one completed lap. -/
def EngineEvents (es : List Event) : Prop := (∀ e ∈ es, e.isPin = false) ∧ (es.filter Event.isLap).length ≤ 1

/-- R236: pulses are no events of the bus, and no completed lap. -/
theorem engineEvents_pulses (kind : NotifyKind) : EngineEvents (pulses kind) := by
  simp [EngineEvents, pulses, Event.isPin, Event.isLap]

/-- R189, R238: a crossing announces the start of a lap, and in `RUNNING` the finish of the one before it. -/
theorem lapStepOp_events (now : Millis) (sample : Amp) (s : State) :
    ∃ es, (lapStepOp now sample s).trace = s.trace ++ es ∧ EngineEvents es := by
  rcases lapStepOp_cases now sample s with ⟨_, _, hs⟩ | ⟨_, _, hs⟩ | ⟨ts, _, hs⟩ <;> rw [hs]
  · exact ⟨[], (List.append_nil _).symm, by simp [EngineEvents]⟩
  · exact ⟨_, rfl, engineEvents_pulses .lapStart⟩
  · refine ⟨_, by rw [List.append_assoc, List.append_assoc], ?_⟩
    cases s.engine.cbRegistered <;> simp [EngineEvents, pulses, Event.isPin, List.filter, Event.isLap]

/-- The events of an operation's own. -/
def OwnEvents (i : Instr) (es : List Event) : Prop :=
  match i with
  | .rxInit => es = restEvents
  | .lapStart => es = pulses .start
  | .lapStop => es = pulses .stop
  | .calNstart | .calXstart => es = pulses .calOn
  | .calNstop | .calXstop => es = pulses .calOff
  | .lapTick _ | .lapStep _ _ => EngineEvents es
  | .fltInit _ _ | .fltStep _ | .rxSetfreq _ _ | .rxHousekeep _ _ | .rxReadrssi | .rxVerify _ | .lapGetrssi | .lapAvail
  | .lapGettime | .lapSetcb _ | .frameWf _ _ | .frameWp _ | .frameRd _ => es = []

/-- R152 to R158: a frame that tuning or verification sends; the value written is the encoding of a frequency in
range. -/
def TuningFrame (p : Config.Params) (es : List Event) : Prop :=
  (∃ f, InRange p f ∧ es = writeFrameEvents (wfCells p p.freqRegAddr (encodeFreq f))) ∨
    es = writeFrameEvents (wpCells p 0xFFFFF#20) ∨ es = writeFrameEvents (wpCells p p.powerMaskNormal) ∨
    es = readFrameEvents (rdCells p p.freqRegAddr)

/-- The frames an operation may send. -/
def FrameOf (p : Config.Params) (i : Instr) (es : List Event) : Prop :=
  match i with
  | .rxInit => es = writeFrameEvents (wpCells p p.powerMaskNormal)
  | .rxSetfreq _ _ | .rxHousekeep _ _ | .rxVerify _ => TuningFrame p es
  | .frameWf addr value => es = writeFrameEvents (wfCells p addr value)
  | .frameWp mask => es = writeFrameEvents (wpCells p mask)
  | .frameRd addr => es = readFrameEvents (rdCells p addr)
  | .fltInit _ _ | .fltStep _ | .rxReadrssi | .lapStart | .lapStop | .lapTick _ | .lapStep _ _ | .lapGetrssi | .lapAvail
  | .lapGettime | .lapSetcb _ | .calNstart | .calNstop | .calXstart | .calXstop => False

/-- R97: whole frames of one kind, one after another. -/
def Sends (kind : List Event → Prop) (es : List Event) : Prop :=
  ∃ frames : List (List Event), es = frames.flatten ∧ ∀ f ∈ frames, kind f

section
variable {kind : List Event → Prop} {es fs : List Event}

theorem Sends.nil : Sends kind [] := ⟨[], rfl, nofun⟩

theorem Sends.single (h : kind es) : Sends kind es := ⟨[es], by simp, by simpa using h⟩

theorem Sends.append (he : Sends kind es) (hf : Sends kind fs) : Sends kind (es ++ fs) := by
  obtain ⟨frames, rfl, hframes⟩ := he
  obtain ⟨later, rfl, hlater⟩ := hf
  exact ⟨frames ++ later, List.flatten_append.symm, List.forall_mem_append.mpr ⟨hframes, hlater⟩⟩

theorem Sends.eq_nil (h : Sends kind es) (hkind : ∀ f, ¬ kind f) : es = [] := by
  obtain ⟨frames, rfl, hframes⟩ := h
  rw [List.eq_nil_iff_forall_not_mem.mpr fun f hf => hkind f (hframes f hf), List.flatten_nil]

theorem Sends.pinsOnly (h : Sends kind es) (hkind : ∀ f, kind f → PinsOnly f) : PinsOnly es := by
  obtain ⟨frames, rfl, hframes⟩ := h
  exact List.forall_mem_flatten.mpr fun f hf => hkind f (hframes f hf)

end

/-! ### The driver -/

/-- R153: the tuning path sends the wake from power-down or nothing, and then the frequency write. -/
theorem sends_tuningEvents {s : State} {f : Word16} (hf : InRange s.params f) :
    Sends (TuningFrame s.params) (tuningEvents f s) := by
  refine .append ?wake (.single (.inl ⟨f, hf, rfl⟩))
  case wake =>
    split_ifs
    · exact .single (.inr (.inr (.inl rfl)))
    · exact .nil

/-- R152: what `RX.SETFREQ` sends. -/
theorem setFreq_sends {now : Millis} {f : Word16} {s t : State} (h : setFreq now f s = .ok t) :
    ∃ es, t.trace = s.trace ++ es ∧ Sends (TuningFrame s.params) es := by
  rcases (setFreq_cases h).2 with ⟨_, rfl⟩ | ⟨_, _, rfl⟩ | ⟨_, _, hf, rfl⟩
  · exact ⟨[], (List.append_nil _).symm, .nil⟩
  · rw [powerDownPath_eq]
    exact ⟨_, rfl, .single (.inr (.inl rfl))⟩
  · rw [tuningPath_eq]
    exact ⟨_, rfl, sends_tuningEvents hf⟩

/-- R158: what an attempt sends. -/
theorem verifyAttempt_sends (now : Millis) (s : State) :
    ∃ es, (verifyAttempt now s).2.trace = s.trace ++ es ∧ Sends (TuningFrame s.params) es := by
  rw [verifyAttempt_eq]
  exact ⟨_, rfl, .single (.inr (.inr (.inr rfl)))⟩

/-- R156: step 1 of housekeeping sends what the operation it invokes sends. -/
theorem housekeepCommit_sends {now : Millis} {f : Word16} {s t : State} (h : housekeepCommit now f s = .ok t) :
    ∃ es, t.trace = s.trace ++ es ∧ Sends (TuningFrame s.params) es := by
  rcases housekeepCommit_cases h with ⟨_, rfl⟩ | ⟨_, _, hset⟩
  · exact ⟨[], (List.append_nil _).symm, .nil⟩
  · exact setFreq_sends hset

/-- R156: step 2 of housekeeping sends the frame of an attempt, or nothing. -/
theorem housekeepVerify_sends {now : Millis} {s t : State} (h : housekeepVerify now s = .ok t) :
    ∃ es, t.trace = s.trace ++ es ∧ Sends (TuningFrame s.params) es := by
  rcases housekeepVerify_cases h with ⟨_, rfl⟩ | ⟨_, _, _, rfl⟩
  · exact ⟨[], (List.append_nil _).symm, .nil⟩
  · exact verifyAttempt_sends now s

/-- R156: what housekeeping sends. -/
theorem housekeep_sends {now : Millis} {f : Word16} {s t : State} (h : housekeep now f s = .ok t) :
    ∃ es, t.trace = s.trace ++ es ∧ Sends (TuningFrame s.params) es := by
  obtain ⟨_, _, s1, hcommit, hverify⟩ := housekeep_cases h
  obtain ⟨writes, hwrites, hw⟩ := housekeepCommit_sends hcommit
  obtain ⟨reads, hreads, hr⟩ := housekeepVerify_sends hverify
  obtain ⟨_, _, _, rfl⟩ := housekeepCommit_shape hcommit
  exact ⟨writes ++ reads, by rw [hreads, hwrites, List.append_assoc], hw.append hr⟩

/-! ### Every operation -/

/-- Every operation appends events of its own and then frames. -/
theorem exec_events {i : Instr} {s t : State} (h : exec i s = .next t) :
    ∃ own es, t.trace = s.trace ++ own ++ es ∧ OwnEvents i own ∧ Sends (FrameOf s.params i) es := by
  cases i with
  | fltInit rawQ rawR =>
    obtain ⟨_, rfl⟩ := execFltInit_eq_next.mp h
    exact ⟨[], [], by simp, rfl, .nil⟩
  | fltStep m =>
    obtain ⟨_, rfl⟩ := execFltStep_next h
    exact ⟨[], [], by simp, rfl, .nil⟩
  | rxInit =>
    obtain rfl := Host.Outcome.next.inj ((execRxInit_eq s).symm.trans h)
    exact ⟨_, _, rfl, rfl, .single rfl⟩
  | rxSetfreq now f =>
    obtain ⟨_, hs, rfl⟩ := execRxSetfreq_next h
    obtain ⟨es, htrace, hes⟩ := setFreq_sends hs
    exact ⟨[], es, by simpa using htrace, rfl, hes⟩
  | rxHousekeep now f =>
    obtain ⟨_, hs, rfl⟩ := execRxHousekeep_next h
    obtain ⟨es, htrace, hes⟩ := housekeep_sends hs
    exact ⟨[], es, by simpa using htrace, rfl, hes⟩
  | rxReadrssi =>
    obtain ⟨_, _, rfl⟩ := execRxReadrssi_next h
    exact ⟨[], [], by simp, rfl, .nil⟩
  | rxVerify now =>
    obtain ⟨_, rfl⟩ := execRxVerify_next h
    obtain ⟨es, htrace, hes⟩ := verifyAttempt_sends now s
    exact ⟨[], es, by simpa using htrace, rfl, hes⟩
  | frameWf addr value =>
    cases complete_eq_next.mp h
    exact ⟨[], _, by simp [sendWf_eq], rfl, .single rfl⟩
  | frameWp mask =>
    cases complete_eq_next.mp h
    exact ⟨[], _, by simp [sendWp_eq], rfl, .single rfl⟩
  | frameRd addr =>
    cases complete_eq_next.mp h
    exact ⟨[], _, by simp [sendRd_eq], rfl, .single rfl⟩
  | lapTick now =>
    obtain ⟨m, v, sample, rfl⟩ := execLapTick_next h
    obtain ⟨own, htrace, hown⟩ :=
      lapStepOp_events now sample { s with env := v, filter := s.filter.stepped s.params.numerics m }
    exact ⟨own, [], by simpa using htrace, hown, .nil⟩
  | lapStep now sample =>
    obtain rfl := Host.Outcome.next.inj ((exec_lapStep now sample s).symm.trans h)
    obtain ⟨own, htrace, hown⟩ := lapStepOp_events now sample s
    exact ⟨own, [], by simpa using htrace, hown, .nil⟩
  | lapStart | lapStop | calNstart | calNstop | calXstart | calXstop =>
    cases complete_eq_next.mp h
    exact ⟨_, [], by rw [notify_eq, List.append_nil]; rfl, rfl, .nil⟩
  | lapGetrssi | lapAvail | lapGettime | lapSetcb =>
    cases complete_eq_next.mp h
    exact ⟨[], [], by simp, rfl, .nil⟩

/-! ## The events by kind (R97, R238) -/

theorem TuningFrame.pinsOnly {p : Config.Params} {es : List Event} (h : TuningFrame p es) : PinsOnly es := by
  rcases h with ⟨_, _, rfl⟩ | rfl | rfl | rfl
  · exact pinsOnly_writeFrame _
  · exact pinsOnly_writeFrame _
  · exact pinsOnly_writeFrame _
  · exact pinsOnly_readFrame _

/-- Frames are events of the bus. -/
theorem FrameOf.pinsOnly {p : Config.Params} {es : List Event} {i : Instr} (h : FrameOf p i es) : PinsOnly es := by
  cases i with
  | rxInit | frameWf | frameWp => cases h; exact pinsOnly_writeFrame _
  | frameRd => cases h; exact pinsOnly_readFrame _
  | rxSetfreq | rxHousekeep | rxVerify => exact TuningFrame.pinsOnly h
  | _ => cases h

/-- R238: an operation's own events hold at most one completed lap. -/
theorem OwnEvents.laps_le_one {es : List Event} {i : Instr} (h : OwnEvents i es) :
    (es.filter Event.isLap).length ≤ 1 := by
  cases i with
  | lapTick | lapStep => exact h.2
  | lapStart | lapStop | calNstart | calNstop | calXstart | calXstop => cases h; exact (engineEvents_pulses _).2
  | _ => cases h; simp [restEvents, Event.isLap]

/-- R97: an operation raises the clock in its frames alone. -/
theorem OwnEvents.no_rising_clock {es : List Event} {i : Instr} (h : OwnEvents i es) :
    ∀ e ∈ es, e ≠ .pin .clk true := by
  have hengine : EngineEvents es → ∀ e ∈ es, e ≠ .pin .clk true := by
    rintro ⟨hpins, _⟩ _ he rfl
    exact Bool.noConfusion (hpins _ he)
  cases i with
  | lapTick | lapStep => exact hengine h
  | lapStart | lapStop | calNstart | calNstop | calXstart | calXstop => cases h; exact hengine (engineEvents_pulses _)
  | _ => cases h; simp [restEvents]

/-- R97: under the parameter constraints every frequency in range has an encoding, whose bits 5 and 6 are clear, so that
the frames of tuning and verification are of the kinds the block sends. -/
theorem TuningFrame.sent {p : Config.Params} {es : List Event} (hp : Constraints p) (h : TuningFrame p es) :
    SentFrame p es := by
  rcases h with ⟨f, hf, rfl⟩ | h
  · have henc := hasEncoding_of_inRange hp hf
    exact .inl ⟨encodeFreq f, encodeFreq_bits_clear henc (.inl rfl), encodeFreq_bits_clear henc (.inr rfl), rfl⟩
  · exact .inr h

/-- R97: all frames of an operation the port lets pass are of the kinds the block sends. -/
theorem FrameOf.sent {p : Config.Params} {es : List Event} {i : Instr} (hp : Constraints p) (hb : BlockSends p i)
    (h : FrameOf p i es) : SentFrame p es := by
  cases i with
  | rxInit => exact .inr (.inr (.inl h))
  | rxSetfreq | rxHousekeep | rxVerify => exact TuningFrame.sent hp h
  | frameWf addr value =>
    obtain ⟨rfl, h5, h6⟩ := hb
    exact .inl ⟨value, h5, h6, h⟩
  | frameWp mask =>
    rcases hb with rfl | rfl
    · exact .inr (.inl h)
    · exact .inr (.inr (.inl h))
  | frameRd addr =>
    obtain rfl := hb
    exact .inr (.inr (.inr h))
  | _ => cases h

/-- R239: the driver's own events are events of the bus. -/
theorem OwnEvents.pinsOnly {es : List Event} {i : Instr} (h : OwnEvents i es) (ho : Owner.of i = .driver) :
    PinsOnly es := by
  cases i with
  | rxInit => cases h; simp [PinsOnly, restEvents, Event.isPin]
  | rxSetfreq | rxHousekeep | rxReadrssi | rxVerify | frameWf | frameWp | frameRd => cases h; nofun
  | _ => cases ho

/-- Settles O58: an operation's own events are of its kind, and its frames events of the bus; what the port lets pass
sends frames of R97 alone. -/
theorem eventsPerOperation : Obligations.EventsPerOperation := by
  refine ⟨fun i s t h => ?operation, fun s t h => ?step⟩
  case operation =>
    obtain ⟨own, es, htrace, hown, hes⟩ := exec_events h
    have hpins : PinsOnly es := hes.pinsOnly fun _ => FrameOf.pinsOnly
    refine ⟨own ++ es, by rw [htrace, List.append_assoc], ?laps, ?kind⟩
    case laps =>
      rw [List.filter_append, hpins.no_lap, List.append_nil]
      exact hown.laps_le_one
    case kind =>
      cases i with
      | rxInit | rxSetfreq | rxHousekeep | rxVerify | frameWf | frameWp | frameRd =>
        exact (hown.pinsOnly rfl).append hpins
      | lapTick | lapStep =>
        obtain rfl := hes.eq_nil nofun
        rw [List.append_nil]
        exact hown.1
      | _ =>
        obtain rfl := hes.eq_nil nofun
        rw [List.append_nil]
        exact hown
  case step =>
    obtain ⟨hp, ⟨_, rfl⟩ | ⟨_, _, _, rfl⟩ | ⟨rest, ha, rfl⟩ | ⟨_, _, i, _, _, hb, hexec⟩⟩ := step_cases h
    · exact .inr ⟨[], [], by simp, nofun, nofun⟩
    · exact .inr ⟨[], [], by simp, nofun, nofun⟩
    · exact .inl ⟨rest, ha, rfl⟩
    · obtain ⟨own, _, htrace, hown, frames, rfl, hframes⟩ := exec_events hexec
      exact .inr ⟨own, frames, htrace, hown.no_rising_clock, fun f hf => (hframes f hf).sent hp hb⟩

end Sys2Proof.Machine
end

section
/-! SUPPORT. Proofs about the words numbered as the opcode table numbers them (`spec/95_test_vectors.md` E5, B1, B4,
B5). -/

namespace Sys2Proof.Machine

/-- Numbering adds nothing to decoding. -/
theorem decodeTableWord_of_ok {nbits n : Nat} {w : PortWord} {i : Instr} (hw : tableWord nbits n = w)
    (hd : decode Config.testDefaults w = .ok i) : decodeTableWord nbits n = some i := by
  simp only [decodeTableWord, hw, hd]

/-- R82 to R84, R92: the number of an encoded instruction. -/
theorem decodeTableWord_encode {nbits n : Nat} {i : Instr} (hw : tableWord nbits n = encode Config.testDefaults i)
    (hi : i.wellFormed Config.testDefaults = true) : decodeTableWord nbits n = some i :=
  decodeTableWord_of_ok hw (decodeInvertsEncode i _ (by decide) hi)

/-- R92: `LAP.STEP` reads its sample in the low eight bits of `arg`, whatever stands above them. -/
theorem decode_lapStep (p : Config.Params) (now : Millis) (ignored : BitVec 24) (sample : Amp) :
    decode p (.cmd (reqWord 0x13#5 now (ignored ++ sample))) = .ok (.lapStep now sample) := by
  have hamp : argAmp (reqWord 0x13#5 now (ignored ++ sample)) = sample := by
    rw [argAmp, Laws.argField_reqWord]
    exact Laws.extract_low ignored sample
  simp [decode, decodeCmd, Laws.cmdField_reqWord, Laws.nowField_reqWord, hamp]

/-- R83: a read frame is known by its indicator, whatever its 20 sampled cells are. -/
theorem decode_readFrame (p : Config.Params) (addr : RegAddr) (sampled : BitVec 20) :
    decode p (.frame (addr.reverse ++ BitVec.ofBool p.readInd ++ sampled)) = .ok (.frameRd addr) := by
  rw [decode, decodeFrame, Laws.frameInd_append, Laws.frameAddr_append, if_pos rfl]

/-- R96: the number of a request with a reserved code. -/
theorem decodeTableWord_reserved {nbits n : Nat} {w : ReqWord} (hw : tableWord nbits n = .cmd w)
    (hr : (cmdField w).toNat ∈ reservedCodes) : decodeTableWord nbits n = none := by
  simp only [decodeTableWord, hw, decode, decodeCmd_reserved hr]

/-- Settles O2: five of the words are what the encoder writes; of the others, one has bits in its `arg` that `LAP.STEP`
ignores, one has the reserved code 0, and one is a read frame with its sampled cells as on the wire. -/
theorem wordsOfTheSpecDecode : Obligations.WordsOfTheSpecDecode := by
  refine ⟨?fltInit, ?rxHousekeep, ?lapStep, ?calXstart, ?reserved, ?frameWf, ?frameWp, ?frameRd⟩
  case fltInit | rxHousekeep | calXstart | frameWf | frameWp => exact decodeTableWord_encode (by decide) (by decide)
  case lapStep => exact decodeTableWord_of_ok (by decide) (decode_lapStep _ 20#32 0xFFFFFF#24 130#8)
  case reserved => exact decodeTableWord_reserved (w := 0#69) (by decide) (by decide)
  case frameRd => exact decodeTableWord_of_ok (by decide) (decode_readFrame _ 0x1#4 0b00100001100101000000#20)

end Sys2Proof.Machine
end
